-- ==== Sys2Proof/Word.lean ====
section
/-! DEFINITION. The words of AKCORE: what travels on its ports and what its registers hold. -/

namespace Sys2Proof

/-- A 32-bit word of a command or response port (R60, R63). -/
abbrev Word := BitVec 32

/-- A byte: 8 bits (R37). -/
abbrev Byte := BitVec 8

/-- The float type `F`: the binary32 encoding, sign bit 31, exponent bits 30:23, fraction bits
22:0 (00_scope.md section 5.2; the default `NUM` of R7, log 1). -/
abbrev F := BitVec 32

end Sys2Proof
end

