-- ==== Sys2Proof/Syntax.lean ====
section
/-! DEFINITION. The 27 operations of AKCORE, one constructor per row of spec/opcode_table.json
(R65). Operands have the widths of R61, R62 and R64; a float operand is its binary32 word. -/

namespace Sys2Proof

/-- An operation with its operands (R65). `a` is the bus address (header field `A`), `p` the PID
context index (`P`); a minor field of `M` stands under its own name; operand words follow in the
order `W0, W1, …`. -/
inductive Instr where
  /-- `F2X`: bit width `n`; value, lower and upper bound (R102). -/
  | f2x (n : BitVec 8) (v lo hi : F)
  /-- `X2F`: bit width `n`; code (low `n` bits used), lower and upper bound (R104). -/
  | x2f (n : BitVec 8) (code : Word) (lo hi : F)
  /-- `APP16`: the `i16` in `W0[15:0]` (R106). -/
  | app16 (v : BitVec 16)
  /-- `APP32`: an `i32` (R107). -/
  | app32 (v : BitVec 32)
  /-- `FBRST` (R108). -/
  | fbrst
  /-- `FBRD` (R109). -/
  | fbrd
  /-- `SVDUTY` (R123). -/
  | svduty (a : BitVec 8) (duty : F)
  /-- `SVCUR` (R124). -/
  | svcur (a : BitVec 8) (current : F)
  /-- `SVBRK` (R125). -/
  | svbrk (a : BitVec 8) (current : F)
  /-- `SVRPM` (R126). -/
  | svrpm (a : BitVec 8) (velocity : F)
  /-- `SVPOS` (R127). -/
  | svpos (a : BitVec 8) (position : F)
  /-- `SVORG`: origin mode 0 temporary, 1 permanent, 2 factory-reset; 3 reserved (R128). -/
  | svorg (a : BitVec 8) (mode : BitVec 2)
  /-- `SVPSA`: position, `i16` velocity in `W1[15:0]`, `i32` acceleration (R129). -/
  | svpsa (a : BitVec 8) (position : F) (spd : BitVec 16) (acc : BitVec 32)
  /-- `MITENT` (R142). -/
  | mitent (a : BitVec 8)
  /-- `MITORG` (R143). -/
  | mitorg (a : BitVec 8)
  /-- `MITEXT` (R144). -/
  | mitext (a : BitVec 8)
  /-- `MITCMD`: model 0 to 7 (7 decodes and raises `CFG_MODEL`, R66); position, velocity,
  stiffness, damping, torque (R146). -/
  | mitcmd (a : BitVec 8) (model : BitVec 3) (p v kp kd t : F)
  /-- `DECODE`: wire format 0 standard (MIT), 1 extended (servo); frame bytes 0 to 3 and 4 to 7,
  the lower-numbered byte in the higher bits (R152, R62). -/
  | decode (a : BitVec 8) (fmt : BitVec 1) (w0 w1 : Word)
  /-- `TLMRD`: field 0 pos, 1 vel, 2 cur, 3 temp, 4 err; 5 to 7 reserved (R157). -/
  | tlmrd (a : BitVec 8) (field : BitVec 3)
  /-- `TLMSNAP` (R158). -/
  | tlmsnap (a : BitVec 8)
  /-- `DEVREG`: model 0 to 7 (7 decodes and raises `CFG_MODEL`, R66) (R172). -/
  | devreg (a : BitVec 8) (model : BitVec 3)
  /-- `DEVUNREG`: the handle's address and conflict bit (R173, R76). -/
  | devunreg (a : BitVec 8) (conflict : BitVec 1)
  /-- `DEVFIND` (R174). -/
  | devfind (a : BitVec 8)
  /-- `PIDINIT`: variant 0 positional, 1 incremental; limits, gates, gains (R183). -/
  | pidinit (p : BitVec 8) (variant : BitVec 1) (maxOutput integralLimit deadBand maxErr kp ki kd : F)
  /-- `PIDGAIN` (R184). -/
  | pidgain (p : BitVec 8) (kp ki kd : F)
  /-- `PIDCLR` (R185). -/
  | pidclr (p : BitVec 8)
  /-- `PIDCALC` (R186). -/
  | pidcalc (p : BitVec 8) (target measured : F)
deriving DecidableEq, Repr

end Sys2Proof
end

