-- ==== Sys2Proof/WellFormed.lean ====
section
/-! DEFINITION. Which operations a legal command word can stand for (R66). -/

namespace Sys2Proof

/-- The operand checks that a header word must pass beyond its fixed fields (R66, R204 (d), (e)):
`SVORG` mode 3 and `TLMRD` fields 5 to 7 are reserved. Model 7 of `MITCMD` and `DEVREG` is a legal
command (it raises `CFG_MODEL`), and so is any PID index: that it is below `N_PID` depends on the
instance and is checked when the operation is performed. -/
def WellFormed : Instr → Bool
  | .svorg _ mode => mode != 3
  | .tlmrd _ field => decide (field.toNat ≤ 4)
  | .f2x _ _ _ _ => true
  | .x2f _ _ _ _ => true
  | .app16 _ => true
  | .app32 _ => true
  | .fbrst => true
  | .fbrd => true
  | .svduty _ _ => true
  | .svcur _ _ => true
  | .svbrk _ _ => true
  | .svrpm _ _ => true
  | .svpos _ _ => true
  | .svpsa _ _ _ _ => true
  | .mitent _ => true
  | .mitorg _ => true
  | .mitext _ => true
  | .mitcmd _ _ _ _ _ _ _ => true
  | .decode _ _ _ _ => true
  | .tlmsnap _ => true
  | .devreg _ _ => true
  | .devunreg _ _ => true
  | .devfind _ => true
  | .pidinit _ _ _ _ _ _ _ _ _ => true
  | .pidgain _ _ _ _ => true
  | .pidclr _ => true
  | .pidcalc _ _ _ => true

end Sys2Proof
end

