-- ==== Sys2Proof/Decode.lean ====
section
/-! DEFINITION. Command words: header fields, formats, the opcode map, the decoder and the encoder
(30_encoding.md sections 1, 2 and 6). -/

namespace Sys2Proof

/-! ## Header fields (R61) -/

/-- `OPC`, bits 31:24 of the header word. -/
def hOpc (h : Word) : BitVec 8 := h.extractLsb' 24 8

/-- `M`, bits 23:16. -/
def hM (h : Word) : BitVec 8 := h.extractLsb' 16 8

/-- `P`, bits 15:8. -/
def hP (h : Word) : BitVec 8 := h.extractLsb' 8 8

/-- `A`, bits 7:0. -/
def hA (h : Word) : BitVec 8 := h.extractLsb' 0 8

/-- The header word with these four fields (R61). -/
def headerWord (opc m p a : BitVec 8) : Word := opc ++ m ++ p ++ a

/-! ## Formats and opcodes (R64, R65) -/

/-- The thirteen command formats of R64. -/
inductive Format where
  | n | na | nam | np | w1 | w1a | w2am | w2p | w3m | w3a | w3p | w5am | w7pm
deriving DecidableEq, Repr

/-- How many operand words follow the header (R64). -/
def Format.words : Format → Nat
  | .n => 0 | .na => 0 | .nam => 0 | .np => 0
  | .w1 => 1 | .w1a => 1
  | .w2am => 2 | .w2p => 2
  | .w3m => 3 | .w3a => 3 | .w3p => 3
  | .w5am => 5
  | .w7pm => 7

/-- Whether the format uses the header field `A` (R64). -/
def Format.usesA : Format → Bool
  | .na => true | .nam => true | .w1a => true | .w2am => true | .w3a => true | .w5am => true
  | .n => false | .np => false | .w1 => false | .w2p => false | .w3m => false | .w3p => false
  | .w7pm => false

/-- Whether the format uses the header field `P` (R64). -/
def Format.usesP : Format → Bool
  | .np => true | .w2p => true | .w3p => true | .w7pm => true
  | .n => false | .na => false | .nam => false | .w1 => false | .w1a => false | .w2am => false
  | .w3m => false | .w3a => false | .w5am => false

/-- The 27 defined opcodes (R65). -/
inductive Opcode where
  | f2x
  | x2f
  | app16
  | app32
  | fbrst
  | fbrd
  | svduty
  | svcur
  | svbrk
  | svrpm
  | svpos
  | svorg
  | svpsa
  | mitent
  | mitorg
  | mitext
  | mitcmd
  | decode
  | tlmrd
  | tlmsnap
  | devreg
  | devunreg
  | devfind
  | pidinit
  | pidgain
  | pidclr
  | pidcalc
deriving DecidableEq, Repr

/-- The `OPC` value of an opcode (R65). -/
def Opcode.code : Opcode → BitVec 8
  | .f2x => 0x10
  | .x2f => 0x11
  | .app16 => 0x12
  | .app32 => 0x13
  | .fbrst => 0x14
  | .fbrd => 0x15
  | .svduty => 0x20
  | .svcur => 0x21
  | .svbrk => 0x22
  | .svrpm => 0x23
  | .svpos => 0x24
  | .svorg => 0x25
  | .svpsa => 0x26
  | .mitent => 0x30
  | .mitorg => 0x31
  | .mitext => 0x32
  | .mitcmd => 0x33
  | .decode => 0x40
  | .tlmrd => 0x41
  | .tlmsnap => 0x42
  | .devreg => 0x50
  | .devunreg => 0x51
  | .devfind => 0x52
  | .pidinit => 0x60
  | .pidgain => 0x61
  | .pidclr => 0x62
  | .pidcalc => 0x63

/-- The opcode of an `OPC` value; every value not in R65 is reserved (R66). -/
def Opcode.ofCode (c : BitVec 8) : Option Opcode :=
  match c.toNat with
  | 0x10 => some .f2x
  | 0x11 => some .x2f
  | 0x12 => some .app16
  | 0x13 => some .app32
  | 0x14 => some .fbrst
  | 0x15 => some .fbrd
  | 0x20 => some .svduty
  | 0x21 => some .svcur
  | 0x22 => some .svbrk
  | 0x23 => some .svrpm
  | 0x24 => some .svpos
  | 0x25 => some .svorg
  | 0x26 => some .svpsa
  | 0x30 => some .mitent
  | 0x31 => some .mitorg
  | 0x32 => some .mitext
  | 0x33 => some .mitcmd
  | 0x40 => some .decode
  | 0x41 => some .tlmrd
  | 0x42 => some .tlmsnap
  | 0x50 => some .devreg
  | 0x51 => some .devunreg
  | 0x52 => some .devfind
  | 0x60 => some .pidinit
  | 0x61 => some .pidgain
  | 0x62 => some .pidclr
  | 0x63 => some .pidcalc
  | _ => none

/-- The format of an opcode (R65). -/
def Opcode.format : Opcode → Format
  | .f2x => .w3m
  | .x2f => .w3m
  | .app16 => .w1
  | .app32 => .w1
  | .fbrst => .n
  | .fbrd => .n
  | .svduty => .w1a
  | .svcur => .w1a
  | .svbrk => .w1a
  | .svrpm => .w1a
  | .svpos => .w1a
  | .svorg => .nam
  | .svpsa => .w3a
  | .mitent => .na
  | .mitorg => .na
  | .mitext => .na
  | .mitcmd => .w5am
  | .decode => .w2am
  | .tlmrd => .nam
  | .tlmsnap => .na
  | .devreg => .nam
  | .devunreg => .nam
  | .devfind => .na
  | .pidinit => .w7pm
  | .pidgain => .w3p
  | .pidclr => .np
  | .pidcalc => .w2p

/-- How many low bits of `M` the opcode uses (R64); the bits above must be zero (R61). -/
def Opcode.mBits : Opcode → Nat
  | .f2x => 8
  | .x2f => 8
  | .app16 => 0
  | .app32 => 0
  | .fbrst => 0
  | .fbrd => 0
  | .svduty => 0
  | .svcur => 0
  | .svbrk => 0
  | .svrpm => 0
  | .svpos => 0
  | .svorg => 2
  | .svpsa => 0
  | .mitent => 0
  | .mitorg => 0
  | .mitext => 0
  | .mitcmd => 3
  | .decode => 1
  | .tlmrd => 3
  | .tlmsnap => 0
  | .devreg => 3
  | .devunreg => 1
  | .devfind => 0
  | .pidinit => 1
  | .pidgain => 0
  | .pidclr => 0
  | .pidcalc => 0

/-- A header whose unused fields and unused `M` bits are zero (R61). -/
def headerOk (o : Opcode) (h : Word) : Bool :=
  (o.format.usesA || hA h == 0) && (o.format.usesP || hP h == 0) && (hM h >>> o.mBits == 0)

/-! ## The decoder -/

/-- Why a command is not an operation. All but `incomplete` raise `ILLEGAL_COMMAND` (R66). -/
inductive Reject where
  /-- `OPC` is a reserved value (R204 (a)). -/
  | reservedOpcode
  /-- An unused header field or a bit of `M` above the field's width is not zero (R204 (c)). -/
  | fieldNotZero
  /-- `SVORG` mode 3 or `TLMRD` field 5 to 7 (R204 (d), (e)). -/
  | reservedMinor
  /-- The number of operand words is not the opcode's: no such command is ever presented to the
  decoder, because `nextCommand` waits for all of a command's words (R60). -/
  | incomplete
deriving DecidableEq, Repr

/-- The number of words of the command that the header `h` begins: `1 + k` with `k` fixed by the
opcode, and the header alone when the opcode is reserved (R60, R62). -/
def commandLength (h : Word) : Nat :=
  match Opcode.ofCode (hOpc h) with
  | some o => 1 + o.format.words
  | none => 1

/-- The words of the first command of a port's word stream and the words after it; `none` while the
stream does not hold all of the command's words (R60). -/
def nextCommand (ws : List Word) : Option (List Word × List Word) :=
  match ws with
  | [] => none
  | h :: _ =>
    if ws.length < commandLength h then none
    else some (ws.take (commandLength h), ws.drop (commandLength h))

/-- The instruction of a command that must have no operand word. -/
def take0 (ops : List Word) (i : Instr) : Except Reject Instr :=
  match ops with
  | [] => .ok i
  | _ => .error .incomplete

/-- The instruction of a command with one operand word. -/
def take1 (ops : List Word) (f : Word → Instr) : Except Reject Instr :=
  match ops with
  | [w0] => .ok (f w0)
  | _ => .error .incomplete

/-- The instruction of a command with two operand words. -/
def take2 (ops : List Word) (f : Word → Word → Instr) : Except Reject Instr :=
  match ops with
  | [w0, w1] => .ok (f w0 w1)
  | _ => .error .incomplete

/-- The instruction of a command with three operand words. -/
def take3 (ops : List Word) (f : Word → Word → Word → Instr) : Except Reject Instr :=
  match ops with
  | [w0, w1, w2] => .ok (f w0 w1 w2)
  | _ => .error .incomplete

/-- The instruction of a command with five operand words. -/
def take5 (ops : List Word) (f : Word → Word → Word → Word → Word → Instr) :
    Except Reject Instr :=
  match ops with
  | [w0, w1, w2, w3, w4] => .ok (f w0 w1 w2 w3 w4)
  | _ => .error .incomplete

/-- The instruction of a command with seven operand words. -/
def take7 (ops : List Word) (f : Word → Word → Word → Word → Word → Word → Word → Instr) :
    Except Reject Instr :=
  match ops with
  | [w0, w1, w2, w3, w4, w5, w6] => .ok (f w0 w1 w2 w3 w4 w5 w6)
  | _ => .error .incomplete

/-- The low half of an operand word: an `i16` operand; the high half is ignored (R62, R77 (d)). -/
def lowHalf (w : Word) : BitVec 16 := w.extractLsb' 0 16

/-- The low `k` bits of the minor field `M` (R77 (b)). -/
def minor (k : Nat) (h : Word) : BitVec k := (hM h).setWidth k

/-- The operation of a header with legal fields and its operand words (R65, R77). -/
def assemble (o : Opcode) (h : Word) (ops : List Word) : Except Reject Instr :=
  match o with
  | .f2x => take3 ops (.f2x (hM h))
  | .x2f => take3 ops (.x2f (hM h))
  | .app16 => take1 ops (fun w0 => .app16 (lowHalf w0))
  | .app32 => take1 ops .app32
  | .fbrst => take0 ops .fbrst
  | .fbrd => take0 ops .fbrd
  | .svduty => take1 ops (.svduty (hA h))
  | .svcur => take1 ops (.svcur (hA h))
  | .svbrk => take1 ops (.svbrk (hA h))
  | .svrpm => take1 ops (.svrpm (hA h))
  | .svpos => take1 ops (.svpos (hA h))
  | .svorg => take0 ops (.svorg (hA h) (minor 2 h))
  | .svpsa => take3 ops (fun w0 w1 w2 => .svpsa (hA h) w0 (lowHalf w1) w2)
  | .mitent => take0 ops (.mitent (hA h))
  | .mitorg => take0 ops (.mitorg (hA h))
  | .mitext => take0 ops (.mitext (hA h))
  | .mitcmd => take5 ops (.mitcmd (hA h) (minor 3 h))
  | .decode => take2 ops (.decode (hA h) (minor 1 h))
  | .tlmrd => take0 ops (.tlmrd (hA h) (minor 3 h))
  | .tlmsnap => take0 ops (.tlmsnap (hA h))
  | .devreg => take0 ops (.devreg (hA h) (minor 3 h))
  | .devunreg => take0 ops (.devunreg (hA h) (minor 1 h))
  | .devfind => take0 ops (.devfind (hA h))
  | .pidinit => take7 ops (.pidinit (hP h) (minor 1 h))
  | .pidgain => take3 ops (.pidgain (hP h))
  | .pidclr => take0 ops (.pidclr (hP h))
  | .pidcalc => take2 ops (.pidcalc (hP h))

/-- An operation that `WellFormed` admits; a reserved minor value is rejected (R66). -/
def checkMinor (r : Except Reject Instr) : Except Reject Instr :=
  match r with
  | .error e => .error e
  | .ok i => if WellFormed i then .ok i else .error .reservedMinor

/-- The operation that one command, header first, stands for, or why it is none (R60 to R66). The
checks read the header word alone (R204), but for the number of operand words. -/
def decode (ws : List Word) : Except Reject Instr :=
  match ws with
  | [] => .error .incomplete
  | h :: ops =>
    match Opcode.ofCode (hOpc h) with
    | none => .error .reservedOpcode
    | some o =>
      if headerOk o h then checkMinor (assemble o h ops) else .error .fieldNotZero

/-- The first eight words, from the least significant up, of a number that holds a command: bit 0
is the least significant bit of the header word (the numbering of spec/opcode_table.json). Eight
words are the longest command, `PIDINIT`. -/
def tableWords (nbits w : Nat) : List Word :=
  let v := w % 2 ^ nbits
  [BitVec.ofNat 32 v, BitVec.ofNat 32 (v / 2 ^ 32), BitVec.ofNat 32 (v / 2 ^ 64),
   BitVec.ofNat 32 (v / 2 ^ 96), BitVec.ofNat 32 (v / 2 ^ 128), BitVec.ofNat 32 (v / 2 ^ 160),
   BitVec.ofNat 32 (v / 2 ^ 192), BitVec.ofNat 32 (v / 2 ^ 224)]

/-- The operation the decoder reads from a command given as a number. -/
def decodeTableWord (nbits w : Nat) : Option Instr :=
  match nextCommand (tableWords nbits w) with
  | none => none
  | some (cmd, _) =>
    match decode cmd with
    | .ok i => some i
    | .error _ => none

/-! ## The encoder (R61, R62, R64, R65) -/

/-- The opcode of an operation (R65). -/
def Instr.opcode : Instr → Opcode
  | .f2x _ _ _ _ => .f2x
  | .x2f _ _ _ _ => .x2f
  | .app16 _ => .app16
  | .app32 _ => .app32
  | .fbrst => .fbrst
  | .fbrd => .fbrd
  | .svduty _ _ => .svduty
  | .svcur _ _ => .svcur
  | .svbrk _ _ => .svbrk
  | .svrpm _ _ => .svrpm
  | .svpos _ _ => .svpos
  | .svorg _ _ => .svorg
  | .svpsa _ _ _ _ => .svpsa
  | .mitent _ => .mitent
  | .mitorg _ => .mitorg
  | .mitext _ => .mitext
  | .mitcmd _ _ _ _ _ _ _ => .mitcmd
  | .decode _ _ _ _ => .decode
  | .tlmrd _ _ => .tlmrd
  | .tlmsnap _ => .tlmsnap
  | .devreg _ _ => .devreg
  | .devunreg _ _ => .devunreg
  | .devfind _ => .devfind
  | .pidinit _ _ _ _ _ _ _ _ _ => .pidinit
  | .pidgain _ _ _ _ => .pidgain
  | .pidclr _ => .pidclr
  | .pidcalc _ _ _ => .pidcalc

/-- The header word of an operation with the given fields; unused fields are 0. -/
def encodeHeader (o : Opcode) (m p a : BitVec 8) : Word := headerWord o.code m p a

/-- The words of an operation, header first. -/
def encode : Instr → List Word
  | .f2x n v lo hi => [encodeHeader .f2x n 0 0, v, lo, hi]
  | .x2f n code lo hi => [encodeHeader .x2f n 0 0, code, lo, hi]
  | .app16 v => [encodeHeader .app16 0 0 0, v.setWidth 32]
  | .app32 v => [encodeHeader .app32 0 0 0, v]
  | .fbrst => [encodeHeader .fbrst 0 0 0]
  | .fbrd => [encodeHeader .fbrd 0 0 0]
  | .svduty a duty => [encodeHeader .svduty 0 0 a, duty]
  | .svcur a current => [encodeHeader .svcur 0 0 a, current]
  | .svbrk a current => [encodeHeader .svbrk 0 0 a, current]
  | .svrpm a velocity => [encodeHeader .svrpm 0 0 a, velocity]
  | .svpos a position => [encodeHeader .svpos 0 0 a, position]
  | .svorg a mode => [encodeHeader .svorg (mode.setWidth 8) 0 a]
  | .svpsa a position spd acc => [encodeHeader .svpsa 0 0 a, position, spd.setWidth 32, acc]
  | .mitent a => [encodeHeader .mitent 0 0 a]
  | .mitorg a => [encodeHeader .mitorg 0 0 a]
  | .mitext a => [encodeHeader .mitext 0 0 a]
  | .mitcmd a model p v kp kd t =>
    [encodeHeader .mitcmd (model.setWidth 8) 0 a, p, v, kp, kd, t]
  | .decode a fmt w0 w1 => [encodeHeader .decode (fmt.setWidth 8) 0 a, w0, w1]
  | .tlmrd a field => [encodeHeader .tlmrd (field.setWidth 8) 0 a]
  | .tlmsnap a => [encodeHeader .tlmsnap 0 0 a]
  | .devreg a model => [encodeHeader .devreg (model.setWidth 8) 0 a]
  | .devunreg a conflict => [encodeHeader .devunreg (conflict.setWidth 8) 0 a]
  | .devfind a => [encodeHeader .devfind 0 0 a]
  | .pidinit p variant maxOutput integralLimit deadBand maxErr kp ki kd =>
    [encodeHeader .pidinit (variant.setWidth 8) p 0, maxOutput, integralLimit, deadBand, maxErr,
      kp, ki, kd]
  | .pidgain p kp ki kd => [encodeHeader .pidgain 0 p 0, kp, ki, kd]
  | .pidclr p => [encodeHeader .pidclr 0 p 0]
  | .pidcalc p target measured => [encodeHeader .pidcalc 0 p 0, target, measured]

end Sys2Proof
end

