-- ==== Sys2Proof/Config.lean ====
section
/-! DEFINITION. What an instance of AKCORE fixes (R5 to R7) and the model's free values: opaque
constants with no body, so that nothing can be proved of which value they have. -/

namespace Sys2Proof

/-- The four rounded float operations of `NUM` (R7); an argument of `Config.nanWord`. -/
inductive FloatOp where
  | add
  | sub
  | mul
  | div
deriving DecidableEq, Repr

/-- FREE VALUE (log 2): the bit pattern of the NaN that a float operation produces on these
operands. R198 says the result is NaN and the vectors compare "is NaN", not the pattern. Where the
value is no NaN pattern, `Machine.nanResult` replaces it by one, so every pattern is possible. -/
opaque Config.nanWord : FloatOp → F → F → Word

/-- FREE VALUE (log 4): what `trunc` would answer of a NaN or an infinity. R10 says it is never
evaluated there, and in this model it never is. -/
opaque Config.truncNonFinite : F → Int

/-- FREE VALUE (log 4): the `n`-bit code of `f2x(v, lo, hi, n)` where R101 does not define it, because
the range is not legal (R100). Arguments in the order of R101. -/
opaque Config.codeOutsideRange : F → F → F → Nat → Nat

/-- FREE VALUE (log 4): the float of `x2f(code, lo, hi, n)` where R103 does not define it, because the
range is not legal (R100). Arguments in the order of R103. -/
opaque Config.floatOutsideRange : Nat → F → F → Nat → F

/-- FREE VALUE (log 6): the transport's answer to the `Send` that is handed over when this many
frames have been sent, where no answer was placed in `State.answers` (R46: "a free draw for every
`Send`, under no law"; R46 and D40 let a 3 through as well). -/
opaque Config.transportRc : Nat → BitVec 2

/-- One row of `MODEL_LIMITS`: `(Vmax, Tmax)` (R5). -/
structure ModelRow where
  vmax : F
  tmax : F
deriving DecidableEq, Repr, Inhabited

/-- A limit R5 admits: finite and strictly greater than zero. -/
def Config.limitOk (w : F) : Bool :=
  decide (0 < w.toNat) && decide (w.toNat < 0x7F800000)

/-- A row R5 admits. -/
def ModelRow.legal (r : ModelRow) : Bool :=
  Config.limitOk r.vmax && Config.limitOk r.tmax

/-- FREE VALUE (log 3): the rows of `MODEL_LIMITS`, of which the spec gives no number (R5, N1). -/
opaque Config.modelRow : Fin 7 → ModelRow

/-- A row as R5 constrains it: an instance exists for legal tables only, so an illegal row of the
free value stands for the row (1.0, 1.0) instead. -/
def ModelRow.legalize (r : ModelRow) : ModelRow :=
  if r.legal then r else ⟨0x3F800000, 0x3F800000⟩

/-- The table of `State.reset`: seven legal rows about which nothing else is known (R5, log 3). -/
def Config.modelLimits : Vector ModelRow 7 :=
  #v[(Config.modelRow 0).legalize, (Config.modelRow 1).legalize, (Config.modelRow 2).legalize,
     (Config.modelRow 3).legalize, (Config.modelRow 4).legalize, (Config.modelRow 5).legalize,
     (Config.modelRow 6).legalize]

end Sys2Proof
end

