-- ==== Sys2Proof/Machine/Binary32.lean ====
section
/-! DEFINITION. The default `NUM` of R7: IEEE 754 binary32, round to nearest, ties to even, each
operation rounded once (00_scope.md section 5.2; log 1). A finite value is a sign and a natural
number of units of 2^-149, so every operation is exact integer arithmetic followed by one call of
`roundMag`. -/

namespace Sys2Proof.Machine

/-! ## Fields and classes -/

/-- The sign bit. -/
def fsign (x : F) : Bool := x.getLsbD 31

/-- The 31 bits below the sign: they order the magnitudes of non-NaN values. -/
def fmag (x : F) : Nat := x.toNat % 2 ^ 31

/-- The magnitude bits of infinity. -/
def infMag : Nat := 0x7F800000

/-- `isNaN` of R7. -/
def isNaN (x : F) : Bool := decide (infMag < fmag x)

/-- Plus or minus infinity. -/
def isInf (x : F) : Bool := fmag x == infMag

/-- `isFinite` of R7. -/
def isFinite (x : F) : Bool := decide (fmag x < infMag)

/-- Plus or minus zero. -/
def isZero (x : F) : Bool := fmag x == 0

/-- The magnitude of a finite value in units of 2^-149: an encoding with exponent field 0 or 1
counts units directly, and each further exponent doubles. -/
def scaled (x : F) : Nat :=
  let e := fmag x / 2 ^ 23
  let f := fmag x % 2 ^ 23
  if e = 0 then f else (2 ^ 23 + f) * 2 ^ (e - 1)

/-- A finite value as a signed number of units of 2^-149. -/
def signedUnits (x : F) : Int := if fsign x then -(scaled x : Int) else (scaled x : Int)

/-! ## Rounding -/

/-- The magnitude bits of `n / d` units of 2^-149 (`0 < d`), rounded to nearest, ties to even, and
infinity where the rounded value is too large. With 24 significant bits kept, the shift count plus
one is the exponent field, and a quotient that rounds up to 2^24 carries into it. -/
def roundMag (n d : Nat) : Nat :=
  let sh := Nat.log2 (n / d) - 23
  let d' := d * 2 ^ sh
  let q := n / d'
  let r := n % d'
  let up := decide (d' < 2 * r) || (decide (2 * r = d') && decide (q % 2 = 1))
  min (sh * 2 ^ 23 + (if up then q + 1 else q)) infMag

/-- The encoding with this sign and these magnitude bits. -/
def ofSignMag (neg : Bool) (m : Nat) : F := BitVec.ofNat 32 (if neg then 2 ^ 31 + m else m)

/-- The NaN that an operation answers: a NaN whose pattern is free (log 2). -/
def nanResult (op : FloatOp) (a b : F) : F :=
  if isNaN (Config.nanWord op a b) then Config.nanWord op a b else 0x7FC00000

/-! ## Operations -/

/-- Float negation: the sign bit is inverted, exactly (R141). -/
def fneg (x : F) : F := x ^^^ 0x80000000

/-- `fabs` of R7. -/
def fabs (x : F) : F := x &&& 0x7FFFFFFF

/-- `a + b` for operands that are not NaN, with `nan` for the sum of opposite infinities. An exact
sum of zero is +0, but -0 when both operands are -0. -/
def sumOf (nan a b : F) : F :=
  if isInf a then (if isInf b && (fsign a != fsign b) then nan else a)
  else if isInf b then b
  else
    let t := signedUnits a + signedUnits b
    if t = 0 then ofSignMag (fsign a && fsign b) 0
    else ofSignMag (decide (t < 0)) (roundMag t.natAbs 1)

/-- `(+)` of R7. -/
def fadd (a b : F) : F :=
  if isNaN a || isNaN b then nanResult .add a b else sumOf (nanResult .add a b) a b

/-- `(-)` of R7. -/
def fsub (a b : F) : F :=
  if isNaN a || isNaN b then nanResult .sub a b else sumOf (nanResult .sub a b) a (fneg b)

/-- `(*)` of R7. -/
def fmul (a b : F) : F :=
  let neg := fsign a != fsign b
  if isNaN a || isNaN b then nanResult .mul a b
  else if (isInf a && isZero b) || (isZero a && isInf b) then nanResult .mul a b
  else if isInf a || isInf b then ofSignMag neg infMag
  else ofSignMag neg (roundMag (scaled a * scaled b) (2 ^ 149))

/-- `(/)` of R7. -/
def fdiv (a b : F) : F :=
  let neg := fsign a != fsign b
  if isNaN a || isNaN b then nanResult .div a b
  else if (isInf a && isInf b) || (isZero a && isZero b) then nanResult .div a b
  else if isInf a || isZero b then ofSignMag neg infMag
  else if isInf b then ofSignMag neg 0
  else ofSignMag neg (roundMag (scaled a * 2 ^ 149) (scaled b))

/-! ## Comparisons (00_scope.md section 5.2): false when an operand is NaN, and +0 equals -0 -/

/-- The place of a non-NaN value in the order of values. -/
def orderKey (x : F) : Int := if fsign x then -(fmag x : Int) else (fmag x : Int)

/-- `a < b`. -/
def flt (a b : F) : Bool := !isNaN a && !isNaN b && decide (orderKey a < orderKey b)

/-- `a > b`. -/
def fgt (a b : F) : Bool := flt b a

/-- `a >= b`. -/
def fge (a b : F) : Bool := !isNaN a && !isNaN b && decide (orderKey b ≤ orderKey a)

/-- `a == b`. -/
def feq (a b : F) : Bool := !isNaN a && !isNaN b && decide (orderKey a = orderKey b)

/-- `a != b`: true when an operand is NaN. -/
def fne (a b : F) : Bool := !feq a b

/-! ## Conversions and constants -/

/-- `trunc` of R10: the fraction of a finite value is discarded, toward zero. R10 gives it no meaning
at NaN and the infinities, where it is a free value (log 4). -/
def trunc (x : F) : Int :=
  let n : Nat := scaled x / 2 ^ 149
  if isFinite x then (if fsign x then -(n : Int) else (n : Int)) else Config.truncNonFinite x

/-- `ofInt` of R7: the integer rounded to a float, exact for magnitudes below 2^24. -/
def ofInt (k : Int) : F := ofSignMag (decide (k < 0)) (roundMag (k.natAbs * 2 ^ 149) 1)

/-- The float nearest 0.1 (R7). -/
def c0_1 : F := 0x3DCCCCCD
/-- The float nearest 0.01 (R7). -/
def c0_01 : F := 0x3C23D70A
/-- 10.0 (R7). -/
def c10 : F := 0x41200000
/-- 100000.0 (R7). -/
def c1e5 : F := 0x47C35000
/-- 10000.0 (R7). -/
def c1e4 : F := 0x461C4000
/-- 1000.0 (R7). -/
def c1e3 : F := 0x447A0000
/-- 1.0, the duty limit (R123). -/
def c1 : F := 0x3F800000
/-- 2.0 (R192). -/
def c2 : F := 0x40000000
/-- 5.0, the damping limit (R141). -/
def c5 : F := 0x40A00000
/-- 12.5, the position limit of MIT mode (R141). -/
def c12_5 : F := 0x41480000
/-- 500.0, the stiffness limit (R141). -/
def c500 : F := 0x43FA0000
/-- 36000.0, the servo position limit (R127). -/
def c36000 : F := 0x470CA000
/-- 60000.0, the current limit (R124). -/
def c60000 : F := 0x476A6000
/-- 100000.0, the velocity limit (R126). -/
def c100000 : F := 0x47C35000

end Sys2Proof.Machine
end

