-- ==== Sys2Proof/Machine/Flags.lean ====
section
/-! DEFINITION. AKCORE has no condition codes (R24). What stands here is every yes-or-no test that an
operation's course depends on, and the flag bits of results: legality of ranges, widths and limits
(which decide what `FAULT` becomes), the two PID gates, the conflict and found bits. -/

namespace Sys2Proof.Machine

/-- `rangeOk(lo, hi)` (R100). -/
def rangeOk (lo hi : F) : Bool :=
  isFinite lo && isFinite hi && flt lo hi && isFinite (fsub hi lo) && flt 0 (fsub hi lo)

/-- `widthOk(n)` (R100). -/
def widthOk (n : BitVec 8) : Bool := decide (1 ≤ n.toNat) && decide (n.toNat ≤ 16)

/-- A clamp limit that `PIDINIT` accepts: not NaN and `>= 0`, `-0.0` counting as 0 (R182). -/
def pidLimitOk (x : F) : Bool := !isNaN x && fge x 0

/-- The max-error gate (R188): strict, and off when `maxErr` is a zero. -/
def maxErrGate (maxErr e : F) : Bool := fne maxErr 0 && fgt (fabs e) maxErr

/-- The dead-band gate (R189): strict, and off when `deadBand` is a zero. -/
def deadBandGate (deadBand e : F) : Bool := fne deadBand 0 && flt (fabs e) deadBand

/-- A handle in a result word: bit 8 the conflict flag, bits 7:0 the address (R76, R171). -/
def handleWord (conflict : Bool) (a : BitVec 8) : Word :=
  (if conflict then 0x100 else 0) ||| a.setWidth 32

/-- `TLMSNAP`'s `R4` for a registered device: bit 8 found, bits 7:0 the error code (R158). -/
def foundErr (err : BitVec 8) : Word := 0x100 ||| err.setWidth 32

end Sys2Proof.Machine
end

