-- ==== Sys2Proof/Machine/State.lean ====
section
/-! DEFINITION. The state of an AKCORE instance (10_state.md), the inputs and outputs around it,
the reasons a step can stop, and the state after reset (R38). Plain data throughout. -/

namespace Sys2Proof.Machine

/-! ## Architectural state -/

/-- The frame buffer as (index, byte) cells in canonical form: indices strictly rising, no byte 0
listed. An index not listed reads 0, its reset value (R22, R38; log 13). -/
abbrev Memory := List Host.Cell

/-- One entry of the device table `DEV` (R27). The entry's index is the bus address (R26). While
`valid` is false the other fields keep their last values and no operation reads them (R27). -/
structure Device where
  /-- A record with this address is registered. -/
  valid : Bool
  /-- Row of `MODEL_LIMITS`, 0 to 6. -/
  model : Fin 7
  pos : F
  vel : F
  /-- The last decoded "current-or-torque". -/
  cur : F
  /-- `i16`: -128 to 255. -/
  temp : BitVec 16
  err : BitVec 8
deriving DecidableEq, Repr

/-- An entry of `DEV` after reset (R38). -/
def Device.reset : Device := ⟨false, 0, 0, 0, 0, 0, 0⟩

/-- The five snapshot fields that one telemetry frame decodes to (R151). -/
structure Snapshot where
  pos : F
  vel : F
  cur : F
  temp : BitVec 16
  err : BitVec 8
deriving DecidableEq, Repr

/-- The PID recurrence (R29): positional 0, incremental 1 (R30). -/
inductive Variant where
  | positional
  | incremental
deriving DecidableEq, Repr

/-- The three slots `LLAST`, `LAST`, `NOW` of a PID history (R30, R180). -/
structure Hist where
  llast : F
  last : F
  now : F
deriving DecidableEq, Repr

/-- A cleared history. -/
def Hist.zero : Hist := ⟨0, 0, 0⟩

/-- One PID context (R30), in the order of the rule's table. -/
structure PidCtx where
  inited : Bool
  variant : Variant
  maxOut : F
  intLim : F
  deadBand : F
  maxErr : F
  kp : F
  ki : F
  kd : F
  set : Hist
  get : Hist
  err : Hist
  pout : F
  iout : F
  dout : F
  posOut : F
  lastPosOut : F
  deltaU : F
  deltaOut : F
  deltaLastout : F
deriving DecidableEq, Repr

/-- A PID context after reset (R38). -/
def PidCtx.reset : PidCtx :=
  { inited := false, variant := .positional, maxOut := 0, intLim := 0, deadBand := 0, maxErr := 0,
    kp := 0, ki := 0, kd := 0, set := Hist.zero, get := Hist.zero, err := Hist.zero, pout := 0,
    iout := 0, dout := 0, posOut := 0, lastPosOut := 0, deltaU := 0, deltaOut := 0,
    deltaLastout := 0 }

/-! ## Ports -/

/-- The two command ports (R60): `fg` of the foreground agent, `rx` of the telemetry source. -/
inductive Port where
  | fg
  | rx
deriving DecidableEq, Repr

/-- What takes effect next, as the environment chooses (log 7): the command at the head of a port's
words (R49), or the reset input (R220). -/
inductive Turn where
  | command (p : Port)
  | reset
deriving DecidableEq, Repr

/-- One frame handed to the transport (R68): identifier, wire-format selector (0 standard, 1
extended), length 0 to 8 and eight data bytes, zero from index `len` on. -/
structure Frame where
  id : BitVec 29
  ext : BitVec 1
  len : BitVec 4
  data : Vector Byte 8
deriving DecidableEq, Repr

/-- One response (R63): status, transport return code and five result words; a field an operation
does not define is 0. -/
structure Response where
  st : BitVec 8 := 0
  rc : BitVec 2 := 0
  r0 : Word := 0
  r1 : Word := 0
  r2 : Word := 0
  r3 : Word := 0
  r4 : Word := 0
deriving DecidableEq, Repr

/-! ## Causes and stops -/

/-- The causes of AKCORE's own faults (R202). Raising one is a next state of the model
(`Machine.raise`), not a stop (log 12). -/
inductive Cause where
  | illegalCommand
  | cfgRange
  | cfgModel
  | cfgWidth
  | cfgPid
  | pidUninit
deriving DecidableEq, Repr

/-- The model's own stops with a fault. AKCORE has none: its faults are next states (log 12). -/
inductive Fault where
  /-- A write to a byte that does not exist: `FbWrite` at a cursor where R41 does not define it.
  Raised by `Machine.fbWrite` alone, and never in a run: `APP16` and `APP32` refuse first (R44).
  Safe: the model stops. -/
  | noSuchByte (index : Nat)
deriving DecidableEq, Repr

/-- Why a step has no successor state: the three `refuse` reasons of R203, which the spec puts
outside the domain of the transition relation, and the arm of an instruction not modelled. -/
inductive Refusal where
  /-- No arm of `exec` answers with it: every operation is modelled. Safe: the model stops. -/
  | notModelled (mnemonic : String)
  /-- `FB_OVERRUN`: `APP16` or `APP32` past the eighth byte (R44, R106, R107, U1). Safe. -/
  | fbOverrun
  /-- `NAN_OPERAND`: NaN where a float must become an integer: `F2X`, `MITCMD`, the servo
  operations (R102, R122, R146, U2). Safe. -/
  | nanOperand
  /-- `ACC_BELOW_INT16`: `SVPSA` with an acceleration below -32768 (R129, U3). Safe. -/
  | accBelowInt16
deriving DecidableEq, Repr

/-! ## The state -/

/-- An AKCORE instance with its parameters, inputs and observation. The first five fields are the
spec's state; the others are the model's own and no operation of the block depends on them but as
their comments say. -/
structure State where
  /-- `FAULT` (R23): the cause code of the first fault since reset, 0 when none. -/
  fault : BitVec 8
  /-- `FB[0..7]` (R22). -/
  fb : Memory
  /-- `CUR` (R22). -/
  cur : BitVec 4
  /-- `DEV[0..255]` (R26). -/
  dev : Vector Device 256
  /-- `PID[0..N_PID-1]` (R30). The parameter `N_PID` (R6) is the list's length (log 5). -/
  pid : List PidCtx
  /-- The parameter `MODEL_LIMITS` (R5); no step changes it (log 3). -/
  limits : Vector ModelRow 7
  /-- The port that the command being performed arrived on (R60). -/
  port : Port
  /-- Words waiting on the foreground port, oldest first (R60). -/
  fgIn : List Word
  /-- Words waiting on the receive port, oldest first (R60). -/
  rxIn : List Word
  /-- The environment's order of events still to come (R49, R220; log 7). -/
  turns : List Turn
  /-- The transport's answers still to come (R46; log 6). -/
  answers : List (BitVec 2)
  /-- The frames handed to the transport, newest first (R47 (b); log 9). -/
  frames : List Frame
  /-- The responses with their ports, newest first (R47 (a); log 9). -/
  responses : List (Port × Response)
deriving DecidableEq, Repr

/-- The machine right after reset (R38, R220): no fault, an empty frame buffer, no device, one PID
context (the default `N_PID` of R6), nothing waiting on a port and nothing observed yet. -/
def State.reset : State :=
  { fault := 0
    fb := []
    cur := 0
    dev := Vector.replicate 256 Device.reset
    pid := [PidCtx.reset]
    limits := Config.modelLimits
    port := .fg
    fgIn := []
    rxIn := []
    turns := []
    answers := []
    frames := []
    responses := [] }

end Sys2Proof.Machine
end

