-- ==== Sys2Proof/Machine/Operands.lean ====
section
/-! DEFINITION. How operands and payloads are put together: clamps, the fixed-point maps, the
serialisers, the bytes and bit-fields of telemetry frames, packing. -/

namespace Sys2Proof.Machine

/-! ## Clamps (R11) -/

/-- `clampR(v, lo, hi)`; a NaN passes through. -/
def clampR (v lo hi : F) : F := if flt v lo then lo else if fgt v hi then hi else v

/-- `clampS(x, L)`; a NaN passes through. -/
def clampS (x limit : F) : F :=
  if fgt x limit then limit else if flt x (fneg limit) then fneg limit else x

/-! ## Fixed-point codes (R101, R103) -/

/-- `M = 2^n - 1`, the largest code of `n` bits. -/
def maxCode (n : Nat) : Nat := 2 ^ n - 1

/-- `f2x(v, lo, hi, n)` of R101: divide by the span, then multiply by `M`, then truncate. On a range
that is not legal R101 defines nothing, and the code is a free value (log 4). -/
def f2x (v lo hi : F) (n : Nat) : Nat :=
  let span := fsub hi lo
  let c := clampR v lo hi
  let q := fmul (fdiv (fsub c lo) span) (ofInt (maxCode n))
  if rangeOk lo hi then (trunc q).toNat else Config.codeOutsideRange v lo hi n % 2 ^ n

/-- `x2f(code, lo, hi, n)` of R103; a free value on a range that is not legal (log 4). -/
def x2f (code : Nat) (lo hi : F) (n : Nat) : F :=
  let span := fsub hi lo
  if rangeOk lo hi then fadd lo (fmul (fdiv (ofInt code) (ofInt (maxCode n))) span)
  else Config.floatOutsideRange code lo hi n

/-- The low `n` bits of a code word (R104). -/
def codeBits (w : Word) (n : Nat) : Nat := w.toNat % 2 ^ n

/-! ## Serialisers (R12) -/

/-- `ser16`: two bytes, the most significant first. -/
def ser16 (v : BitVec 16) : List Byte := [v.extractLsb' 8 8, v.extractLsb' 0 8]

/-- `ser32`: four bytes, the most significant first. -/
def ser32 (v : BitVec 32) : List Byte :=
  [v.extractLsb' 24 8, v.extractLsb' 16 8, v.extractLsb' 8 8, v.extractLsb' 0 8]

/-- Four bytes as a result word, the first in bits 31:24 (R62, R63). -/
def packWord (b0 b1 b2 b3 : Byte) : Word := b0 ++ b1 ++ b2 ++ b3

/-! ## Servo payload integers (R71, R122) -/

/-- A physical parameter clamped to `±limit`, scaled and truncated to an `i32`. -/
def servoScaled (x limit scale : F) : BitVec 32 :=
  BitVec.ofInt 32 (trunc (fmul (clampR x (fneg limit) limit) scale))

/-- A physical parameter clamped to `±limit` and truncated, "velocity unscaled". -/
def servoUnscaled (x limit : F) : BitVec 32 :=
  BitVec.ofInt 32 (trunc (clampR x (fneg limit) limit))

/-- `min(acc, 32767)` as an `i16`, for `acc >= -32768` (R129). -/
def clampAcc (acc : BitVec 32) : BitVec 16 := BitVec.ofInt 16 (min acc.toInt 32767)

/-- The servo identifier `address | (kind << 8)` (R70, R120). -/
def servoId (a : BitVec 8) (kind : Nat) : BitVec 29 :=
  a.setWidth 29 ||| (BitVec.ofNat 29 kind <<< 8)

/-! ## MIT frames (R72, R145) -/

/-- `mitPack`: position, velocity, stiffness, damping and torque codes as eight bytes. -/
def mitPack (p : BitVec 16) (v kp kd t : BitVec 12) : List Byte :=
  [p.extractLsb' 8 8,
   p.extractLsb' 0 8,
   v.extractLsb' 4 8,
   v.extractLsb' 0 4 ++ kp.extractLsb' 8 4,
   kp.extractLsb' 0 8,
   kd.extractLsb' 4 8,
   kd.extractLsb' 0 4 ++ t.extractLsb' 8 4,
   t.extractLsb' 0 8]

/-! ## Telemetry frames (R62, R74, R75, R151) -/

/-- Byte `b<k>` of the eight telemetry bytes in two operand words (R62). -/
def frameByte (w0 w1 : Word) (k : Nat) : Byte :=
  if k < 4 then w0.extractLsb' (24 - 8 * k) 8 else w1.extractLsb' (24 - 8 * (k - 4)) 8

/-- `s16(h, l)`: two bytes as a signed integer, `h` the more significant. -/
def s16 (h l : Byte) : Int := (h ++ l : BitVec 16).toInt

/-- `servoDecode` (R151): the extended wire format. -/
def servoDecode (w0 w1 : Word) : Snapshot :=
  let b := frameByte w0 w1
  { pos := fmul (ofInt (s16 (b 0) (b 1))) c0_1
    vel := fmul (ofInt (s16 (b 2) (b 3))) c10
    cur := fmul (ofInt (s16 (b 4) (b 5))) c0_01
    temp := (b 6).signExtend 16
    err := b 7 }

/-- `mitDecode` (R151): the standard wire format, with the model's limits; `b0` is not read. -/
def mitDecode (w0 w1 : Word) (row : ModelRow) : Snapshot :=
  let b := frameByte w0 w1
  let pc : BitVec 16 := b 1 ++ b 2
  let vc : BitVec 12 := b 3 ++ (b 4).extractLsb' 4 4
  let tc : BitVec 12 := (b 4).extractLsb' 0 4 ++ b 5
  { pos := x2f pc.toNat (fneg c12_5) c12_5 16
    vel := x2f vc.toNat (fneg row.vmax) row.vmax 12
    cur := x2f tc.toNat (fneg row.tmax) row.tmax 12
    temp := (b 6).setWidth 16
    err := b 7 }

/-- The recurrence variant of a header bit: 0 positional, 1 incremental (R183). -/
def variantOf (b : BitVec 1) : Variant := if b = 0 then .positional else .incremental

/-- The model index of a 3-bit field: 0 to 6 are rows of `MODEL_LIMITS`, 7 is unknown (R206). -/
def modelIndex (m : BitVec 3) : Option (Fin 7) :=
  if h : m.toNat < 7 then some ⟨m.toNat, h⟩ else none

end Sys2Proof.Machine
end

