-- ==== Sys2Proof/Machine/Ops.lean ====
section
/-! DEFINITION. The named operations over the state that the meanings share: the frame buffer, the
two tables, the response, the hand-over of a frame, raising a fault, rejection, and the checks made
before every operation. -/

namespace Sys2Proof.Machine

/-- What performing an operation answers. -/
abbrev Result := Host.Outcome State Fault Refusal

/-! ## The frame buffer (R40 to R44) -/

/-- The byte at an index: 0 when the index is not listed. -/
def Memory.read : Memory → Nat → Byte
  | [], _ => 0
  | (a, b) :: m, i => if a = i then b else Memory.read m i

/-- Store a byte, keeping the canonical form: a byte 0 is not listed. -/
def Memory.write : Memory → Nat → Byte → Memory
  | [], i, b => if b = 0 then [] else [(i, b)]
  | (a, c) :: m, i, b =>
    if i < a then (if b = 0 then (a, c) :: m else (i, b) :: (a, c) :: m)
    else if i = a then (if b = 0 then m else (i, b) :: m)
    else (a, c) :: Memory.write m i b

/-- Store consecutive bytes from an index up (the loop of R41). -/
def Memory.writeBytes : Memory → Nat → List Byte → Memory
  | m, _, [] => m
  | m, i, b :: bs => Memory.writeBytes (Memory.write m i b) (i + 1) bs

/-- The canonical form from index `lo` on: indices rise strictly and stay below 8, no byte is 0. -/
def Memory.wfFrom : Nat → Memory → Bool
  | _, [] => true
  | lo, (a, b) :: m => decide (lo ≤ a) && decide (a < 8) && (b != 0) && Memory.wfFrom (a + 1) m

/-- The canonical form of the frame buffer. -/
def Memory.wf (m : Memory) : Bool := Memory.wfFrom 0 m

/-- `FB[i]`. -/
def State.fbByte (s : State) (i : Nat) : Byte := Memory.read s.fb i

/-! ## Responses and faults -/

/-- The operation's response, on the port its command arrived on (R63). -/
def State.respond (s : State) (r : Response) : State :=
  { s with responses := (s.port, r) :: s.responses }

/-- The cause codes of R202. -/
def Cause.code : Cause → BitVec 8
  | .illegalCommand => 1
  | .cfgRange => 2
  | .cfgModel => 3
  | .cfgWidth => 4
  | .cfgPid => 5
  | .pidUninit => 6

/-- `raise` (R200): `FAULT` takes the code, the response carries it, nothing else changes and no
frame is sent. This is all there is to taking an exception: no vector, no saved state (R214). -/
def raise (c : Cause) (s : State) : Result :=
  .next ({ s with fault := c.code }.respond { st := c.code })

/-- The response `st = 0xFF` of a faulted block; nothing else changes (R201). -/
def reject (s : State) : Result := .next (s.respond { st := 0xFF })

/-- What is checked before an operation's own pseudocode, in the order of R211: a faulted block
rejects, then the receive port takes `DECODE` only (R60, R204 (b)). `rxOk` says that the operation
is `DECODE`. -/
def accept (rxOk : Bool) (s : State) (body : Result) : Result :=
  if s.fault ≠ 0 then reject s
  else if s.port = .rx ∧ rxOk = false then raise .illegalCommand s
  else body

/-- A command that no operation stands for: rejected by a faulted block, else `ILLEGAL_COMMAND`
(R201, R204). -/
def illegal (s : State) : Result := accept true s (raise .illegalCommand s)

/-- The only way out of a fault, in place of a return from exception (R201, R214, R220): every
field of the block takes its value of R38. `N_PID` and the model's other own fields stay (R221,
log 10); no response, no frame. -/
def resetBlock (s : State) : State :=
  { s with
    fault := 0
    fb := []
    cur := 0
    dev := Vector.replicate 256 Device.reset
    pid := List.replicate s.pid.length PidCtx.reset }

/-! ## Frame-buffer appends -/

/-- `FbWrite` (R41) of serialised bytes, and the response. Where R41 does not define it there is no
such byte; the callers refuse before (R44). -/
def fbWrite (bytes : List Byte) (s : State) : Result :=
  if 8 < s.cur.toNat + bytes.length then .fault (.noSuchByte (s.cur.toNat + bytes.length - 1))
  else
    .next ({ s with
      fb := Memory.writeBytes s.fb s.cur.toNat bytes
      cur := s.cur + BitVec.ofNat 4 bytes.length }.respond {})

/-! ## The transport (R46, R68) -/

/-- Eight data bytes: the payload, then zeros (R68). -/
def frameData (bytes : List Byte) : Vector Byte 8 :=
  #v[bytes.getD 0 0, bytes.getD 1 0, bytes.getD 2 0, bytes.getD 3 0,
     bytes.getD 4 0, bytes.getD 5 0, bytes.getD 6 0, bytes.getD 7 0]

/-- A frame as the transport port carries it (R68). -/
def makeFrame (id : BitVec 29) (ext : BitVec 1) (bytes : List Byte) : Frame :=
  { id, ext, len := BitVec.ofNat 4 bytes.length, data := frameData bytes }

/-- The code the transport answers the next `Send` with: an input (R46, log 6). -/
def State.nextRc (s : State) : BitVec 2 :=
  match s.answers with
  | [] => Config.transportRc s.frames.length
  | rc :: _ => rc

/-- A frame is handed over and an answer taken. -/
def State.handOver (s : State) (f : Frame) : State :=
  { s with frames := f :: s.frames, answers := s.answers.tail }

/-- `rc <- Send(id, ext, len, bytes)` as an encoder's last act: the frame is handed over once and
the transport's code is the response's `rc`, unchanged, with `st = 0` (R46, R120, R140). -/
def send (id : BitVec 29) (ext : BitVec 1) (bytes : List Byte) (s : State) : Result :=
  .next ((s.handOver (makeFrame id ext bytes)).respond { rc := s.nextRc })

/-! ## The two tables -/

/-- `DEV[a]`. -/
def State.device (s : State) (a : BitVec 8) : Device := s.dev[a.toNat]'(a.isLt)

/-- `DEV[a] <- d`. -/
def State.setDevice (s : State) (a : BitVec 8) (d : Device) : State :=
  { s with dev := s.dev.set a.toNat d a.isLt }

/-- The five snapshot fields of a device's record are overwritten (R152, R156). -/
def Device.record (d : Device) (t : Snapshot) : Device :=
  { d with pos := t.pos, vel := t.vel, cur := t.cur, temp := t.temp, err := t.err }

/-- `PID[p] <- c`. -/
def State.setPid (s : State) (p : BitVec 8) (c : PidCtx) : State :=
  { s with pid := s.pid.set p.toNat c }

/-- An operation on `PID[p]`; an index not below `N_PID` is `ILLEGAL_COMMAND` (R180, R204 (f)). -/
def withPid (p : BitVec 8) (s : State) (body : PidCtx → Result) : Result :=
  match s.pid[p.toNat]? with
  | none => raise .illegalCommand s
  | some c => body c

/-- An operation on a context that `PIDINIT` has initialised; any other raises `PID_UNINIT` (R180,
R210). -/
def withInited (p : BitVec 8) (s : State) (body : PidCtx → Result) : Result :=
  withPid p s fun c => if c.inited then body c else raise .pidUninit s

/-! ## Command ports (R60) -/

/-- The words waiting on a port. -/
def State.words (s : State) : Port → List Word
  | .fg => s.fgIn
  | .rx => s.rxIn

/-- Replace the words waiting on a port. -/
def State.setWords (s : State) (p : Port) (ws : List Word) : State :=
  match p with
  | .fg => { s with fgIn := ws }
  | .rx => { s with rxIn := ws }

end Sys2Proof.Machine
end

