-- ==== Sys2Proof/Machine/Codec.lean ====
section
/-! DEFINITION. The codec and serialiser family (40_codec.md). -/

namespace Sys2Proof.Machine

/-- The faults that `F2X` and `X2F` share, in their order: `CFG_WIDTH`, then `CFG_RANGE` (R102,
R104, R211). -/
def withRange (n : BitVec 8) (lo hi : F) (s : State) (body : Result) : Result :=
  if widthOk n = false then raise .cfgWidth s
  else if rangeOk lo hi = false then raise .cfgRange s
  else body

/-- `F2X` (R102). -/
def execF2x (n : BitVec 8) (v lo hi : F) (s : State) : Result :=
  accept false s <| withRange n lo hi s <|
    if isNaN v then .refused .nanOperand
    else .next (s.respond { r0 := BitVec.ofNat 32 (f2x v lo hi n.toNat) })

/-- `X2F` (R104). -/
def execX2f (n : BitVec 8) (code : Word) (lo hi : F) (s : State) : Result :=
  accept false s <| withRange n lo hi s <|
    .next (s.respond { r0 := x2f (codeBits code n.toNat) lo hi n.toNat })

/-- `APP16` (R106). -/
def execApp16 (v : BitVec 16) (s : State) : Result :=
  accept false s <|
    if 8 < s.cur.toNat + 2 then .refused .fbOverrun else fbWrite (ser16 v) s

/-- `APP32` (R107). -/
def execApp32 (v : BitVec 32) (s : State) : Result :=
  accept false s <|
    if 8 < s.cur.toNat + 4 then .refused .fbOverrun else fbWrite (ser32 v) s

/-- `FBRST` (R108). -/
def execFbrst (s : State) : Result :=
  accept false s <| .next ({ s with fb := [], cur := 0 }.respond {})

/-- `FBRD` (R109). -/
def execFbrd (s : State) : Result :=
  accept false s <| .next (s.respond
    { r0 := packWord (s.fbByte 0) (s.fbByte 1) (s.fbByte 2) (s.fbByte 3)
      r1 := packWord (s.fbByte 4) (s.fbByte 5) (s.fbByte 6) (s.fbByte 7)
      r2 := s.cur.setWidth 32 })

end Sys2Proof.Machine
end

