-- ==== Sys2Proof/Machine/Mit.lean ====
section
/-! DEFINITION. The MIT-mode command encoder (42_mit.md). -/

namespace Sys2Proof.Machine

/-- `mitSend` (R140): the raw address as identifier, standard wire format (R69). -/
def mitSend (a : BitVec 8) (bytes : List Byte) (s : State) : Result :=
  send (a.setWidth 29) 0 bytes s

/-- A sentinel frame: seven bytes 0xFF and a last byte (R73). -/
def sentinel (last : Byte) : List Byte := [0xFF, 0xFF, 0xFF, 0xFF, 0xFF, 0xFF, 0xFF, last]

/-- `MITENT` (R142): enter-control. -/
def execMitent (a : BitVec 8) (s : State) : Result :=
  accept false s <| mitSend a (sentinel 0xFC) s

/-- `MITORG` (R143): set-origin. -/
def execMitorg (a : BitVec 8) (s : State) : Result :=
  accept false s <| mitSend a (sentinel 0xFE) s

/-- `MITEXT` (R144): exit-control. -/
def execMitext (a : BitVec 8) (s : State) : Result :=
  accept false s <| mitSend a (sentinel 0xFD) s

/-- The eight bytes of the MIT data frame of five parameters (R141, R146). -/
def mitBytes (row : ModelRow) (p v kp kd t : F) : List Byte :=
  mitPack
    (BitVec.ofNat 16 (f2x p (fneg c12_5) c12_5 16))
    (BitVec.ofNat 12 (f2x v (fneg row.vmax) row.vmax 12))
    (BitVec.ofNat 12 (f2x kp 0 c500 12))
    (BitVec.ofNat 12 (f2x kd 0 c5 12))
    (BitVec.ofNat 12 (f2x t (fneg row.tmax) row.tmax 12))

/-- `MITCMD` (R146). -/
def execMitcmd (a : BitVec 8) (model : BitVec 3) (p v kp kd t : F) (s : State) : Result :=
  accept false s <|
    match modelIndex model with
    | none => raise .cfgModel s
    | some m =>
      if isNaN p || isNaN v || isNaN kp || isNaN kd || isNaN t then .refused .nanOperand
      else mitSend a (mitBytes s.limits[m] p v kp kd t) s

end Sys2Proof.Machine
end

