-- ==== Sys2Proof/Machine/Pid.lean ====
section
/-! DEFINITION. The PID controller (45_pid.md). -/

namespace Sys2Proof.Machine

/-- `pidZero` (R185): all history slots and all outputs of both variants are zeroed; gains and
configuration stay. -/
def pidZero (c : PidCtx) : PidCtx :=
  { c with
    set := Hist.zero, get := Hist.zero, err := Hist.zero
    pout := 0, iout := 0, dout := 0
    posOut := 0, lastPosOut := 0
    deltaU := 0, deltaOut := 0, deltaLastout := 0 }

/-- `x[NOW] <- v`. -/
def Hist.record (h : Hist) (v : F) : Hist := { h with now := v }

/-- Step 6 on one history: `LLAST <- LAST`, then `LAST <- NOW`; `NOW` stays (R194). -/
def Hist.shift (h : Hist) : Hist := { llast := h.last, last := h.now, now := h.now }

/-- Step 1 (R187): record target, measured value and error in the `NOW` slots. -/
def pidRecord (c : PidCtx) (target measured : F) : PidCtx :=
  { c with
    set := c.set.record target
    get := c.get.record measured
    err := c.err.record (fsub target measured) }

/-- Steps 2 and 3 (R188, R189): whether the recorded error is gated. -/
def pidGated (c : PidCtx) : Bool :=
  maxErrGate c.maxErr c.err.now || deadBandGate c.deadBand c.err.now

/-- Step 4 (R191, R193): the positional recurrence on a context whose error is recorded. -/
def pidPositional (c : PidCtx) : PidCtx :=
  let e := c.err.now
  let pout := fmul c.kp e
  let iout := clampS (fadd c.iout (fmul c.ki e)) c.intLim
  let dout := fmul c.kd (fsub e c.err.last)
  let out := clampS (fadd (fadd pout iout) dout) c.maxOut
  { c with pout, iout, dout, posOut := out, lastPosOut := out }

/-- Step 5 (R192, R193): the incremental recurrence on a context whose error is recorded. -/
def pidIncremental (c : PidCtx) : PidCtx :=
  let e := c.err.now
  let pout := fmul c.kp (fsub e c.err.last)
  let iout := clampS (fmul c.ki e) c.intLim
  let dout := fmul c.kd (fadd (fsub e (fmul c2 c.err.last)) c.err.llast)
  let deltaU := fadd (fadd pout iout) dout
  let out := clampS (fadd c.deltaLastout deltaU) c.maxOut
  { c with pout, iout, dout, deltaU, deltaOut := out, deltaLastout := out }

/-- Step 6 (R194): shift the three histories. -/
def pidShift (c : PidCtx) : PidCtx :=
  { c with set := c.set.shift, get := c.get.shift, err := c.err.shift }

/-- The PID step (R186): the context after it and the returned float. A gated call keeps all but the
`NOW` slots and returns +0.0 (R190). -/
def pidStep (c : PidCtx) (target measured : F) : PidCtx × F :=
  let c1 := pidRecord c target measured
  if pidGated c1 then (c1, 0)
  else
    match c.variant with
    | .positional => (pidShift (pidPositional c1), (pidPositional c1).posOut)
    | .incremental => (pidShift (pidIncremental c1), (pidIncremental c1).deltaOut)

/-- A constructed controller: configuration and gains given, history and outputs zero (R183). -/
def PidCtx.construct (variant : Variant) (maxOutput integralLimit deadBand maxErr kp ki kd : F) :
    PidCtx :=
  pidZero { PidCtx.reset with
    inited := true, variant := variant, maxOut := maxOutput, intLim := integralLimit,
    deadBand := deadBand, maxErr := maxErr, kp := kp, ki := ki, kd := kd }

/-- `PIDINIT` (R183): every field of the context is written. -/
def execPidinit (p : BitVec 8) (variant : BitVec 1)
    (maxOutput integralLimit deadBand maxErr kp ki kd : F) (s : State) : Result :=
  accept false s <| withPid p s fun _ =>
    if pidLimitOk maxOutput = false then raise .cfgPid s
    else if pidLimitOk integralLimit = false then raise .cfgPid s
    else
      .next ((s.setPid p (PidCtx.construct (variantOf variant) maxOutput integralLimit deadBand
        maxErr kp ki kd)).respond {})

/-- `PIDGAIN` (R184): the three gains only. -/
def execPidgain (p : BitVec 8) (kp ki kd : F) (s : State) : Result :=
  accept false s <| withInited p s fun c =>
    .next ((s.setPid p { c with kp, ki, kd }).respond {})

/-- `PIDCLR` (R185). -/
def execPidclr (p : BitVec 8) (s : State) : Result :=
  accept false s <| withInited p s fun c => .next ((s.setPid p (pidZero c)).respond {})

/-- `PIDCALC` (R186). -/
def execPidcalc (p : BitVec 8) (target measured : F) (s : State) : Result :=
  accept false s <| withInited p s fun c =>
    .next ((s.setPid p (pidStep c target measured).1).respond
      { r0 := (pidStep c target measured).2 })

end Sys2Proof.Machine
end

