-- ==== Sys2Proof/Machine/Registry.lean ====
section
/-! DEFINITION. The device registry (44_registry.md). -/

namespace Sys2Proof.Machine

/-- A newly registered record: its model and a zero snapshot (R172). -/
def Device.fresh (m : Fin 7) : Device :=
  { valid := true, model := m, pos := 0, vel := 0, cur := 0, temp := 0, err := 0 }

/-- `DEVREG` (R172): an unknown model faults before the conflict test; a conflict changes nothing
and shows in bit 8 of the handle. -/
def execDevreg (a : BitVec 8) (model : BitVec 3) (s : State) : Result :=
  accept false s <|
    match modelIndex model with
    | none => raise .cfgModel s
    | some m =>
      if (s.device a).valid then .next (s.respond { r0 := handleWord true a })
      else .next ((s.setDevice a (Device.fresh m)).respond { r0 := handleWord false a })

/-- `DEVUNREG` (R173): a conflict handle is a no-op; otherwise the record becomes invalid. -/
def execDevunreg (a : BitVec 8) (conflict : BitVec 1) (s : State) : Result :=
  accept false s <|
    if conflict = 1 then .next (s.respond {})
    else .next ((s.setDevice a { s.device a with valid := false }).respond {})

/-- `DEVFIND` (R174). -/
def execDevfind (a : BitVec 8) (s : State) : Result :=
  accept false s <|
    if (s.device a).valid then
      .next (s.respond { r0 := 1, r1 := BitVec.ofNat 32 (s.device a).model.val })
    else .next (s.respond {})

end Sys2Proof.Machine
end

