-- ==== Sys2Proof/Machine/Servo.lean ====
section
/-! DEFINITION. The servo-mode command encoder (41_servo.md). -/

namespace Sys2Proof.Machine

/-- `servoSend` (R120): identifier from address and kind, extended wire format (R69). -/
def servoSend (a : BitVec 8) (kind : Nat) (bytes : List Byte) (s : State) : Result :=
  send (servoId a kind) 1 bytes s

/-- A servo operation with a float parameter: NaN is refused (R122). -/
def servoFloat (x : F) (s : State) (body : Result) : Result :=
  accept false s <| if isNaN x then .refused .nanOperand else body

/-- `SVDUTY` (R123): kind 0, ±1, ×100000. -/
def execSvduty (a : BitVec 8) (duty : F) (s : State) : Result :=
  servoFloat duty s <| servoSend a 0 (ser32 (servoScaled duty c1 c1e5)) s

/-- `SVCUR` (R124): kind 1, ±60000, ×1000. -/
def execSvcur (a : BitVec 8) (current : F) (s : State) : Result :=
  servoFloat current s <| servoSend a 1 (ser32 (servoScaled current c60000 c1e3)) s

/-- `SVBRK` (R125): kind 2, ±60000, ×1000. -/
def execSvbrk (a : BitVec 8) (current : F) (s : State) : Result :=
  servoFloat current s <| servoSend a 2 (ser32 (servoScaled current c60000 c1e3)) s

/-- `SVRPM` (R126): kind 3, ±100000, unscaled. -/
def execSvrpm (a : BitVec 8) (velocity : F) (s : State) : Result :=
  servoFloat velocity s <| servoSend a 3 (ser32 (servoUnscaled velocity c100000)) s

/-- `SVPOS` (R127): kind 4, ±36000, ×10000. -/
def execSvpos (a : BitVec 8) (position : F) (s : State) : Result :=
  servoFloat position s <| servoSend a 4 (ser32 (servoScaled position c36000 c1e4)) s

/-- `SVORG` (R128): kind 5, no payload whatever the mode; the reserved mode 3 is
`ILLEGAL_COMMAND` (R66). -/
def execSvorg (a : BitVec 8) (mode : BitVec 2) (s : State) : Result :=
  accept false s <| if mode = 3 then raise .illegalCommand s else servoSend a 5 [] s

/-- `SVPSA` (R129): kind 6, the position of `SVPOS`, then velocity and acceleration. -/
def execSvpsa (a : BitVec 8) (position : F) (spd : BitVec 16) (acc : BitVec 32) (s : State) :
    Result :=
  servoFloat position s <|
    if acc.toInt < -32768 then .refused .accBelowInt16
    else
      servoSend a 6
        (ser32 (servoScaled position c36000 c1e4) ++ ser16 spd ++ ser16 (clampAcc acc)) s

end Sys2Proof.Machine
end

