-- ==== Sys2Proof/Machine/Telemetry.lean ====
section
/-! DEFINITION. The telemetry decoder and snapshot reads (43_telemetry.md). -/

namespace Sys2Proof.Machine

/-- The snapshot of a telemetry frame for a device: wire format 1 is servo, 0 is MIT (R150, R152). -/
def decodeFrame (s : State) (d : Device) (fmt : BitVec 1) (w0 w1 : Word) : Snapshot :=
  if fmt = 1 then servoDecode w0 w1 else mitDecode w0 w1 s.limits[d.model]

/-- `DECODE` (R152): accepted on both ports; a frame from an unknown source is dropped silently. -/
def execDecode (a : BitVec 8) (fmt : BitVec 1) (w0 w1 : Word) (s : State) : Result :=
  accept true s <|
    if (s.device a).valid then
      .next ((s.setDevice a ((s.device a).record (decodeFrame s (s.device a) fmt w0 w1))).respond {})
    else .next (s.respond {})

/-- The result word of one snapshot field (R157): 0 pos, 1 vel, 2 cur, 3 temp, 4 err. -/
def snapshotField (d : Device) (field : BitVec 3) : Word :=
  if field = 0 then d.pos
  else if field = 1 then d.vel
  else if field = 2 then d.cur
  else if field = 3 then d.temp.signExtend 32
  else d.err.setWidth 32

/-- `TLMRD` (R157): `R1` is the found bit; fields 5 to 7 are `ILLEGAL_COMMAND` (R66). -/
def execTlmrd (a : BitVec 8) (field : BitVec 3) (s : State) : Result :=
  accept false s <|
    if 4 < field.toNat then raise .illegalCommand s
    else if (s.device a).valid then
      .next (s.respond { r0 := snapshotField (s.device a) field, r1 := 1 })
    else .next (s.respond {})

/-- `TLMSNAP` (R158): the five fields from one state. -/
def execTlmsnap (a : BitVec 8) (s : State) : Result :=
  accept false s <|
    if (s.device a).valid then
      .next (s.respond
        { r0 := (s.device a).pos, r1 := (s.device a).vel, r2 := (s.device a).cur
          r3 := (s.device a).temp.signExtend 32, r4 := foundErr (s.device a).err })
    else .next (s.respond {})

end Sys2Proof.Machine
end

