-- ==== Sys2Proof/Machine/Dispatch.lean ====
section
/-! DEFINITION. One arm per operation: its meaning. -/

namespace Sys2Proof.Machine

/-- Perform one operation: the checks of R211 and the operation's own pseudocode. -/
def exec (i : Instr) (s : State) : Host.Outcome State Fault Refusal :=
  match i with
  | .f2x n v lo hi => Sys2Proof.Machine.execF2x n v lo hi s
  | .x2f n code lo hi => Sys2Proof.Machine.execX2f n code lo hi s
  | .app16 v => Sys2Proof.Machine.execApp16 v s
  | .app32 v => Sys2Proof.Machine.execApp32 v s
  | .fbrst => Sys2Proof.Machine.execFbrst s
  | .fbrd => Sys2Proof.Machine.execFbrd s
  | .svduty a duty => Sys2Proof.Machine.execSvduty a duty s
  | .svcur a current => Sys2Proof.Machine.execSvcur a current s
  | .svbrk a current => Sys2Proof.Machine.execSvbrk a current s
  | .svrpm a velocity => Sys2Proof.Machine.execSvrpm a velocity s
  | .svpos a position => Sys2Proof.Machine.execSvpos a position s
  | .svorg a mode => Sys2Proof.Machine.execSvorg a mode s
  | .svpsa a position spd acc => Sys2Proof.Machine.execSvpsa a position spd acc s
  | .mitent a => Sys2Proof.Machine.execMitent a s
  | .mitorg a => Sys2Proof.Machine.execMitorg a s
  | .mitext a => Sys2Proof.Machine.execMitext a s
  | .mitcmd a model p v kp kd t => Sys2Proof.Machine.execMitcmd a model p v kp kd t s
  | .decode a fmt w0 w1 => Sys2Proof.Machine.execDecode a fmt w0 w1 s
  | .tlmrd a field => Sys2Proof.Machine.execTlmrd a field s
  | .tlmsnap a => Sys2Proof.Machine.execTlmsnap a s
  | .devreg a model => Sys2Proof.Machine.execDevreg a model s
  | .devunreg a conflict => Sys2Proof.Machine.execDevunreg a conflict s
  | .devfind a => Sys2Proof.Machine.execDevfind a s
  | .pidinit p variant mo il db me kp ki kd => Sys2Proof.Machine.execPidinit p variant mo il db me kp ki kd s
  | .pidgain p kp ki kd => Sys2Proof.Machine.execPidgain p kp ki kd s
  | .pidclr p => Sys2Proof.Machine.execPidclr p s
  | .pidcalc p target measured => Sys2Proof.Machine.execPidcalc p target measured s

end Sys2Proof.Machine
end

