-- ==== Sys2Proof/Machine/Step.lean ====
section
/-! DEFINITION. One step: what the environment lets take effect next (R49, R208, R220). -/

namespace Sys2Proof.Machine

/-- Perform the command made of these words, which have been taken off the port (R60, R211). -/
def perform (cmd : List Word) (s : State) : Result :=
  match decode cmd with
  | .ok i => exec i s
  | .error _ => illegal s

/-- A port's turn: its first command is taken and performed; a port that does not hold all the words
of a command waits, and nothing happens (R60, log 8). -/
def stepCommand (p : Port) (s : State) : Result :=
  match nextCommand (s.words p) with
  | none => .next s
  | some (cmd, rest) => perform cmd { s.setWords p rest with port := p }

/-- One step: the next event of `turns`. With no event to come, nothing happens (log 8). -/
def step (s : State) : Host.Outcome State Fault Refusal :=
  match s.turns with
  | [] => .next s
  | .reset :: ts => .next (resetBlock { s with turns := ts })
  | .command p :: ts => stepCommand p { s with turns := ts }

/-- `s` with an instruction's words first on the foreground port and that port's turn next (log 7),
so that the next step performs it. -/
def State.withFetchWord (s : State) (nbits w : Nat) : State :=
  { s with fgIn := tableWords nbits w ++ s.fgIn, turns := .command .fg :: s.turns }

end Sys2Proof.Machine
end

