-- ==== Sys2Proof/Safety.lean ====
section
/-! DEFINITION. The terms in which claims speak of good states and good runs: which operations fault
or are refused where, and the invariant of the state. -/

namespace Sys2Proof.Machine

/-! ## What an operation answers (R202, R203, R211) -/

/-- A state in which the foreground port's command is performed on a block that is not faulted. -/
def Ready (s : State) : Prop := s.fault = 0 ∧ s.port = .fg

/-- The context that `P` names, when it exists and is initialised. -/
def initedPid (p : BitVec 8) (s : State) : Bool :=
  match s.pid[p.toNat]? with
  | none => false
  | some c => c.inited

/-- The cause `withInited` raises for a PID operation: `ILLEGAL_COMMAND` before `PID_UNINIT`. -/
def pidCause (p : BitVec 8) (s : State) : Option Cause :=
  if s.pid.length ≤ p.toNat then some .illegalCommand
  else if initedPid p s then none
  else some .pidUninit

/-- The fault condition of each operation, in the order of R211 (R202's table; `ILLEGAL_COMMAND` for
the reserved minor values and for `P >= N_PID`). -/
def faultOf (i : Instr) (s : State) : Option Cause :=
  match i with
  | .f2x n _ lo hi =>
    if widthOk n = false then some .cfgWidth else if rangeOk lo hi = false then some .cfgRange
    else none
  | .x2f n _ lo hi =>
    if widthOk n = false then some .cfgWidth else if rangeOk lo hi = false then some .cfgRange
    else none
  | .app16 _ => none
  | .app32 _ => none
  | .fbrst => none
  | .fbrd => none
  | .svduty _ _ => none
  | .svcur _ _ => none
  | .svbrk _ _ => none
  | .svrpm _ _ => none
  | .svpos _ _ => none
  | .svorg _ mode => if mode = 3 then some .illegalCommand else none
  | .svpsa _ _ _ _ => none
  | .mitent _ => none
  | .mitorg _ => none
  | .mitext _ => none
  | .mitcmd _ model _ _ _ _ _ => if model = 7 then some .cfgModel else none
  | .decode _ _ _ _ => none
  | .tlmrd _ field => if 4 < field.toNat then some .illegalCommand else none
  | .tlmsnap _ => none
  | .devreg _ model => if model = 7 then some .cfgModel else none
  | .devunreg _ _ => none
  | .devfind _ => none
  | .pidinit p _ maxOutput integralLimit _ _ _ _ _ =>
    if s.pid.length ≤ p.toNat then some .illegalCommand
    else if pidLimitOk maxOutput && pidLimitOk integralLimit then none
    else some .cfgPid
  | .pidgain p _ _ _ => pidCause p s
  | .pidclr p => pidCause p s
  | .pidcalc p _ _ => pidCause p s

/-- The `refuse` condition of each operation (R203, U1 to U3), where no fault comes first. -/
def refusalOf (i : Instr) (s : State) : Option Refusal :=
  match i with
  | .f2x _ v _ _ => if isNaN v then some .nanOperand else none
  | .x2f _ _ _ _ => none
  | .app16 _ => if 8 < s.cur.toNat + 2 then some .fbOverrun else none
  | .app32 _ => if 8 < s.cur.toNat + 4 then some .fbOverrun else none
  | .fbrst => none
  | .fbrd => none
  | .svduty _ x => if isNaN x then some .nanOperand else none
  | .svcur _ x => if isNaN x then some .nanOperand else none
  | .svbrk _ x => if isNaN x then some .nanOperand else none
  | .svrpm _ x => if isNaN x then some .nanOperand else none
  | .svpos _ x => if isNaN x then some .nanOperand else none
  | .svorg _ _ => none
  | .svpsa _ x _ acc =>
    if isNaN x then some .nanOperand
    else if acc.toInt < -32768 then some .accBelowInt16 else none
  | .mitent _ => none
  | .mitorg _ => none
  | .mitext _ => none
  | .mitcmd _ _ p v kp kd t =>
    if isNaN p || isNaN v || isNaN kp || isNaN kd || isNaN t then some .nanOperand else none
  | .decode _ _ _ _ => none
  | .tlmrd _ _ => none
  | .tlmsnap _ => none
  | .devreg _ _ => none
  | .devunreg _ _ => none
  | .devfind _ => none
  | .pidinit _ _ _ _ _ _ _ _ _ => none
  | .pidgain _ _ _ _ => none
  | .pidclr _ => none
  | .pidcalc _ _ _ => none

/-- Whether the operation is `DECODE`, the only one the receive port takes (R60). -/
def isDecode (i : Instr) : Bool := i.opcode == Opcode.decode

/-! ## What a float means (R7: IEEE binary32, round to nearest, ties to even) -/

/-- The rational number that a finite encoding stands for, from its three fields: sign bit 31,
exponent bits 30:23 (bias 127), fraction bits 22:0 (00_scope.md section 5.2, G1). -/
def realValue (x : F) : ℚ :=
  let e := (x.extractLsb' 23 8).toNat
  let f := (x.extractLsb' 0 23).toNat
  let m : ℚ := if e = 0 then f * (2 : ℚ) ^ (-149 : ℤ) else (2 ^ 23 + f) * (2 : ℚ) ^ ((e : ℤ) - 150)
  if x.msb then -m else m

/-- Half a unit above the largest finite value: from here on a result is rounded to infinity. -/
def overflowBound : ℚ := (2 ^ 25 - 1) * 2 ^ 103

/-- `r` is the exact value `q` rounded once, to nearest, ties to even. -/
def RoundsTo (q : ℚ) (r : F) : Prop :=
  (|q| < overflowBound ∧ isFinite r = true ∧
    (∀ x : F, isFinite x = true → |realValue r - q| ≤ |realValue x - q|) ∧
    (∀ x : F, isFinite x = true → |realValue x - q| = |realValue r - q| →
      realValue x ≠ realValue r → r.getLsbD 0 = false)) ∨
  (overflowBound ≤ |q| ∧ isInf r = true ∧ r.msb = decide (q < 0))

/-! ## The invariant -/

/-- `x` lies within `±limit`, or is NaN (which `clampS` passes through, R11). -/
def within (x limit : F) : Bool := isNaN x || (!(flt limit x) && !(flt x (fneg limit)))

/-- What a PID context keeps: legal limits (R32, R182); the integral term and every output within
its clamp (R191, R192); the last-output fields equal to the outputs (R193); the outputs of the other
variant zero (R186); and a context never initialised as reset leaves it (R38, R210). -/
structure PidCtx.Ok (c : PidCtx) : Prop where
  maxOut_legal : pidLimitOk c.maxOut = true
  intLim_legal : pidLimitOk c.intLim = true
  iout_within : within c.iout c.intLim = true
  posOut_within : within c.posOut c.maxOut = true
  deltaOut_within : within c.deltaOut c.maxOut = true
  lastPosOut_eq : c.lastPosOut = c.posOut
  deltaLastout_eq : c.deltaLastout = c.deltaOut
  positional_only : c.variant = .positional → c.deltaU = 0 ∧ c.deltaOut = 0
  incremental_only : c.variant = .incremental → c.posOut = 0
  fresh : c.inited = false → c = PidCtx.reset

/-- What every state of a run keeps: the frame buffer in canonical form, the cursor at most 8 with
only zero bytes from it on (R22, R108), a cause code of R202 in `FAULT`, 1 to 256 PID contexts (R6),
each in order, and a legal `MODEL_LIMITS` (R5). -/
structure State.Inv (s : State) : Prop where
  fb_wf : Memory.wf s.fb = true
  cur_le : s.cur.toNat ≤ 8
  fb_clear : ∀ i, s.cur.toNat ≤ i → s.fbByte i = 0
  fault_le : s.fault.toNat ≤ 6
  pid_pos : 1 ≤ s.pid.length
  pid_le : s.pid.length ≤ 256
  pid_ok : ∀ c ∈ s.pid, PidCtx.Ok c
  limits_legal : ∀ m : Fin 7, (s.limits[m]).legal = true

end Sys2Proof.Machine
end

