-- ==== Sys2Proof/Certificates/Slice0/Obligations.lean ====
section
/-! DEFINITION. The statements for the provers. The first three helpers below name whole next
states, so that a statement that uses one says every field of it; the other two spell out R100 and the
signed reading of two bytes. -/

open Sys2Proof Sys2Proof.Machine

/-- The state in which nothing has changed but one more response on the command's port. -/
def Sys2Proof.Claims.answered (r : Response) (s : State) : State :=
  { s with responses := (s.port, r) :: s.responses }

/-- The state in which nothing has changed but `FAULT`, which holds the code `c`, and one more
response, which carries it (R200). -/
def Sys2Proof.Claims.raised (c : BitVec 8) (s : State) : State :=
  { s with fault := c, responses := (s.port, { st := c }) :: s.responses }

/-- The state in which nothing has changed but that one frame was handed to the transport, one answer
of the transport was taken, and the response carries it with `st = 0` (R46, R120, R140). The payload
bytes come first in the frame's eight data bytes; the rest are zero (R68). -/
def Sys2Proof.Claims.sent (id : Nat) (ext : BitVec 1) (bytes : List Byte) (s : State) : State :=
  { s with
    frames :=
      { id := BitVec.ofNat 29 id, ext := ext, len := BitVec.ofNat 4 bytes.length
        data := Vector.ofFn fun k : Fin 8 => bytes.getD k.val 0 } :: s.frames
    answers := s.answers.tail
    responses := (s.port, { st := 0, rc := s.nextRc }) :: s.responses }

/-- R100's legal range, part by part: finite ends, `lo < hi`, and a span that is finite and greater
than zero. -/
abbrev Sys2Proof.Claims.RangeLegal (lo hi : F) : Prop :=
  isFinite lo = true ∧ isFinite hi = true ∧ flt lo hi = true ∧
    isFinite (fsub hi lo) = true ∧ flt 0 (fsub hi lo) = true

/-- The signed 16-bit integer of two bytes, the more significant first (R42, R74). -/
def Sys2Proof.Claims.signed16 (h l : BitVec 8) : Int :=
  if h.toNat < 128 then 256 * h.toNat + l.toNat else 256 * h.toNat + l.toNat - 65536

open Sys2Proof.Claims

/-! ## Reset, stepping, decoding -/

/-- R38: every field of the block after reset. -/
def Obligations.ResetStateIsAllZero : Prop :=
  State.reset.fault = 0 ∧ (∀ i, i < 8 → State.reset.fbByte i = 0) ∧ State.reset.cur = 0 ∧
  (∀ a, State.reset.device a =
    { valid := false, model := 0, pos := 0, vel := 0, cur := 0, temp := 0, err := 0 }) ∧
  (∀ c ∈ State.reset.pid, c =
    { inited := false, variant := .positional, maxOut := 0, intLim := 0, deadBand := 0,
      maxErr := 0, kp := 0, ki := 0, kd := 0, set := ⟨0, 0, 0⟩, get := ⟨0, 0, 0⟩,
      err := ⟨0, 0, 0⟩, pout := 0, iout := 0, dout := 0, posOut := 0, lastPosOut := 0,
      deltaU := 0, deltaOut := 0, deltaLastout := 0 })

/-- R220, R221: the reset input puts every field of the block at its value of R38, keeps the
parameters, sends no frame and produces no response. That words waiting on the ports and the
transport's coming answers stay is the model's choice (log 10). -/
def Obligations.ResetInputClearsBlock : Prop :=
  ∀ (s : State) (ts : List Turn), s.turns = .reset :: ts →
    ∃ t, step s = .next t ∧
      t.fault = State.reset.fault ∧ (∀ i, t.fbByte i = 0) ∧ t.cur = State.reset.cur ∧
      (∀ a, t.device a = State.reset.device a) ∧
      t.pid.length = s.pid.length ∧ (∀ c ∈ t.pid, c = PidCtx.reset) ∧
      t = { s with
        turns := ts, fault := t.fault, fb := t.fb, cur := t.cur, dev := t.dev, pid := t.pid }

/-- The reset state meets the invariant. Its clause on the canonical list is the form of log 13. Its
clause on `MODEL_LIMITS` is R5's constraint, which holds of the reset table because log 3 lets an
illegal row of the free table stand for (1.0, 1.0). -/
def Obligations.ResetStateMeetsInvariant : Prop := State.Inv State.reset

/-- A port's turn performs the operation that the first command waiting there decodes to, in the
state from which the command's words and the turn are gone and whose `port` is that port. The order
of turns is the model's form of R49 (log 7). -/
def Obligations.StepRunsDecodedCommand : Prop :=
  ∀ (s : State) (p : Port) (ts : List Turn) (i : Instr) (cmd rest : List Word),
    s.turns = .command p :: ts → nextCommand (s.words p) = some (cmd, rest) →
    decode cmd = .ok i →
      step s = exec i { ({ s with turns := ts }).setWords p rest with port := p }

/-- Words of 95_test_vectors.md decode to the operations they are listed with. -/
def Obligations.VectorWordsDecode : Prop :=
  decode [0x10100000, 0x00000000, 0xC1480000, 0x41480000] =
      .ok (.f2x 16 0x00000000 0xC1480000 0x41480000) ∧
  decode [0x12000000, 0xFFFF8000] = .ok (.app16 0x8000) ∧
  decode [0x26000068, 0x43340000, 0xFFFFEC78, 0xFFFFFFFF] =
      .ok (.svpsa 0x68 0x43340000 0xEC78 0xFFFFFFFF) ∧
  decode [0x33010001, 0x40000000, 0xC0400000, 0x42480000, 0x3F000000, 0x3F800000] =
      .ok (.mitcmd 0x01 1 0x40000000 0xC0400000 0x42480000 0x3F000000 0x3F800000) ∧
  decode [0x40010068, 0x03E8FF38, 0x01F41900] = .ok (.decode 0x68 1 0x03E8FF38 0x01F41900) ∧
  decode [0x51010068] = .ok (.devunreg 0x68 1) ∧
  decode [0x63000100, 0xC1000000, 0x00000000] = .ok (.pidcalc 1 0xC1000000 0x00000000)

/-- R66: every `OPC` value outside the 27 of R65 is a command of one word that no operation stands
for, whatever words follow. -/
def Obligations.ReservedOpcodesAreIllegal : Prop :=
  ∀ (h : Word) (ops : List Word),
    ((hOpc h).toNat ≤ 0x0F ∨ (0x16 ≤ (hOpc h).toNat ∧ (hOpc h).toNat ≤ 0x1F) ∨
      (0x27 ≤ (hOpc h).toNat ∧ (hOpc h).toNat ≤ 0x2F) ∨
      (0x34 ≤ (hOpc h).toNat ∧ (hOpc h).toNat ≤ 0x3F) ∨
      (0x43 ≤ (hOpc h).toNat ∧ (hOpc h).toNat ≤ 0x4F) ∨
      (0x53 ≤ (hOpc h).toNat ∧ (hOpc h).toNat ≤ 0x5F) ∨ 0x64 ≤ (hOpc h).toNat) →
    decode (h :: ops) = .error .reservedOpcode ∧ nextCommand (h :: ops) = some ([h], ops)

/-- A complete command that decodes to no operation raises `ILLEGAL_COMMAND` on its port: `FAULT`
and the response's status are 1, its words are consumed, and nothing else changes (R200, R204). -/
def Obligations.IllegalCommandRaisesCauseOne : Prop :=
  ∀ (s : State) (p : Port) (ts : List Turn) (e : Reject) (cmd rest : List Word),
    s.turns = .command p :: ts → nextCommand (s.words p) = some (cmd, rest) →
    decode cmd = .error e → s.fault = 0 →
      ∃ t, step s = .next t ∧ t.fault = 1 ∧ t.responses = (p, { st := 1 }) :: s.responses ∧
        t.words p = rest ∧ (∀ q, q ≠ p → t.words q = s.words q) ∧
        t = { s with
          turns := ts, port := p, fgIn := t.fgIn, rxIn := t.rxIn, fault := t.fault,
          responses := t.responses }

/-- Decoding undoes encoding, for every operation a legal command word can stand for, and the fetch
of a command takes exactly its words. -/
def Obligations.DecodeOfEncode : Prop :=
  ∀ (i : Instr) (rest : List Word), WellFormed i = true →
    decode (encode i) = .ok i ∧ nextCommand (encode i ++ rest) = some (encode i, rest)

/-- A command that decodes is legal: the operation it stands for is well formed, and its header is
the only one that stands for that operation (no must-be-zero bit is dropped, R61, R66). -/
def Obligations.DecodedHeaderIsUnique : Prop :=
  ∀ (h : Word) (ops : List Word) (i : Instr), decode (h :: ops) = .ok i →
    WellFormed i = true ∧ (encode i).head? = some h ∧ (encode i).length = 1 + ops.length

/-! ## The checks before every operation, faults, refusals, responses -/

/-- R201: a faulted block answers every operation, and every whole command of either port, legal or
not, with `st = 0xFF` and zero results; the command's words are consumed, and `FAULT` and everything
else of the block stay as they were. -/
def Obligations.FaultedBlockRejectsCommands : Prop :=
  (∀ (i : Instr) (s : State), s.fault ≠ 0 → exec i s = .next (answered { st := 0xFF } s)) ∧
  ∀ (s : State) (p : Port) (ts : List Turn) (cmd rest : List Word),
    s.fault ≠ 0 → s.turns = .command p :: ts →
    nextCommand (s.words p) = some (cmd, rest) →
      step s = .next
        { ({ s with turns := ts }).setWords p rest with
          port := p, responses := (p, { st := 0xFF }) :: s.responses }

/-- A fault is left by the reset input alone: every other step from a faulted state keeps `FAULT`, the
frame buffer, the cursor, the device table and the PID contexts, and sends nothing (R23, R201). -/
def Obligations.OnlyResetLeavesFault : Prop :=
  ∀ (s t : State), s.fault ≠ 0 → (∀ ts, s.turns ≠ .reset :: ts) → step s = .next t →
    t.fault = s.fault ∧ t.fb = s.fb ∧ t.cur = s.cur ∧ t.dev = s.dev ∧ t.pid = s.pid ∧
    t.frames = s.frames ∧ t.answers = s.answers ∧ t.limits = s.limits

/-- R60, R204 (b): on the receive port every operation but `DECODE` raises `ILLEGAL_COMMAND`. -/
def Obligations.ReceivePortTakesOnlyDecode : Prop :=
  ∀ (i : Instr) (s : State), s.fault = 0 → s.port = .rx → isDecode i = false →
    exec i s = .next (raised 1 s)

/-- R200, R202, R211: where an operation's fault condition holds, `FAULT` and the response's status
take the cause's code, and nothing else changes. -/
def Obligations.FaultConditionsRaiseTheirCause : Prop :=
  ∀ (i : Instr) (s : State) (c : Cause), Ready s → faultOf i s = some c →
    exec i s = .next (raised c.code s)

/-- R203: an operation is refused in exactly the cases U1, U2, U3, on a block that is ready, and only
where no fault condition comes first; everywhere else it has a next state. -/
def Obligations.RefusedExactlyWhereSpecRefuses : Prop :=
  ∀ (i : Instr) (s : State),
    (∀ r : Refusal,
      exec i s = .refused r ↔ (Ready s ∧ faultOf i s = none ∧ refusalOf i s = some r)) ∧
    ((¬Ready s ∨ faultOf i s ≠ none ∨ refusalOf i s = none) → ∃ t, exec i s = .next t)

/-- Every operation completes, with `st = 0`, exactly one response and no fault, wherever neither a
fault condition nor a refuse condition holds; in particular clamped values, conflicts, unknown
sources, and NaN in the PID never stop one (R215). -/
def Obligations.EveryOperationCompletes : Prop :=
  ∀ (i : Instr) (s : State), Ready s → faultOf i s = none → refusalOf i s = none →
    ∃ t r, exec i s = .next t ∧ t.fault = 0 ∧ t.responses = (.fg, r) :: s.responses ∧ r.st = 0 ∧
      t.limits = s.limits ∧ t.port = s.port ∧ t.turns = s.turns ∧ t.fgIn = s.fgIn ∧
      t.rxIn = s.rxIn ∧ t.pid.length = s.pid.length

/-- AKCORE never stops with a fault of the model: its own faults are next states (log 12). -/
def Obligations.NoOperationStopsWithFault : Prop :=
  ∀ (i : Instr) (s : State) (f : Fault), exec i s ≠ .fault f

/-- R47, R63, R130: an operation that has a next state gives exactly one response, on the port of its
command; a status other than 0 comes with `rc = 0`, zero results and no frame; at most one frame is
sent, and only by an operation whose status is 0. -/
def Obligations.OneResponseAndAtMostOneFrame : Prop :=
  ∀ (i : Instr) (s t : State), exec i s = .next t →
    ∃ r, t.responses = (s.port, r) :: s.responses ∧
      (r.st ≠ 0 → r = { st := r.st } ∧ t.frames = s.frames) ∧
      (t.frames = s.frames ∧ t.answers = s.answers ∧ r.rc = 0 ∨
        ∃ f, t.frames = f :: s.frames ∧ t.answers = s.answers.tail ∧ r = { rc := s.nextRc })

/-! ## Codec and frame buffer -/

/-- R102, in the order of its checks, with R100's legal range spelled out. The code is the truncated quotient of R101's formula, as an
integer that fits the result word without wrapping. -/
def Obligations.F2xResult : Prop :=
  ∀ (s : State) (n : BitVec 8) (v lo hi : F), Ready s →
    ((n.toNat = 0 ∨ 16 < n.toNat) → exec (.f2x n v lo hi) s = .next (raised 4 s)) ∧
    (1 ≤ n.toNat → n.toNat ≤ 16 → ¬RangeLegal lo hi →
      exec (.f2x n v lo hi) s = .next (raised 2 s)) ∧
    (1 ≤ n.toNat → n.toNat ≤ 16 → RangeLegal lo hi → isNaN v = true →
      exec (.f2x n v lo hi) s = .refused .nanOperand) ∧
    (1 ≤ n.toNat → n.toNat ≤ 16 → RangeLegal lo hi → isNaN v = false →
      ∃ r0 : Word, exec (.f2x n v lo hi) s = .next (answered { r0 := r0 } s) ∧
        (r0.toNat : Int) =
          trunc (fmul (fdiv (fsub (clampR v lo hi) lo) (fsub hi lo)) (ofInt (2 ^ n.toNat - 1))) ∧
        r0.toNat ≤ 2 ^ n.toNat - 1)

/-- R104, in the order of its checks, with R100's legal range spelled out: only the low `n` bits of the code word count. -/
def Obligations.X2fResult : Prop :=
  ∀ (s : State) (n : BitVec 8) (code : Word) (lo hi : F), Ready s →
    ((n.toNat = 0 ∨ 16 < n.toNat) → exec (.x2f n code lo hi) s = .next (raised 4 s)) ∧
    (1 ≤ n.toNat → n.toNat ≤ 16 → ¬RangeLegal lo hi →
      exec (.x2f n code lo hi) s = .next (raised 2 s)) ∧
    (1 ≤ n.toNat → n.toNat ≤ 16 → RangeLegal lo hi →
      exec (.x2f n code lo hi) s = .next (answered
        { r0 := fadd lo (fmul (fdiv (ofInt (code.toNat % 2 ^ n.toNat : Nat))
            (ofInt (2 ^ n.toNat - 1))) (fsub hi lo)) } s))

/-- R105 (a): both endpoints of every legal range map exactly, at every legal width. -/
def Obligations.F2xEndpointsExact : Prop :=
  ∀ (lo hi : F) (n : Nat), RangeLegal lo hi → 1 ≤ n → n ≤ 16 →
    f2x lo lo hi n = 0 ∧ f2x hi lo hi n = 2 ^ n - 1

/-- R105 (b), (c): values outside the range, infinities included, map as the nearer end, and the map
is monotonic in the order of float values. -/
def Obligations.F2xClampsAndIsMonotonic : Prop :=
  ∀ (lo hi v w : F) (n : Nat), RangeLegal lo hi → 1 ≤ n → n ≤ 16 →
    isNaN v = false → isNaN w = false →
    (fge v hi = true → f2x v lo hi n = f2x hi lo hi n) ∧
    (fge lo v = true → f2x v lo hi n = f2x lo lo hi n) ∧
    (fge w v = true → f2x v lo hi n ≤ f2x w lo hi n)

/-- R103: code 0 decodes to `lo` in value, and the largest code of a symmetric range to its upper
end. -/
def Obligations.X2fEndpointsOfSymmetricRange : Prop :=
  ∀ (hi : F) (n : Nat), RangeLegal (fneg hi) hi → 1 ≤ n → n ≤ 16 →
    x2f 0 (fneg hi) hi n = fneg hi ∧ x2f (2 ^ n - 1) (fneg hi) hi n = hi

/-- R106: `APP16` appends the two bytes of its operand at the cursor, the most significant first, or
is refused past the eighth byte; no other byte and no other state changes. -/
def Obligations.App16Result : Prop :=
  ∀ (s : State) (v : BitVec 16), Ready s → Memory.wf s.fb = true →
    (8 < s.cur.toNat + 2 → exec (.app16 v) s = .refused .fbOverrun) ∧
    (s.cur.toNat + 2 ≤ 8 → ∃ t, exec (.app16 v) s = .next t ∧
      t.cur.toNat = s.cur.toNat + 2 ∧
      t.fbByte s.cur.toNat = BitVec.ofNat 8 (v.toNat / 2 ^ 8) ∧
      t.fbByte (s.cur.toNat + 1) = BitVec.ofNat 8 v.toNat ∧
      (∀ i, i < s.cur.toNat ∨ s.cur.toNat + 2 ≤ i → t.fbByte i = s.fbByte i) ∧
      t = { answered {} s with fb := t.fb, cur := t.cur })

/-- R107: the same for the four bytes of `APP32`, at any cursor from 0 to 4. -/
def Obligations.App32Result : Prop :=
  ∀ (s : State) (v : BitVec 32), Ready s → Memory.wf s.fb = true →
    (8 < s.cur.toNat + 4 → exec (.app32 v) s = .refused .fbOverrun) ∧
    (s.cur.toNat + 4 ≤ 8 → ∃ t, exec (.app32 v) s = .next t ∧
      t.cur.toNat = s.cur.toNat + 4 ∧
      t.fbByte s.cur.toNat = BitVec.ofNat 8 (v.toNat / 2 ^ 24) ∧
      t.fbByte (s.cur.toNat + 1) = BitVec.ofNat 8 (v.toNat / 2 ^ 16) ∧
      t.fbByte (s.cur.toNat + 2) = BitVec.ofNat 8 (v.toNat / 2 ^ 8) ∧
      t.fbByte (s.cur.toNat + 3) = BitVec.ofNat 8 v.toNat ∧
      (∀ i, i < s.cur.toNat ∨ s.cur.toNat + 4 ≤ i → t.fbByte i = s.fbByte i) ∧
      t = { answered {} s with fb := t.fb, cur := t.cur })

/-- R108: `FBRST` zeroes the eight bytes and the cursor and changes nothing else. -/
def Obligations.FbrstResult : Prop :=
  ∀ (s : State), Ready s → ∃ t, exec .fbrst s = .next t ∧ (∀ i, i < 8 → t.fbByte i = 0) ∧
    t.cur = 0 ∧ t = { answered {} s with fb := t.fb, cur := t.cur }

/-- R109: `FBRD` returns all eight bytes, the lower-numbered in the higher bits, and the cursor; the
state does not change. -/
def Obligations.FbrdResult : Prop :=
  ∀ (s : State), Ready s → ∃ r0 r1 r2 : Word,
    exec .fbrd s = .next (answered { r0 := r0, r1 := r1, r2 := r2 } s) ∧
    r0.toNat = (s.fbByte 0).toNat * 2 ^ 24 + (s.fbByte 1).toNat * 2 ^ 16 +
      (s.fbByte 2).toNat * 2 ^ 8 + (s.fbByte 3).toNat ∧
    r1.toNat = (s.fbByte 4).toNat * 2 ^ 24 + (s.fbByte 5).toNat * 2 ^ 16 +
      (s.fbByte 6).toNat * 2 ^ 8 + (s.fbByte 7).toNat ∧
    r2.toNat = s.cur.toNat

/-- Two 32-bit appends after `FBRST` are what `FBRD` reads back (R41, R42, R108, R109). -/
def Obligations.AppendsReadBack : Prop :=
  ∀ (s : State) (v w : BitVec 32), Ready s →
    ∃ t1 t2 t3, exec .fbrst s = .next t1 ∧ exec (.app32 v) t1 = .next t2 ∧
      exec (.app32 w) t2 = .next t3 ∧
      exec .fbrd t3 = .next (answered { r0 := v, r1 := w, r2 := 8 } t3)

/-! ## Servo encoder -/

/-- R123 to R127: kind, clamp and scale of the five float commands; each sends one extended frame of
four bytes, big-endian, with identifier address + 256 × kind, or refuses NaN. -/
def Obligations.ServoFloatCommandsSendFrames : Prop :=
  ∀ (s : State) (a : BitVec 8) (x : F), Ready s →
    (isNaN x = true →
      exec (.svduty a x) s = .refused .nanOperand ∧ exec (.svcur a x) s = .refused .nanOperand ∧
      exec (.svbrk a x) s = .refused .nanOperand ∧ exec (.svrpm a x) s = .refused .nanOperand ∧
      exec (.svpos a x) s = .refused .nanOperand) ∧
    (isNaN x = false →
      exec (.svduty a x) s = .next (sent (a.toNat + 256 * 0) 1 (ser32 (BitVec.ofInt 32
        (trunc (fmul (clampR x (ofInt (-1)) (ofInt 1)) (ofInt 100000))))) s) ∧
      exec (.svcur a x) s = .next (sent (a.toNat + 256 * 1) 1 (ser32 (BitVec.ofInt 32
        (trunc (fmul (clampR x (ofInt (-60000)) (ofInt 60000)) (ofInt 1000))))) s) ∧
      exec (.svbrk a x) s = .next (sent (a.toNat + 256 * 2) 1 (ser32 (BitVec.ofInt 32
        (trunc (fmul (clampR x (ofInt (-60000)) (ofInt 60000)) (ofInt 1000))))) s) ∧
      exec (.svrpm a x) s = .next (sent (a.toNat + 256 * 3) 1 (ser32 (BitVec.ofInt 32
        (trunc (clampR x (ofInt (-100000)) (ofInt 100000))))) s) ∧
      exec (.svpos a x) s = .next (sent (a.toNat + 256 * 4) 1 (ser32 (BitVec.ofInt 32
        (trunc (fmul (clampR x (ofInt (-36000)) (ofInt 36000)) (ofInt 10000))))) s))

/-- R128: `SVORG` sends the empty frame of kind 5, the same for every mode; the reserved mode 3 is
`ILLEGAL_COMMAND`. -/
def Obligations.SvorgSendsNoMode : Prop :=
  ∀ (s : State) (a : BitVec 8) (mode : BitVec 2), Ready s →
    (mode = 3 → exec (.svorg a mode) s = .next (raised 1 s)) ∧
    (mode ≠ 3 → exec (.svorg a mode) s = .next (sent (a.toNat + 256 * 5) 1 [] s))

/-- R129: `SVPSA` sends position, velocity and the acceleration bounded from above, or refuses a NaN
position and an acceleration below -32768. -/
def Obligations.SvpsaResult : Prop :=
  ∀ (s : State) (a : BitVec 8) (x : F) (spd : BitVec 16) (acc : BitVec 32), Ready s →
    (isNaN x = true → exec (.svpsa a x spd acc) s = .refused .nanOperand) ∧
    (isNaN x = false → acc.toInt < -32768 →
      exec (.svpsa a x spd acc) s = .refused .accBelowInt16) ∧
    (isNaN x = false → -32768 ≤ acc.toInt → ∃ acc' : BitVec 16,
      acc'.toInt = min acc.toInt 32767 ∧
      exec (.svpsa a x spd acc) s = .next (sent (a.toNat + 256 * 6) 1 (ser32 (BitVec.ofInt 32
        (trunc (fmul (clampR x (ofInt (-36000)) (ofInt 36000)) (ofInt 10000)))) ++
          ser16 spd ++ ser16 acc') s))

/-- R122: after clamping no scaled value leaves its bound, so none wraps in the 32-bit payload. -/
def Obligations.ServoIntegersFitTheirBounds : Prop :=
  ∀ x : F, isNaN x = false →
    |trunc (fmul (clampR x (ofInt (-1)) (ofInt 1)) (ofInt 100000))| ≤ 100000 ∧
    |trunc (fmul (clampR x (ofInt (-60000)) (ofInt 60000)) (ofInt 1000))| ≤ 60000000 ∧
    |trunc (clampR x (ofInt (-100000)) (ofInt 100000))| ≤ 100000 ∧
    |trunc (fmul (clampR x (ofInt (-36000)) (ofInt 36000)) (ofInt 10000))| ≤ 360000000

/-- R122, R127: a position request at or beyond a bound, an infinity included, is sent as the bound
itself: 360000000 or its negative. -/
def Obligations.SvposClampsBeforeScaling : Prop :=
  ∀ (s : State) (a : BitVec 8) (x : F), Ready s →
    (fge x (ofInt 36000) = true →
      exec (.svpos a x) s = .next (sent (a.toNat + 0x400) 1 [0x15, 0x75, 0x2A, 0x00] s)) ∧
    (fge (ofInt (-36000)) x = true →
      exec (.svpos a x) s = .next (sent (a.toNat + 0x400) 1 [0xEA, 0x8A, 0xD6, 0x00] s))

/-! ## MIT encoder -/

/-- R142 to R144: the three sentinel frames, standard addressing, the raw address as identifier. -/
def Obligations.MitSentinelFrames : Prop :=
  ∀ (s : State) (a : BitVec 8), Ready s →
    exec (.mitent a) s = .next (sent a.toNat 0 [0xFF, 0xFF, 0xFF, 0xFF, 0xFF, 0xFF, 0xFF, 0xFC] s) ∧
    exec (.mitorg a) s = .next (sent a.toNat 0 [0xFF, 0xFF, 0xFF, 0xFF, 0xFF, 0xFF, 0xFF, 0xFE] s) ∧
    exec (.mitext a) s = .next (sent a.toNat 0 [0xFF, 0xFF, 0xFF, 0xFF, 0xFF, 0xFF, 0xFF, 0xFD] s)

/-- R146: `MITCMD` packs the five codes of R141's ranges into one standard frame; model 7 raises
`CFG_MODEL`, before a NaN parameter is refused. `F2xResult` says what `f2x` is on a legal range; on a
model range without a finite span it is a free value (log 4). -/
def Obligations.MitcmdResult : Prop :=
  ∀ (s : State) (a : BitVec 8) (model : BitVec 3) (p v kp kd t : F), Ready s →
    (model = 7 → exec (.mitcmd a model p v kp kd t) s = .next (raised 3 s)) ∧
    (model ≠ 7 → (isNaN p || isNaN v || isNaN kp || isNaN kd || isNaN t) = true →
      exec (.mitcmd a model p v kp kd t) s = .refused .nanOperand) ∧
    (∀ m : Fin 7, model.toNat = m.val →
      (isNaN p || isNaN v || isNaN kp || isNaN kd || isNaN t) = false →
      exec (.mitcmd a model p v kp kd t) s = .next (sent a.toNat 0
        (mitPack
          (BitVec.ofNat 16 (f2x p (fneg (fdiv (ofInt 25) (ofInt 2))) (fdiv (ofInt 25) (ofInt 2)) 16))
          (BitVec.ofNat 12 (f2x v (fneg s.limits[m].vmax) s.limits[m].vmax 12))
          (BitVec.ofNat 12 (f2x kp (ofInt 0) (ofInt 500) 12))
          (BitVec.ofNat 12 (f2x kd (ofInt 0) (ofInt 5) 12))
          (BitVec.ofNat 12 (f2x t (fneg s.limits[m].tmax) s.limits[m].tmax 12))) s))

/-- R72: read as one 64-bit big-endian number the frame is `P ++ V ++ KP ++ KD ++ T`. -/
def Obligations.MitPackIsConcatenation : Prop :=
  ∀ (p : BitVec 16) (v kp kd t : BitVec 12),
    ((mitPack p v kp kd t).foldl (fun n b => 256 * n + b.toNat) 0 =
      p.toNat * 2 ^ 48 + v.toNat * 2 ^ 36 + kp.toNat * 2 ^ 24 + kd.toNat * 2 ^ 12 + t.toNat) ∧
    (mitPack p v kp kd t).length = 8

/-- R146, for every model and every table of limits: five parameters of zero, of either sign, give
position code `7FFF` and gain codes 0. Where the model's two ranges are legal (R100), so that R101
defines their codes, the frame is `7F FF 7F F0 00 00 07 FF`, the lower bounds give the all-zero frame and
the upper bounds the all-ones frame. R5 also admits limits of 2^127 and more, whose ranges have no finite
span: there the velocity and torque codes are free values (log 4). -/
def Obligations.MitcmdCornerFrames : Prop :=
  ∀ (s : State) (a : BitVec 8) (model : BitVec 3) (m : Fin 7) (p v kp kd t : F), Ready s →
    model.toNat = m.val → (∀ x ∈ [p, v, kp, kd, t], x = 0 ∨ x = 0x80000000) →
    (∃ vc tc : BitVec 12, exec (.mitcmd a model p v kp kd t) s =
      .next (sent a.toNat 0 (mitPack 0x7FFF vc 0 0 tc) s)) ∧
    (RangeLegal (fneg s.limits[m].vmax) s.limits[m].vmax →
      RangeLegal (fneg s.limits[m].tmax) s.limits[m].tmax →
      exec (.mitcmd a model p v kp kd t) s =
        .next (sent a.toNat 0 [0x7F, 0xFF, 0x7F, 0xF0, 0x00, 0x00, 0x07, 0xFF] s) ∧
      exec (.mitcmd a model (fneg 0x41480000) (fneg s.limits[m].vmax) 0 0 (fneg s.limits[m].tmax)) s =
        .next (sent a.toNat 0 [0, 0, 0, 0, 0, 0, 0, 0] s) ∧
      exec (.mitcmd a model 0x41480000 s.limits[m].vmax (ofInt 500) (ofInt 5) s.limits[m].tmax) s =
        .next (sent a.toNat 0 [0xFF, 0xFF, 0xFF, 0xFF, 0xFF, 0xFF, 0xFF, 0xFF] s))

/-- R121: the eleven encoders neither read nor write the frame buffer, the cursor, the device table or
the PID contexts: with those replaced, frames, answers and responses come out the same, and the
replaced parts stay as they were. -/
def Obligations.EncodersAreStateless : Prop :=
  ∀ (i : Instr) (s t : State) (fb : Memory) (cur : BitVec 4) (dev : Vector Device 256)
    (pid : List PidCtx),
    i.opcode ∈ [Opcode.svduty, .svcur, .svbrk, .svrpm, .svpos, .svorg, .svpsa, .mitent, .mitorg,
      .mitext, .mitcmd] →
    exec i s = .next t →
      t.fb = s.fb ∧ t.cur = s.cur ∧ t.dev = s.dev ∧ t.pid = s.pid ∧
      exec i { s with fb := fb, cur := cur, dev := dev, pid := pid } =
        .next { t with fb := fb, cur := cur, dev := dev, pid := pid }

/-! ## Telemetry -/

/-- R151, R152, extended format: on either port, a servo frame of a registered device overwrites the
five snapshot fields of that device and nothing else. Multi-byte values are big-endian and signed, as
`signed16` writes out. -/
def Obligations.DecodeRecordsServoFrame : Prop :=
  ∀ (s : State) (a b0 b1 b2 b3 b4 b5 b6 b7 : BitVec 8), s.fault = 0 → (s.device a).valid = true →
    ∃ t, exec (.decode a 1 (b0 ++ b1 ++ b2 ++ b3) (b4 ++ b5 ++ b6 ++ b7)) s = .next t ∧
      t.device a =
        { s.device a with
          pos := fmul (ofInt (signed16 b0 b1)) (fdiv (ofInt 1) (ofInt 10))
          vel := fmul (ofInt (signed16 b2 b3)) (ofInt 10)
          cur := fmul (ofInt (signed16 b4 b5)) (fdiv (ofInt 1) (ofInt 100))
          temp := BitVec.ofInt 16 (if b6.toNat < 128 then b6.toNat else (b6.toNat : Int) - 256)
          err := b7 } ∧
      (∀ b, b ≠ a → t.device b = s.device b) ∧ t = { answered {} s with dev := t.dev }

/-- R151, R152, standard format: the same for an MIT frame, whose fields are scaled with the limits of
the device's model; byte 0 is not read. `X2fResult` says what `x2f` is on a legal range; on a model
range without a finite span it is a free value (log 4). -/
def Obligations.DecodeRecordsMitFrame : Prop :=
  ∀ (s : State) (a b0 b1 b2 b3 b4 b5 b6 b7 : BitVec 8), s.fault = 0 → (s.device a).valid = true →
    ∃ t, exec (.decode a 0 (b0 ++ b1 ++ b2 ++ b3) (b4 ++ b5 ++ b6 ++ b7)) s = .next t ∧
      t.device a =
        { s.device a with
          pos := x2f (b1.toNat * 256 + b2.toNat) 0xC1480000 0x41480000 16
          vel := x2f (b3.toNat * 16 + b4.toNat / 16) (fneg s.limits[(s.device a).model].vmax)
            s.limits[(s.device a).model].vmax 12
          cur := x2f (b4.toNat % 16 * 256 + b5.toNat) (fneg s.limits[(s.device a).model].tmax)
            s.limits[(s.device a).model].tmax 12
          temp := BitVec.ofNat 16 b6.toNat
          err := b7 } ∧
      (∀ b, b ≠ a → t.device b = s.device b) ∧ t = { answered {} s with dev := t.dev }

/-- R154: a frame from an address without a record is dropped silently. -/
def Obligations.DecodeDropsUnknownSource : Prop :=
  ∀ (s : State) (a : BitVec 8) (fmt : BitVec 1) (w0 w1 : Word), s.fault = 0 →
    (s.device a).valid = false → exec (.decode a fmt w0 w1) s = .next (answered {} s)

/-- R50: whatever the receive agent's command is, it changes neither `valid` nor `model` of any
device, no snapshot of an invalid device, no frame-buffer byte, no cursor, no PID context; it sends
nothing, and it changes `FAULT` only to report an illegal command. -/
def Obligations.ReceiveAgentChangesOnlySnapshots : Prop :=
  ∀ (s t : State) (ts : List Turn), s.turns = .command .rx :: ts → step s = .next t →
    (∀ a, (t.device a).valid = (s.device a).valid ∧ (t.device a).model = (s.device a).model ∧
      ((s.device a).valid = false → t.device a = s.device a)) ∧
    t.fb = s.fb ∧ t.cur = s.cur ∧ t.pid = s.pid ∧ t.limits = s.limits ∧ t.frames = s.frames ∧
    t.answers = s.answers ∧ t.fgIn = s.fgIn ∧ (t.fault = s.fault ∨ (s.fault = 0 ∧ t.fault = 1 ∧ t.dev = s.dev))

/-- R157: `TLMRD` reads one field of a registered device with the found bit, answers zeros for any
other address, and changes nothing; fields 5 to 7 are `ILLEGAL_COMMAND`. -/
def Obligations.TlmrdResult : Prop :=
  ∀ (s : State) (a : BitVec 8) (field : BitVec 3), Ready s →
    (5 ≤ field.toNat → exec (.tlmrd a field) s = .next (raised 1 s)) ∧
    (field.toNat ≤ 4 → (s.device a).valid = false →
      exec (.tlmrd a field) s = .next (answered {} s)) ∧
    ((s.device a).valid = true →
      exec (.tlmrd a 0) s = .next (answered { r0 := (s.device a).pos, r1 := 1 } s) ∧
      exec (.tlmrd a 1) s = .next (answered { r0 := (s.device a).vel, r1 := 1 } s) ∧
      exec (.tlmrd a 2) s = .next (answered { r0 := (s.device a).cur, r1 := 1 } s) ∧
      exec (.tlmrd a 3) s = .next (answered
        { r0 := BitVec.ofInt 32 (s.device a).temp.toInt, r1 := 1 } s) ∧
      exec (.tlmrd a 4) s = .next (answered
        { r0 := BitVec.ofNat 32 (s.device a).err.toNat, r1 := 1 } s))

/-- R158: `TLMSNAP` reads all five fields of one state; bit 8 of `R4` is the found bit. -/
def Obligations.TlmsnapResult : Prop :=
  ∀ (s : State) (a : BitVec 8), Ready s →
    ((s.device a).valid = false → exec (.tlmsnap a) s = .next (answered {} s)) ∧
    ((s.device a).valid = true → exec (.tlmsnap a) s = .next (answered
      { r0 := (s.device a).pos, r1 := (s.device a).vel, r2 := (s.device a).cur
        r3 := BitVec.ofInt 32 (s.device a).temp.toInt
        r4 := BitVec.ofNat 32 (256 + (s.device a).err.toNat) } s))

/-! ## Registry -/

/-- R172: registration, conflict, unknown model (checked before the conflict). -/
def Obligations.DevregResult : Prop :=
  ∀ (s : State) (a : BitVec 8) (model : BitVec 3), Ready s →
    (model = 7 → exec (.devreg a model) s = .next (raised 3 s)) ∧
    (model ≠ 7 → (s.device a).valid = true →
      exec (.devreg a model) s = .next (answered { r0 := BitVec.ofNat 32 (256 + a.toNat) } s)) ∧
    (∀ m : Fin 7, model.toNat = m.val → (s.device a).valid = false →
      ∃ t, exec (.devreg a model) s = .next t ∧
        t.device a =
          { valid := true, model := m, pos := 0, vel := 0, cur := 0, temp := 0, err := 0 } ∧
        (∀ b, b ≠ a → t.device b = s.device b) ∧
        t = { answered { r0 := BitVec.ofNat 32 a.toNat } s with dev := t.dev })

/-- R173: a conflict handle is a no-op; a plain handle makes the record invalid, also when it already
was, and leaves its other fields. -/
def Obligations.DevunregResult : Prop :=
  ∀ (s : State) (a : BitVec 8), Ready s →
    exec (.devunreg a 1) s = .next (answered {} s) ∧
    (∃ t, exec (.devunreg a 0) s = .next t ∧ t.device a = { s.device a with valid := false } ∧
      (∀ b, b ≠ a → t.device b = s.device b) ∧ t = { answered {} s with dev := t.dev })

/-- R174: `DEVFIND` answers found and model, and changes nothing. -/
def Obligations.DevfindResult : Prop :=
  ∀ (s : State) (a : BitVec 8), Ready s →
    ((s.device a).valid = true → exec (.devfind a) s = .next (answered
      { r0 := 1, r1 := BitVec.ofNat 32 (s.device a).model.val } s)) ∧
    ((s.device a).valid = false → exec (.devfind a) s = .next (answered {} s))

/-- R175: after two registrations of one address the first record stands: the second answers the
conflict handle, and unregistering that handle changes no device, so the device still is found with
the first model. -/
def Obligations.ConflictingRegistrationIsNoOp : Prop :=
  ∀ (s : State) (a : BitVec 8) (model model' : BitVec 3), Ready s → model ≠ 7 → model' ≠ 7 →
    (s.device a).valid = false →
    ∃ t1 t2 t3, exec (.devreg a model) s = .next t1 ∧ exec (.devreg a model') t1 = .next t2 ∧
      t2.responses = (.fg, { r0 := BitVec.ofNat 32 (256 + a.toNat) }) :: t1.responses ∧
      exec (.devunreg a 1) t2 = .next t3 ∧ t2.dev = t1.dev ∧ t3.dev = t1.dev ∧
      exec (.devfind a) t3 =
        .next (answered { r0 := 1, r1 := BitVec.ofNat 32 model.toNat } t3)

/-! ## PID -/

/-- R183: `PIDINIT` writes every field of its context, and faults on an index not below `N_PID`, then
on a limit that is NaN or negative (`-0.0` is accepted). -/
def Obligations.PidinitResult : Prop :=
  ∀ (s : State) (p : BitVec 8) (variant : BitVec 1) (mo il db me kp ki kd : F), Ready s →
    (s.pid.length ≤ p.toNat →
      exec (.pidinit p variant mo il db me kp ki kd) s = .next (raised 1 s)) ∧
    (p.toNat < s.pid.length →
      (isNaN mo = true ∨ flt mo 0 = true ∨ isNaN il = true ∨ flt il 0 = true) →
      exec (.pidinit p variant mo il db me kp ki kd) s = .next (raised 5 s)) ∧
    (p.toNat < s.pid.length → isNaN mo = false → flt mo 0 = false → isNaN il = false →
      flt il 0 = false →
      exec (.pidinit p variant mo il db me kp ki kd) s = .next
        { answered {} s with
          pid := s.pid.set p.toNat
            { inited := true, variant := if variant = 1 then .incremental else .positional,
              maxOut := mo, intLim := il, deadBand := db, maxErr := me, kp := kp, ki := ki,
              kd := kd, set := ⟨0, 0, 0⟩, get := ⟨0, 0, 0⟩, err := ⟨0, 0, 0⟩, pout := 0,
              iout := 0, dout := 0, posOut := 0, lastPosOut := 0, deltaU := 0, deltaOut := 0,
              deltaLastout := 0 } })

/-- R180: the three operations on a constructed controller raise `ILLEGAL_COMMAND` on an index not
below `N_PID` and `PID_UNINIT` on a context not initialised. -/
def Obligations.PidOperationsNeedInit : Prop :=
  ∀ (s : State) (p : BitVec 8) (x y z : F), Ready s →
    (s.pid.length ≤ p.toNat →
      exec (.pidgain p x y z) s = .next (raised 1 s) ∧ exec (.pidclr p) s = .next (raised 1 s) ∧
      exec (.pidcalc p x y) s = .next (raised 1 s)) ∧
    (∀ c, s.pid[p.toNat]? = some c → c.inited = false →
      exec (.pidgain p x y z) s = .next (raised 6 s) ∧ exec (.pidclr p) s = .next (raised 6 s) ∧
      exec (.pidcalc p x y) s = .next (raised 6 s))

/-- R184, R185: `PIDGAIN` replaces the three gains only; `PIDCLR` zeroes the histories and all
outputs and keeps gains and configuration. -/
def Obligations.PidgainAndPidclrResult : Prop :=
  ∀ (s : State) (p : BitVec 8) (c : PidCtx) (kp ki kd : F), Ready s →
    s.pid[p.toNat]? = some c → c.inited = true →
    exec (.pidgain p kp ki kd) s = .next
      { answered {} s with pid := s.pid.set p.toNat { c with kp := kp, ki := ki, kd := kd } } ∧
    exec (.pidclr p) s = .next
      { answered {} s with
        pid := s.pid.set p.toNat
          { c with
            set := ⟨0, 0, 0⟩, get := ⟨0, 0, 0⟩, err := ⟨0, 0, 0⟩, pout := 0, iout := 0, dout := 0,
            posOut := 0, lastPosOut := 0, deltaU := 0, deltaOut := 0, deltaLastout := 0 } }

/-- R187 to R190: a gated call records target, measured value and error in the `NOW` slots, returns
+0.0 and changes nothing else: no output, no accumulator, no shift. Both gates are strict. -/
def Obligations.PidcalcGatedKeepsHistory : Prop :=
  ∀ (s : State) (p : BitVec 8) (c : PidCtx) (target measured : F), Ready s →
    s.pid[p.toNat]? = some c → c.inited = true →
    (fne c.maxErr 0 = true ∧ fgt (fabs (fsub target measured)) c.maxErr = true ∨
      fne c.deadBand 0 = true ∧ flt (fabs (fsub target measured)) c.deadBand = true) →
    exec (.pidcalc p target measured) s = .next
      { answered { r0 := 0 } s with
        pid := s.pid.set p.toNat
          { c with
            set := { c.set with now := target }, get := { c.get with now := measured }
            err := { c.err with now := fsub target measured } } }

/-- R187, R191, R193 to R195: a call of a positional controller that neither gate stops. -/
def Obligations.PidcalcPositionalResult : Prop :=
  ∀ (s : State) (p : BitVec 8) (c : PidCtx) (target measured e pout iout dout out : F), Ready s →
    s.pid[p.toNat]? = some c → c.inited = true → c.variant = .positional →
    e = fsub target measured →
    (feq c.maxErr 0 = true ∨ fgt (fabs e) c.maxErr = false) →
    (feq c.deadBand 0 = true ∨ flt (fabs e) c.deadBand = false) →
    pout = fmul c.kp e →
    iout = clampS (fadd c.iout (fmul c.ki e)) c.intLim →
    dout = fmul c.kd (fsub e c.err.last) →
    out = clampS (fadd (fadd pout iout) dout) c.maxOut →
    exec (.pidcalc p target measured) s = .next
      { answered { r0 := out } s with
        pid := s.pid.set p.toNat
          { c with
            set := ⟨c.set.last, target, target⟩, get := ⟨c.get.last, measured, measured⟩
            err := ⟨c.err.last, e, e⟩, pout := pout, iout := iout, dout := dout
            posOut := out, lastPosOut := out } }

/-- R187, R192 to R195: the same of an incremental controller. -/
def Obligations.PidcalcIncrementalResult : Prop :=
  ∀ (s : State) (p : BitVec 8) (c : PidCtx) (target measured e pout iout dout du out : F), Ready s →
    s.pid[p.toNat]? = some c → c.inited = true → c.variant = .incremental →
    e = fsub target measured →
    (feq c.maxErr 0 = true ∨ fgt (fabs e) c.maxErr = false) →
    (feq c.deadBand 0 = true ∨ flt (fabs e) c.deadBand = false) →
    pout = fmul c.kp (fsub e c.err.last) →
    iout = clampS (fmul c.ki e) c.intLim →
    dout = fmul c.kd (fadd (fsub e (fmul (ofInt 2) c.err.last)) c.err.llast) →
    du = fadd (fadd pout iout) dout →
    out = clampS (fadd c.deltaLastout du) c.maxOut →
    exec (.pidcalc p target measured) s = .next
      { answered { r0 := out } s with
        pid := s.pid.set p.toNat
          { c with
            set := ⟨c.set.last, target, target⟩, get := ⟨c.get.last, measured, measured⟩
            err := ⟨c.err.last, e, e⟩, pout := pout, iout := iout, dout := dout
            deltaU := du, deltaOut := out, deltaLastout := out } }

/-- R196 with its premise: a pure proportional incremental controller, cleared and not gated, answers
the second of two identical calls with the value of the first (compared by value). The error doubled
and the gain must be finite. -/
def Obligations.ProportionalIncrementalIsSteady : Prop :=
  ∀ (s : State) (p : BitVec 8) (kp mo il target measured : F), Ready s → p.toNat < s.pid.length →
    pidLimitOk mo = true → pidLimitOk il = true → isFinite kp = true →
    isFinite (fmul (ofInt 2) (fsub target measured)) = true →
    ∃ t0 t1 t2 r1 r2, exec (.pidinit p 1 mo il 0 0 kp 0 0) s = .next t0 ∧
      exec (.pidcalc p target measured) t0 = .next t1 ∧
      exec (.pidcalc p target measured) t1 = .next t2 ∧
      t1.responses = (.fg, { r0 := r1 }) :: t0.responses ∧
      t2.responses = (.fg, { r0 := r2 }) :: t1.responses ∧ feq r1 r2 = true

/-- R31: an operation on one PID context reads and writes that context only: it leaves the frame
buffer, the cursor, the device table and every other context as they were, and with all of those
replaced everything else comes out the same. -/
def Obligations.PidContextsAreIndependent : Prop :=
  ∀ (i : Instr) (s t : State) (p : BitVec 8) (pid' : List PidCtx) (fb : Memory) (cur : BitVec 4)
    (dev : Vector Device 256),
    (i.opcode = .pidinit ∨ i.opcode = .pidgain ∨ i.opcode = .pidclr ∨ i.opcode = .pidcalc) →
    hP ((encode i).headD 0) = p →
    pid'.length = s.pid.length → pid'[p.toNat]? = s.pid[p.toNat]? → exec i s = .next t →
      (∀ q, q ≠ p.toNat → t.pid[q]? = s.pid[q]?) ∧
      t.fb = s.fb ∧ t.cur = s.cur ∧ t.dev = s.dev ∧ t.frames = s.frames ∧
      ∃ pid'', exec i { s with pid := pid', fb := fb, cur := cur, dev := dev } =
          .next { t with pid := pid'', fb := fb, cur := cur, dev := dev } ∧
        pid''[p.toNat]? = t.pid[p.toNat]? ∧ (∀ q, q ≠ p.toNat → pid''[q]? = pid'[q]?)

/-- R198: a call with a NaN target or measured value is not gated, returns NaN and shifts the
histories; in the positional variant the accumulator becomes NaN, and a NaN accumulator stays NaN and
makes the output NaN in every later call that is not gated. -/
def Obligations.NanInPidIsNeverGated : Prop :=
  ∀ (s : State) (p : BitVec 8) (c : PidCtx) (target measured : F), Ready s →
    s.pid[p.toNat]? = some c → c.inited = true →
    ((isNaN target = true ∨ isNaN measured = true) →
      ∃ t r c', exec (.pidcalc p target measured) s = .next t ∧
        t.responses = (.fg, { r0 := r }) :: s.responses ∧ t.fault = 0 ∧ isNaN r = true ∧
        t.pid[p.toNat]? = some c' ∧ isNaN c'.err.last = true ∧ c'.err.llast = c.err.last ∧
        (c.variant = .positional → isNaN c'.iout = true)) ∧
    (c.variant = .positional → isNaN c.iout = true →
      (feq c.maxErr 0 = true ∨ fgt (fabs (fsub target measured)) c.maxErr = false) →
      (feq c.deadBand 0 = true ∨ flt (fabs (fsub target measured)) c.deadBand = false) →
      ∃ t r c', exec (.pidcalc p target measured) s = .next t ∧
        t.responses = (.fg, { r0 := r }) :: s.responses ∧ isNaN r = true ∧
        t.pid[p.toNat]? = some c' ∧ isNaN c'.iout = true)

/-! ## The invariant and the arithmetic -/

/-- Every step, from every state that meets the invariant, keeps it. The canonical list is the form of
log 13; that the table of limits is legal is R5's constraint on the parameter, which is a field that no
step writes (log 3). -/
def Obligations.EveryStepKeepsInvariant : Prop :=
  ∀ s t : State, State.Inv s → step s = .next t → State.Inv t

/-- R7, the default `NUM` (log 1): each of the four operations on finite operands answers the exact result
rounded once, to nearest, ties to even, with overflow to infinity. -/
def Obligations.ArithmeticRoundsOnce : Prop :=
  ∀ a b : F, isFinite a = true → isFinite b = true →
    RoundsTo (realValue a + realValue b) (fadd a b) ∧
    RoundsTo (realValue a - realValue b) (fsub a b) ∧
    RoundsTo (realValue a * realValue b) (fmul a b) ∧
    (realValue b ≠ 0 → RoundsTo (realValue a / realValue b) (fdiv a b))

/-- The remaining float functions of R7 and the clamps of R11. On finite values the comparisons, `fabs`
and `fneg` are those of the rational numbers that the encodings stand for, `trunc` discards the fraction
(R10), and the infinities lie beyond every finite value. `ofInt` is exact below 2^24. Each clamp
passes a value within its bounds, and NaN, unchanged, and answers the bound that is passed. What the
signs of zeros and infinities are is IEEE 754's (log 1). -/
def Obligations.ComparisonsAndTruncMatchValues : Prop :=
  (∀ a b : F, isFinite a = true → isFinite b = true →
    (flt a b = true ↔ realValue a < realValue b) ∧ (fgt a b = true ↔ realValue b < realValue a) ∧
    (feq a b = true ↔ realValue a = realValue b) ∧ (fne a b = true ↔ realValue a ≠ realValue b) ∧
    (fge a b = true ↔ realValue b ≤ realValue a) ∧
    trunc a = (if 0 ≤ realValue a then ⌊realValue a⌋ else ⌈realValue a⌉) ∧
    flt a 0x7F800000 = true ∧ flt 0xFF800000 a = true) ∧
  flt 0xFF800000 0x7F800000 = true ∧
  (∀ a b : F, isNaN a = false → isNaN b = false →
    fge a b = (!flt a b) ∧ fgt a b = flt b a ∧ feq a b = (fge a b && fge b a) ∧
    fne a b = !feq a b) ∧
  (∀ a : F, (fabs a).msb = false ∧ (fneg a).msb = !a.msb ∧
    (isFinite a = true → isFinite (fabs a) = true ∧ isFinite (fneg a) = true ∧
      realValue (fabs a) = |realValue a| ∧ realValue (fneg a) = -realValue a) ∧
    (isInf a = true → isInf (fabs a) = true ∧ isInf (fneg a) = true) ∧
    (isNaN a = true → isNaN (fabs a) = true ∧ isNaN (fneg a) = true)) ∧
  (∀ k : Int, |k| < 2 ^ 24 → isFinite (ofInt k) = true ∧ realValue (ofInt k) = k ∧
    (ofInt k).msb = decide (k < 0)) ∧
  (∀ v lo hi : F, flt lo hi = true →
    (flt v lo = true → clampR v lo hi = lo) ∧
    (fge v lo = true → fge hi v = true → clampR v lo hi = v) ∧
    (flt hi v = true → clampR v lo hi = hi) ∧
    (isNaN v = true → clampR v lo hi = v)) ∧
  (∀ x l : F, fge l 0 = true →
    (flt x (fneg l) = true → clampS x l = fneg l) ∧
    (fge x (fneg l) = true → fge l x = true → clampS x l = x) ∧
    (flt l x = true → clampS x l = l) ∧
    (isNaN x = true → clampS x l = x))

/-- A NaN operand makes every comparison false but `!=`, and every result of the four operations
NaN, whatever its free bit pattern is (log 2). -/
def Obligations.NanPropagates : Prop :=
  ∀ a b : F, (isNaN a = true ∨ isNaN b = true) →
    flt a b = false ∧ fgt a b = false ∧ fge a b = false ∧ feq a b = false ∧ fne a b = true ∧
    isNaN (fadd a b) = true ∧ isNaN (fsub a b) = true ∧ isNaN (fmul a b) = true ∧
    isNaN (fdiv a b) = true
end

