-- ==== Sys2Proof/Laws/Binary32.lean ====
section
/-! SUPPORT. What the float operations do, once each: the fields of an encoding, the exact value a
magnitude stands for, rounding, comparison keys. -/

namespace Sys2Proof.Machine

/-! ## Fields -/

/-- The magnitude bits are 31 bits. -/
theorem fmag_lt (x : F) : fmag x < 2 ^ 31 := Nat.mod_lt _ (by decide)

/-- A word as its sign and magnitude. -/
theorem toNat_eq_sign_mag (x : F) : x.toNat = (if fsign x then 2 ^ 31 else 0) + fmag x := by
  have hx := x.isLt
  have hs : fsign x = decide (2 ^ 31 ≤ x.toNat) := by
    rw [fsign, ← BitVec.msb_eq_getLsbD_last, BitVec.msb_eq_decide]
  rw [hs]
  unfold fmag
  by_cases h : 2 ^ 31 ≤ x.toNat
  · simp only [h, decide_true, if_true]; omega
  · simp only [h, decide_false]; simp; omega

/-- Two words with the same sign and magnitude are one. -/
theorem eq_of_sign_mag {x y : F} (hs : fsign x = fsign y) (hm : fmag x = fmag y) : x = y :=
  BitVec.eq_of_toNat_eq (by rw [toNat_eq_sign_mag, toNat_eq_sign_mag y, hs, hm])

theorem toNat_ofSignMag {neg : Bool} {m : Nat} (h : m < 2 ^ 31) :
    (ofSignMag neg m).toNat = (if neg then 2 ^ 31 else 0) + m := by
  cases neg <;> simp only [ofSignMag, BitVec.toNat_ofNat] <;> simp <;> omega

@[simp] theorem fmag_ofSignMag {neg : Bool} {m : Nat} (h : m < 2 ^ 31) :
    fmag (ofSignMag neg m) = m := by
  rw [fmag, toNat_ofSignMag h]
  cases neg <;> simp <;> omega

@[simp] theorem fsign_ofSignMag {neg : Bool} {m : Nat} (h : m < 2 ^ 31) :
    fsign (ofSignMag neg m) = neg := by
  rw [fsign, ← BitVec.msb_eq_getLsbD_last, BitVec.msb_eq_decide, toNat_ofSignMag h]
  cases neg <;> simp; omega

/-- The NaN an operation answers is a NaN, whatever its free pattern. -/
@[simp] theorem isNaN_nanResult (op : FloatOp) (a b : F) : isNaN (nanResult op a b) = true := by
  unfold nanResult
  split
  · assumption
  · decide

/-- Float negation keeps the magnitude. -/
@[simp] theorem fmag_fneg (x : F) : fmag (fneg x) = fmag x := by
  have h : ∀ i, i < 31 → (fneg x).getLsbD i = x.getLsbD i := by
    intro i hi
    rw [fneg, BitVec.getLsbD_xor, show (0x80000000 : F).getLsbD i = false from by
      interval_cases i <;> rfl, Bool.xor_false]
  unfold fmag
  apply Nat.eq_of_testBit_eq
  intro i
  rw [Nat.testBit_mod_two_pow, Nat.testBit_mod_two_pow]
  by_cases hi : i < 31
  · simpa [hi, BitVec.getLsbD] using h i hi
  · simp [hi]

/-- Float negation inverts the sign. -/
@[simp] theorem fsign_fneg (x : F) : fsign (fneg x) = !fsign x := by
  rw [fsign, fsign, fneg, BitVec.getLsbD_xor]
  cases x.getLsbD 31 <;> rfl

@[simp] theorem fneg_fneg (x : F) : fneg (fneg x) = x := eq_of_sign_mag (by simp) (by simp)

/-- `fabs` keeps the magnitude and clears the sign. -/
@[simp] theorem fmag_fabs (x : F) : fmag (fabs x) = fmag x := by
  have h : ∀ i, i < 31 → (fabs x).getLsbD i = x.getLsbD i := by
    intro i hi
    rw [fabs, BitVec.getLsbD_and, show (0x7FFFFFFF : F).getLsbD i = true from by
      interval_cases i <;> rfl, Bool.and_true]
  unfold fmag
  apply Nat.eq_of_testBit_eq
  intro i
  rw [Nat.testBit_mod_two_pow, Nat.testBit_mod_two_pow]
  by_cases hi : i < 31
  · simpa [hi, BitVec.getLsbD] using h i hi
  · simp [hi]

@[simp] theorem fsign_fabs (x : F) : fsign (fabs x) = false := by
  rw [fsign, fabs, BitVec.getLsbD_and, show (0x7FFFFFFF : F).getLsbD 31 = false from rfl,
    Bool.and_false]

@[simp] theorem isNaN_fneg (x : F) : isNaN (fneg x) = isNaN x := by simp [isNaN]
@[simp] theorem isInf_fneg (x : F) : isInf (fneg x) = isInf x := by simp [isInf]
@[simp] theorem isZero_fneg (x : F) : isZero (fneg x) = isZero x := by simp [isZero]
@[simp] theorem isFinite_fneg (x : F) : isFinite (fneg x) = isFinite x := by simp [isFinite]
@[simp] theorem isNaN_fabs (x : F) : isNaN (fabs x) = isNaN x := by simp [isNaN]
@[simp] theorem orderKey_fneg (x : F) : orderKey (fneg x) = -orderKey x := by
  unfold orderKey
  cases h : fsign x <;> simp [h]

/-! ## The value of a magnitude -/

/-- The units of 2^-149 that magnitude bits stand for; one step above the largest finite magnitude is
the magnitude of infinity, here 2^128 in value. -/
def magUnits (m : Nat) : Nat :=
  if m / 2 ^ 23 = 0 then m % 2 ^ 23 else (2 ^ 23 + m % 2 ^ 23) * 2 ^ (m / 2 ^ 23 - 1)

theorem scaled_eq_magUnits (x : F) : scaled x = magUnits (fmag x) := rfl

/-- The magnitude whose significand is `q` and whose exponent field is `sh + 1` (or 0): it stands for
`q * 2^sh` units. A significand of 2^24 carries into the exponent. -/
theorem magUnits_shift {sh q : Nat} (h1 : sh = 0 ∨ 2 ^ 23 ≤ q) (h2 : q ≤ 2 ^ 24) :
    magUnits (sh * 2 ^ 23 + q) = q * 2 ^ sh := by
  unfold magUnits
  rcases Nat.lt_or_ge q (2 ^ 23) with hq | hq
  · have h0 : sh = 0 := by omega
    subst h0
    rw [show (0 * 2 ^ 23 + q) / 2 ^ 23 = 0 by omega, if_pos rfl]
    omega
  · rcases Nat.lt_or_ge q (2 ^ 24) with hq' | hq'
    · rw [show (sh * 2 ^ 23 + q) / 2 ^ 23 = sh + 1 by omega, if_neg (by omega),
        show (sh * 2 ^ 23 + q) % 2 ^ 23 = q - 2 ^ 23 by omega, show 2 ^ 23 + (q - 2 ^ 23) = q by omega]
      rfl
    · have he : q = 2 ^ 24 := by omega
      subst he
      rw [show (sh * 2 ^ 23 + 2 ^ 24) / 2 ^ 23 = sh + 2 by omega, if_neg (by omega),
        show (sh * 2 ^ 23 + 2 ^ 24) % 2 ^ 23 = 0 by omega, show sh + 2 - 1 = sh + 1 by omega,
        Nat.pow_succ]
      omega

/-- The next magnitude is worth more. -/
theorem magUnits_lt_succ (m : Nat) : magUnits m < magUnits (m + 1) := by
  have key : ∀ sh q, (sh = 0 ∨ 2 ^ 23 ≤ q) → q < 2 ^ 24 →
      magUnits (sh * 2 ^ 23 + q) < magUnits (sh * 2 ^ 23 + q + 1) := by
    intro sh q h1 h2
    rw [Nat.add_assoc, magUnits_shift h1 (by omega), magUnits_shift (by omega) (by omega)]
    exact Nat.mul_lt_mul_of_pos_right (Nat.lt_succ_self q) (Nat.two_pow_pos sh)
  rcases Nat.eq_zero_or_pos (m / 2 ^ 23) with h | h
  · have := key 0 m (Or.inl rfl) (by omega)
    simpa using this
  · have := key (m / 2 ^ 23 - 1) (m % 2 ^ 23 + 2 ^ 23) (Or.inr (by omega)) (by omega)
    rwa [show (m / 2 ^ 23 - 1) * 2 ^ 23 + (m % 2 ^ 23 + 2 ^ 23) = m by omega] at this

/-- Larger magnitude bits are worth more. -/
theorem magUnits_strictMono : StrictMono magUnits := strictMono_nat_of_lt_succ magUnits_lt_succ

/-! ## Rounding -/

/-- All that `roundMag` does: `n / d` units lie between a magnitude and the next, and the nearer of
the two is the result, the even one where they are equally near, or infinity's magnitude. -/
theorem roundMag_spec (n : Nat) {d : Nat} (hd : 0 < d) :
    ∃ m, magUnits m * d ≤ n ∧ n < magUnits (m + 1) * d ∧
      roundMag n d = min (if (magUnits m + magUnits (m + 1)) * d < 2 * n ∨
        ((magUnits m + magUnits (m + 1)) * d = 2 * n ∧ m % 2 = 1) then m + 1 else m) infMag := by
  obtain ⟨sh, hsh⟩ : ∃ sh, sh = Nat.log2 (n / d) - 23 := ⟨_, rfl⟩
  have hpos : 0 < 2 ^ sh := Nat.two_pow_pos sh
  have hD : 0 < d * 2 ^ sh := Nat.mul_pos hd hpos
  obtain ⟨q, hq⟩ : ∃ q, q = n / (d * 2 ^ sh) := ⟨_, rfl⟩
  have hqd : q = n / d / 2 ^ sh := by rw [hq, Nat.div_div_eq_div_mul]
  have hq2 : q < 2 ^ 24 := by
    rw [hqd, Nat.div_lt_iff_lt_mul hpos, ← Nat.pow_add]
    refine lt_of_lt_of_le Nat.lt_log2_self (Nat.pow_le_pow_right (by decide) (by omega))
  have hq1 : sh = 0 ∨ 2 ^ 23 ≤ q := by
    rcases Nat.eq_zero_or_pos sh with h | h
    · exact Or.inl h
    · right
      have hne : n / d ≠ 0 := by
        intro h0
        rw [h0] at hsh
        simp at hsh
        omega
      rw [hqd, Nat.le_div_iff_mul_le hpos, ← Nat.pow_add]
      exact le_trans (Nat.pow_le_pow_right (by decide) (by omega)) (Nat.log2_self_le hne)
  have e0 : magUnits (sh * 2 ^ 23 + q) = q * 2 ^ sh := magUnits_shift hq1 (by omega)
  have e1 : magUnits (sh * 2 ^ 23 + q + 1) = (q + 1) * 2 ^ sh := by
    rw [Nat.add_assoc]
    exact magUnits_shift (by omega) (by omega)
  have hdm : d * 2 ^ sh * q + n % (d * 2 ^ sh) = n := by rw [hq]; exact Nat.div_add_mod n _
  have hr : n % (d * 2 ^ sh) < d * 2 ^ sh := Nat.mod_lt _ hD
  refine ⟨sh * 2 ^ 23 + q, ?_, ?_, ?_⟩
  · rw [e0, show q * 2 ^ sh * d = d * 2 ^ sh * q by ring]
    omega
  · rw [e1, show (q + 1) * 2 ^ sh * d = d * 2 ^ sh * q + d * 2 ^ sh by ring]
    omega
  · have h2 : (q * 2 ^ sh + (q + 1) * 2 ^ sh) * d = 2 * (d * 2 ^ sh * q) + d * 2 ^ sh := by ring
    unfold roundMag
    simp only [← hsh, ← hq]
    rw [e0, e1, h2]
    have hpar : (sh * 2 ^ 23 + q) % 2 = q % 2 := by omega
    rw [hpar]
    congr 1
    by_cases hup : d * 2 ^ sh < 2 * (n % (d * 2 ^ sh)) ∨
        (2 * (n % (d * 2 ^ sh)) = d * 2 ^ sh ∧ q % 2 = 1)
    · rw [if_pos (by simpa using hup), if_pos (by omega)]
      omega
    · rw [if_neg (by simpa using hup), if_neg (by omega)]

/-- A rounded magnitude is at most infinity's, hence a magnitude. -/
theorem roundMag_le (n d : Nat) : roundMag n d ≤ infMag := by
  unfold roundMag
  exact Nat.min_le_right _ _

theorem roundMag_lt (n d : Nat) : roundMag n d < 2 ^ 31 :=
  lt_of_le_of_lt (roundMag_le n d) (by decide)

/-- Rounding keeps order. -/
theorem roundMag_mono {n d n' d' : Nat} (hd : 0 < d) (hd' : 0 < d') (h : n * d' ≤ n' * d) :
    roundMag n d ≤ roundMag n' d' := by
  obtain ⟨m, a1, a2, a3⟩ := roundMag_spec n hd
  obtain ⟨k, b1, b2, b3⟩ := roundMag_spec n' hd'
  have hmk : m ≤ k := by
    have : magUnits m < magUnits (k + 1) := by
      by_contra hc
      have hc' : magUnits (k + 1) ≤ magUnits m := by omega
      have h1 : n' * d < magUnits (k + 1) * d' * d := Nat.mul_lt_mul_of_pos_right b2 hd
      have h2 : magUnits m * d * d' ≤ n * d' := Nat.mul_le_mul_right _ a1
      have h3 : magUnits (k + 1) * d' * d ≤ magUnits m * d * d' := by
        rw [show magUnits (k + 1) * d' * d = magUnits (k + 1) * (d * d') by ring,
          show magUnits m * d * d' = magUnits m * (d * d') by ring]
        exact Nat.mul_le_mul_right _ hc'
      omega
    have := magUnits_strictMono.lt_iff_lt.1 this
    omega
  rw [a3, b3]
  apply min_le_min_right
  rcases Nat.lt_or_ge m k with hlt | hge
  · split <;> split <;> omega
  · have hk : k = m := by omega
    subst hk
    split
    · rename_i hc
      rw [if_pos]
      have h2 : 2 * n * d' ≤ 2 * n' * d := by
        rw [Nat.mul_assoc, Nat.mul_assoc]; exact Nat.mul_le_mul_left 2 h
      rcases hc with hc | ⟨hc, hodd⟩
      · left
        have := Nat.mul_lt_mul_of_pos_right hc hd'
        have h4 : (magUnits k + magUnits (k + 1)) * d' * d < 2 * n' * d := by
          rw [show (magUnits k + magUnits (k + 1)) * d' * d =
            (magUnits k + magUnits (k + 1)) * d * d' by ring]
          omega
        exact lt_of_mul_lt_mul_right h4 (Nat.zero_le d)
      · have h4 : (magUnits k + magUnits (k + 1)) * d' * d ≤ 2 * n' * d := by
          rw [show (magUnits k + magUnits (k + 1)) * d' * d =
            (magUnits k + magUnits (k + 1)) * d * d' by ring, hc]
          exact h2
        have := le_of_mul_le_mul_right h4 hd
        omega
    · split <;> omega

/-- What is a float already is not changed by rounding. -/
theorem roundMag_exact {m d : Nat} (hd : 0 < d) (hm : m ≤ infMag) :
    roundMag (magUnits m * d) d = m := by
  obtain ⟨k, a1, a2, a3⟩ := roundMag_spec (magUnits m * d) hd
  have h1 := magUnits_strictMono.le_iff_le.1 (le_of_mul_le_mul_right a1 hd)
  have h2 := magUnits_strictMono.lt_iff_lt.1 (lt_of_mul_lt_mul_right a2 (Nat.zero_le d))
  have hk : k = m := by omega
  subst hk
  have h3 : 2 * (magUnits k * d) < (magUnits k + magUnits (k + 1)) * d := by
    have := Nat.mul_lt_mul_of_pos_right (magUnits_lt_succ k) hd
    rw [Nat.add_mul]
    omega
  rw [a3, if_neg (by omega)]
  omega

end Sys2Proof.Machine
end

