-- ==== Sys2Proof/Laws/Decode.lean ====
section
/-! SUPPORT. Header words and their four fields, and the round trip of single fields. -/

namespace Sys2Proof

/-- A header word as a number (R61). -/
theorem toNat_headerWord (opc m p a : BitVec 8) :
    (headerWord opc m p a).toNat =
      opc.toNat * 2 ^ 24 + m.toNat * 2 ^ 16 + p.toNat * 2 ^ 8 + a.toNat := by
  have h2 := p.isLt
  have h3 := a.isLt
  change (opc ++ m ++ p ++ a : BitVec (8 + 8 + 8 + 8)).toNat = _
  rw [BitVec.toNat_append, BitVec.toNat_append, BitVec.toNat_append,
    ← Nat.shiftLeft_add_eq_or_of_lt h3, ← Nat.shiftLeft_add_eq_or_of_lt h2,
    ← Nat.shiftLeft_add_eq_or_of_lt m.isLt]
  simp only [Nat.shiftLeft_eq]
  omega

@[simp] theorem hOpc_headerWord (opc m p a : BitVec 8) : hOpc (headerWord opc m p a) = opc := by
  apply BitVec.eq_of_toNat_eq
  have h0 := opc.isLt
  have h1 := m.isLt
  have h2 := p.isLt
  have h3 := a.isLt
  simp only [hOpc, BitVec.extractLsb'_toNat, toNat_headerWord, Nat.shiftRight_eq_div_pow]
  omega

@[simp] theorem hM_headerWord (opc m p a : BitVec 8) : hM (headerWord opc m p a) = m := by
  apply BitVec.eq_of_toNat_eq
  have h0 := opc.isLt
  have h1 := m.isLt
  have h2 := p.isLt
  have h3 := a.isLt
  simp only [hM, BitVec.extractLsb'_toNat, toNat_headerWord, Nat.shiftRight_eq_div_pow]
  omega

@[simp] theorem hP_headerWord (opc m p a : BitVec 8) : hP (headerWord opc m p a) = p := by
  apply BitVec.eq_of_toNat_eq
  have h0 := opc.isLt
  have h1 := m.isLt
  have h2 := p.isLt
  have h3 := a.isLt
  simp only [hP, BitVec.extractLsb'_toNat, toNat_headerWord, Nat.shiftRight_eq_div_pow]
  omega

@[simp] theorem hA_headerWord (opc m p a : BitVec 8) : hA (headerWord opc m p a) = a := by
  apply BitVec.eq_of_toNat_eq
  have h0 := opc.isLt
  have h1 := m.isLt
  have h2 := p.isLt
  have h3 := a.isLt
  simp only [hA, BitVec.extractLsb'_toNat, toNat_headerWord, Nat.shiftRight_eq_div_pow]
  omega

/-- A word is the header word of its own fields. -/
theorem headerWord_fields (h : Word) : headerWord (hOpc h) (hM h) (hP h) (hA h) = h := by
  apply BitVec.eq_of_toNat_eq
  have := h.isLt
  simp only [toNat_headerWord, hOpc, hM, hP, hA, BitVec.extractLsb'_toNat,
    Nat.shiftRight_eq_div_pow]
  omega

/-- The opcode map and its inverse agree (R65). -/
@[simp] theorem Opcode.ofCode_code (o : Opcode) : Opcode.ofCode o.code = some o := by
  cases o <;> rfl

/-- An `OPC` value that names an opcode is that opcode's value. -/
theorem Opcode.code_of_ofCode {c : BitVec 8} {o : Opcode} (h : Opcode.ofCode c = some o) :
    o.code = c := by
  revert o
  revert c
  decide

/-- The length of a command depends on its opcode alone (R62). -/
theorem commandLength_headerWord (o : Opcode) (m p a : BitVec 8) :
    commandLength (headerWord o.code m p a) = 1 + o.format.words := by
  simp [commandLength]

/-- The low half of a zero-extended halfword. -/
@[simp] theorem lowHalf_setWidth (v : BitVec 16) : lowHalf (v.setWidth 32) = v := by
  apply BitVec.eq_of_toNat_eq
  have := v.isLt
  simp only [lowHalf, BitVec.extractLsb'_toNat, BitVec.toNat_setWidth, Nat.shiftRight_zero]
  omega

end Sys2Proof
end

