-- ==== Sys2Proof/Laws/Memory.lean ====
section
/-! SUPPORT. The frame buffer's list form: what a read sees after a write, and that every write
keeps the canonical form. -/

namespace Sys2Proof.Machine

/-- Nothing is listed below the bound of a canonical form. -/
theorem Memory.read_of_lt {m : Memory} {lo i : Nat} (h : Memory.wfFrom lo m = true) (hi : i < lo) :
    Memory.read m i = 0 := by
  induction m generalizing lo with
  | nil => rfl
  | cons c m ih =>
    obtain ⟨a, b⟩ := c
    simp only [Memory.wfFrom, Bool.and_eq_true, decide_eq_true_eq] at h
    obtain ⟨⟨⟨hlo, -⟩, -⟩, hm⟩ := h
    rw [Memory.read, if_neg (by omega)]
    exact ih hm (by omega)

/-- A canonical form from a bound is one from every lower bound. -/
theorem Memory.wfFrom_mono {m : Memory} {lo lo' : Nat} (h : Memory.wfFrom lo m = true)
    (hle : lo' ≤ lo) : Memory.wfFrom lo' m = true := by
  cases m with
  | nil => rfl
  | cons c m =>
    simp only [Memory.wfFrom, Bool.and_eq_true, decide_eq_true_eq] at h ⊢
    exact ⟨⟨⟨by omega, h.1.1.2⟩, h.1.2⟩, h.2⟩

/-- A canonical form reads the byte last written. -/
theorem Memory.read_write_same_from {m : Memory} {lo : Nat} (i : Nat) (b : Byte)
    (h : Memory.wfFrom lo m = true) : Memory.read (Memory.write m i b) i = b := by
  induction m generalizing lo with
  | nil =>
    rw [Memory.write]
    split
    · rename_i hb
      rw [hb]
      rfl
    · simp [Memory.read]
  | cons c m ih =>
    obtain ⟨a, x⟩ := c
    have h' := h
    simp only [Memory.wfFrom, Bool.and_eq_true, decide_eq_true_eq] at h
    obtain ⟨-, hm⟩ := h
    rw [Memory.write]
    split
    · rename_i hia
      split
      · rename_i hb
        rw [Memory.read, if_neg (by omega), hb]
        exact Memory.read_of_lt hm (by omega)
      · simp [Memory.read]
    · split
      · rename_i hia
        split
        · rename_i hb
          rw [hb]
          exact Memory.read_of_lt hm (by omega)
        · simp [Memory.read]
      · rename_i hlt hne
        rw [Memory.read, if_neg (fun e => hne e.symm)]
        exact ih hm

/-- Writing one byte leaves every other byte. -/
theorem Memory.read_write_ne (m : Memory) {i j : Nat} (b : Byte) (h : j ≠ i) :
    Memory.read (Memory.write m i b) j = Memory.read m j := by
  induction m with
  | nil =>
    rw [Memory.write]
    split
    · rfl
    · simp [Memory.read, Ne.symm h]
  | cons c m ih =>
    obtain ⟨a, x⟩ := c
    rw [Memory.write]
    split
    · split
      · rfl
      · simp [Memory.read, Ne.symm h]
    · split
      · rename_i hia
        subst hia
        split
        · simp [Memory.read, Ne.symm h]
        · simp [Memory.read, Ne.symm h]
      · simp only [Memory.read]
        split
        · rfl
        · exact ih

/-- A write below index 8 keeps the canonical form from any bound not above the index. -/
theorem Memory.wfFrom_write {m : Memory} {lo i : Nat} (b : Byte) (h : Memory.wfFrom lo m = true)
    (hlo : lo ≤ i) (hi : i < 8) : Memory.wfFrom lo (Memory.write m i b) = true := by
  induction m generalizing lo with
  | nil =>
    rw [Memory.write]
    split
    · rfl
    · rename_i hb
      simp only [Memory.wfFrom, Bool.and_eq_true, decide_eq_true_eq, bne_iff_ne, ne_eq, and_true]
      exact ⟨⟨hlo, hi⟩, hb⟩
  | cons c m ih =>
    obtain ⟨a, x⟩ := c
    have h' := h
    simp only [Memory.wfFrom, Bool.and_eq_true, decide_eq_true_eq] at h
    obtain ⟨⟨⟨hla, ha8⟩, hx⟩, hm⟩ := h
    rw [Memory.write]
    split
    · rename_i hia
      split
      · exact h'
      · rename_i hb
        simp only [Memory.wfFrom, Bool.and_eq_true, decide_eq_true_eq, bne_iff_ne, ne_eq]
        exact ⟨⟨⟨hlo, hi⟩, hb⟩, ⟨⟨⟨by omega, ha8⟩, by simpa using hx⟩, hm⟩⟩
    · split
      · rename_i hia
        split
        · exact Memory.wfFrom_mono hm (by omega)
        · rename_i hb
          simp only [Memory.wfFrom, Bool.and_eq_true, decide_eq_true_eq, bne_iff_ne, ne_eq]
          exact ⟨⟨⟨hlo, hi⟩, hb⟩, by subst hia; exact hm⟩
      · rename_i h1 h2
        simp only [Memory.wfFrom, Bool.and_eq_true, decide_eq_true_eq]
        exact ⟨⟨⟨hla, ha8⟩, hx⟩, ih hm (by omega)⟩

/-- A canonical frame buffer reads the byte last written. -/
theorem Memory.read_write_same {m : Memory} (i : Nat) (b : Byte) (h : Memory.wf m = true) :
    Memory.read (Memory.write m i b) i = b :=
  Memory.read_write_same_from i b h

/-- A write below index 8 keeps the canonical form. -/
theorem Memory.wf_write {m : Memory} {i : Nat} (b : Byte) (h : Memory.wf m = true) (hi : i < 8) :
    Memory.wf (Memory.write m i b) = true :=
  Memory.wfFrom_write b h (Nat.zero_le i) hi

/-- Consecutive writes below index 8 keep the canonical form. -/
theorem Memory.wf_writeBytes {m : Memory} {i : Nat} (bs : List Byte) (h : Memory.wf m = true)
    (hi : i + bs.length ≤ 8) : Memory.wf (Memory.writeBytes m i bs) = true := by
  induction bs generalizing m i with
  | nil => exact h
  | cons b bs ih =>
    rw [List.length_cons] at hi
    exact ih (Memory.wf_write b h (by omega)) (by omega)

/-- Consecutive writes leave every byte outside them. -/
theorem Memory.read_writeBytes_out (m : Memory) {i j : Nat} (bs : List Byte)
    (h : j < i ∨ i + bs.length ≤ j) : Memory.read (Memory.writeBytes m i bs) j = Memory.read m j := by
  induction bs generalizing m i with
  | nil => rfl
  | cons b bs ih =>
    rw [List.length_cons] at h
    rw [Memory.writeBytes, ih (Memory.write m i b) (by omega)]
    exact Memory.read_write_ne m b (by omega)

/-- Consecutive writes into a canonical frame buffer store the bytes in order. -/
theorem Memory.read_writeBytes_in {m : Memory} {i k : Nat} (bs : List Byte)
    (hm : Memory.wf m = true) (hi : i + bs.length ≤ 8) (hk : k < bs.length) :
    Memory.read (Memory.writeBytes m i bs) (i + k) = bs[k] := by
  induction bs generalizing m i k with
  | nil => simp at hk
  | cons b bs ih =>
    simp only [List.length_cons] at hi hk
    rw [Memory.writeBytes]
    have hw := Memory.wf_write b hm (show i < 8 by omega)
    cases k with
    | zero =>
      rw [Memory.read_writeBytes_out _ bs (by omega)]
      exact Memory.read_write_same i b hm
    | succ k =>
      have := ih hw (i := i + 1) (k := k) (by omega) (by omega)
      rw [show i + (k + 1) = i + 1 + k by omega, this]
      rfl

/-- The empty frame buffer of reset is canonical. -/
theorem Memory.wf_nil : Memory.wf [] = true := rfl

end Sys2Proof.Machine
end

