-- ==== Sys2Proof/Laws/State.lean ====
section
/-! SUPPORT. What each update of the state leaves in each field, one lemma per field per update, so
that no proof unfolds a record update. -/

namespace Sys2Proof.Machine

/-! ## `State.respond` -/

@[simp] theorem State.respond_fault (s : State) (r : Response) : (s.respond r).fault = s.fault := rfl
@[simp] theorem State.respond_fb (s : State) (r : Response) : (s.respond r).fb = s.fb := rfl
@[simp] theorem State.respond_cur (s : State) (r : Response) : (s.respond r).cur = s.cur := rfl
@[simp] theorem State.respond_dev (s : State) (r : Response) : (s.respond r).dev = s.dev := rfl
@[simp] theorem State.respond_pid (s : State) (r : Response) : (s.respond r).pid = s.pid := rfl
@[simp] theorem State.respond_limits (s : State) (r : Response) : (s.respond r).limits = s.limits := rfl
@[simp] theorem State.respond_port (s : State) (r : Response) : (s.respond r).port = s.port := rfl
@[simp] theorem State.respond_fgIn (s : State) (r : Response) : (s.respond r).fgIn = s.fgIn := rfl
@[simp] theorem State.respond_rxIn (s : State) (r : Response) : (s.respond r).rxIn = s.rxIn := rfl
@[simp] theorem State.respond_turns (s : State) (r : Response) : (s.respond r).turns = s.turns := rfl
@[simp] theorem State.respond_answers (s : State) (r : Response) : (s.respond r).answers = s.answers := rfl
@[simp] theorem State.respond_frames (s : State) (r : Response) : (s.respond r).frames = s.frames := rfl
@[simp] theorem State.respond_responses (s : State) (r : Response) : (s.respond r).responses = (s.port, r) :: s.responses := rfl

/-! ## `State.handOver` -/

@[simp] theorem State.handOver_fault (s : State) (f : Frame) : (s.handOver f).fault = s.fault := rfl
@[simp] theorem State.handOver_fb (s : State) (f : Frame) : (s.handOver f).fb = s.fb := rfl
@[simp] theorem State.handOver_cur (s : State) (f : Frame) : (s.handOver f).cur = s.cur := rfl
@[simp] theorem State.handOver_dev (s : State) (f : Frame) : (s.handOver f).dev = s.dev := rfl
@[simp] theorem State.handOver_pid (s : State) (f : Frame) : (s.handOver f).pid = s.pid := rfl
@[simp] theorem State.handOver_limits (s : State) (f : Frame) : (s.handOver f).limits = s.limits := rfl
@[simp] theorem State.handOver_port (s : State) (f : Frame) : (s.handOver f).port = s.port := rfl
@[simp] theorem State.handOver_fgIn (s : State) (f : Frame) : (s.handOver f).fgIn = s.fgIn := rfl
@[simp] theorem State.handOver_rxIn (s : State) (f : Frame) : (s.handOver f).rxIn = s.rxIn := rfl
@[simp] theorem State.handOver_turns (s : State) (f : Frame) : (s.handOver f).turns = s.turns := rfl
@[simp] theorem State.handOver_answers (s : State) (f : Frame) : (s.handOver f).answers = s.answers.tail := rfl
@[simp] theorem State.handOver_frames (s : State) (f : Frame) : (s.handOver f).frames = f :: s.frames := rfl
@[simp] theorem State.handOver_responses (s : State) (f : Frame) : (s.handOver f).responses = s.responses := rfl

/-! ## `State.setDevice` -/

@[simp] theorem State.setDevice_fault (s : State) (a : BitVec 8) (d : Device) : (s.setDevice a d).fault = s.fault := rfl
@[simp] theorem State.setDevice_fb (s : State) (a : BitVec 8) (d : Device) : (s.setDevice a d).fb = s.fb := rfl
@[simp] theorem State.setDevice_cur (s : State) (a : BitVec 8) (d : Device) : (s.setDevice a d).cur = s.cur := rfl
@[simp] theorem State.setDevice_dev (s : State) (a : BitVec 8) (d : Device) : (s.setDevice a d).dev = s.dev.set a.toNat d a.isLt := rfl
@[simp] theorem State.setDevice_pid (s : State) (a : BitVec 8) (d : Device) : (s.setDevice a d).pid = s.pid := rfl
@[simp] theorem State.setDevice_limits (s : State) (a : BitVec 8) (d : Device) : (s.setDevice a d).limits = s.limits := rfl
@[simp] theorem State.setDevice_port (s : State) (a : BitVec 8) (d : Device) : (s.setDevice a d).port = s.port := rfl
@[simp] theorem State.setDevice_fgIn (s : State) (a : BitVec 8) (d : Device) : (s.setDevice a d).fgIn = s.fgIn := rfl
@[simp] theorem State.setDevice_rxIn (s : State) (a : BitVec 8) (d : Device) : (s.setDevice a d).rxIn = s.rxIn := rfl
@[simp] theorem State.setDevice_turns (s : State) (a : BitVec 8) (d : Device) : (s.setDevice a d).turns = s.turns := rfl
@[simp] theorem State.setDevice_answers (s : State) (a : BitVec 8) (d : Device) : (s.setDevice a d).answers = s.answers := rfl
@[simp] theorem State.setDevice_frames (s : State) (a : BitVec 8) (d : Device) : (s.setDevice a d).frames = s.frames := rfl
@[simp] theorem State.setDevice_responses (s : State) (a : BitVec 8) (d : Device) : (s.setDevice a d).responses = s.responses := rfl

/-! ## `State.setPid` -/

@[simp] theorem State.setPid_fault (s : State) (p : BitVec 8) (c : PidCtx) : (s.setPid p c).fault = s.fault := rfl
@[simp] theorem State.setPid_fb (s : State) (p : BitVec 8) (c : PidCtx) : (s.setPid p c).fb = s.fb := rfl
@[simp] theorem State.setPid_cur (s : State) (p : BitVec 8) (c : PidCtx) : (s.setPid p c).cur = s.cur := rfl
@[simp] theorem State.setPid_dev (s : State) (p : BitVec 8) (c : PidCtx) : (s.setPid p c).dev = s.dev := rfl
@[simp] theorem State.setPid_pid (s : State) (p : BitVec 8) (c : PidCtx) : (s.setPid p c).pid = s.pid.set p.toNat c := rfl
@[simp] theorem State.setPid_limits (s : State) (p : BitVec 8) (c : PidCtx) : (s.setPid p c).limits = s.limits := rfl
@[simp] theorem State.setPid_port (s : State) (p : BitVec 8) (c : PidCtx) : (s.setPid p c).port = s.port := rfl
@[simp] theorem State.setPid_fgIn (s : State) (p : BitVec 8) (c : PidCtx) : (s.setPid p c).fgIn = s.fgIn := rfl
@[simp] theorem State.setPid_rxIn (s : State) (p : BitVec 8) (c : PidCtx) : (s.setPid p c).rxIn = s.rxIn := rfl
@[simp] theorem State.setPid_turns (s : State) (p : BitVec 8) (c : PidCtx) : (s.setPid p c).turns = s.turns := rfl
@[simp] theorem State.setPid_answers (s : State) (p : BitVec 8) (c : PidCtx) : (s.setPid p c).answers = s.answers := rfl
@[simp] theorem State.setPid_frames (s : State) (p : BitVec 8) (c : PidCtx) : (s.setPid p c).frames = s.frames := rfl
@[simp] theorem State.setPid_responses (s : State) (p : BitVec 8) (c : PidCtx) : (s.setPid p c).responses = s.responses := rfl

/-! ## `resetBlock` (R38, R220) -/

@[simp] theorem resetBlock_fault (s : State) : (resetBlock s).fault = 0 := rfl
@[simp] theorem resetBlock_fb (s : State) : (resetBlock s).fb = [] := rfl
@[simp] theorem resetBlock_cur (s : State) : (resetBlock s).cur = 0 := rfl
@[simp] theorem resetBlock_dev (s : State) : (resetBlock s).dev = Vector.replicate 256 Device.reset := rfl
@[simp] theorem resetBlock_pid (s : State) : (resetBlock s).pid = List.replicate s.pid.length PidCtx.reset := rfl
@[simp] theorem resetBlock_limits (s : State) : (resetBlock s).limits = s.limits := rfl
@[simp] theorem resetBlock_port (s : State) : (resetBlock s).port = s.port := rfl
@[simp] theorem resetBlock_fgIn (s : State) : (resetBlock s).fgIn = s.fgIn := rfl
@[simp] theorem resetBlock_rxIn (s : State) : (resetBlock s).rxIn = s.rxIn := rfl
@[simp] theorem resetBlock_turns (s : State) : (resetBlock s).turns = s.turns := rfl
@[simp] theorem resetBlock_answers (s : State) : (resetBlock s).answers = s.answers := rfl
@[simp] theorem resetBlock_frames (s : State) : (resetBlock s).frames = s.frames := rfl
@[simp] theorem resetBlock_responses (s : State) : (resetBlock s).responses = s.responses := rfl

/-! ## `State.setWords` -/

@[simp] theorem State.setWords_fault (s : State) (p : Port) (ws : List Word) :
    (s.setWords p ws).fault = s.fault := by cases p <;> rfl
@[simp] theorem State.setWords_fb (s : State) (p : Port) (ws : List Word) :
    (s.setWords p ws).fb = s.fb := by cases p <;> rfl
@[simp] theorem State.setWords_cur (s : State) (p : Port) (ws : List Word) :
    (s.setWords p ws).cur = s.cur := by cases p <;> rfl
@[simp] theorem State.setWords_dev (s : State) (p : Port) (ws : List Word) :
    (s.setWords p ws).dev = s.dev := by cases p <;> rfl
@[simp] theorem State.setWords_pid (s : State) (p : Port) (ws : List Word) :
    (s.setWords p ws).pid = s.pid := by cases p <;> rfl
@[simp] theorem State.setWords_limits (s : State) (p : Port) (ws : List Word) :
    (s.setWords p ws).limits = s.limits := by cases p <;> rfl
@[simp] theorem State.setWords_port (s : State) (p : Port) (ws : List Word) :
    (s.setWords p ws).port = s.port := by cases p <;> rfl
@[simp] theorem State.setWords_turns (s : State) (p : Port) (ws : List Word) :
    (s.setWords p ws).turns = s.turns := by cases p <;> rfl
@[simp] theorem State.setWords_answers (s : State) (p : Port) (ws : List Word) :
    (s.setWords p ws).answers = s.answers := by cases p <;> rfl
@[simp] theorem State.setWords_frames (s : State) (p : Port) (ws : List Word) :
    (s.setWords p ws).frames = s.frames := by cases p <;> rfl
@[simp] theorem State.setWords_responses (s : State) (p : Port) (ws : List Word) :
    (s.setWords p ws).responses = s.responses := by cases p <;> rfl

/-- The words put on a port are the words waiting on it. -/
@[simp] theorem State.words_setWords (s : State) (p : Port) (ws : List Word) :
    (s.setWords p ws).words p = ws := by cases p <;> rfl

/-! ## Reads through updates -/

@[simp] theorem State.fbByte_respond (s : State) (r : Response) (i : Nat) :
    (s.respond r).fbByte i = s.fbByte i := rfl
@[simp] theorem State.fbByte_handOver (s : State) (f : Frame) (i : Nat) :
    (s.handOver f).fbByte i = s.fbByte i := rfl
@[simp] theorem State.fbByte_setDevice (s : State) (a : BitVec 8) (d : Device) (i : Nat) :
    (s.setDevice a d).fbByte i = s.fbByte i := rfl
@[simp] theorem State.fbByte_setPid (s : State) (p : BitVec 8) (c : PidCtx) (i : Nat) :
    (s.setPid p c).fbByte i = s.fbByte i := rfl
@[simp] theorem State.device_respond (s : State) (r : Response) (a : BitVec 8) :
    (s.respond r).device a = s.device a := rfl
@[simp] theorem State.device_handOver (s : State) (f : Frame) (a : BitVec 8) :
    (s.handOver f).device a = s.device a := rfl
@[simp] theorem State.device_setPid (s : State) (p : BitVec 8) (c : PidCtx) (a : BitVec 8) :
    (s.setPid p c).device a = s.device a := rfl

/-- The entry written is the entry read. -/
@[simp] theorem State.device_setDevice_self (s : State) (a : BitVec 8) (d : Device) :
    (s.setDevice a d).device a = d := by
  simp [State.device, State.setDevice]

/-- Writing one entry of the device table leaves every other entry. -/
theorem State.device_setDevice_ne (s : State) (a b : BitVec 8) (d : Device) (h : b ≠ a) :
    (s.setDevice a d).device b = s.device b := by
  have hne : a.toNat ≠ b.toNat := fun e => h (BitVec.eq_of_toNat_eq e.symm)
  simp [State.device, State.setDevice, Vector.getElem_set_ne, hne]

/-- After reset no address has a record. -/
@[simp] theorem resetBlock_device (s : State) (a : BitVec 8) :
    (resetBlock s).device a = Device.reset := by
  simp [State.device, resetBlock]

end Sys2Proof.Machine
end

