-- ==== Sys2Proof/Laws/Ops.lean ====
section
/-! SUPPORT. For each shared operation, once, everything it can do. -/

namespace Sys2Proof.Machine

/-! ## Faults and the checks before an operation -/

/-- Raising a fault: the code in `FAULT`, one response with the code, nothing else (R200). -/
theorem raise_eq (c : Cause) (s : State) :
    raise c s = .next ({ s with fault := c.code }.respond { st := c.code }) := rfl

/-- No cause has the code 0, and every code is at most 6 (R202). -/
theorem Cause.code_range (c : Cause) : c.code ≠ 0 ∧ c.code.toNat ≤ 6 := by
  cases c <;> decide

/-- On a ready block the checks let every operation through. -/
theorem accept_ready {s : State} (rxOk : Bool) (body : Result) (hf : s.fault = 0)
    (hp : s.port = .fg) : accept rxOk s body = body := by
  simp [accept, hf, hp]

/-- `DECODE` is let through on either port. -/
theorem accept_decode {s : State} (body : Result) (hf : s.fault = 0) :
    accept true s body = body := by
  simp [accept, hf]

/-- A faulted block answers 0xFF and nothing else happens (R201). -/
theorem accept_faulted {s : State} (rxOk : Bool) (body : Result) (hf : s.fault ≠ 0) :
    accept rxOk s body = .next (s.respond { st := 0xFF }) := by
  rw [accept, if_pos hf, reject]

/-- The receive port takes `DECODE` only (R60, R204 (b)). -/
theorem accept_rx {s : State} (body : Result) (hf : s.fault = 0) (hp : s.port = .rx) :
    accept false s body = raise .illegalCommand s := by
  simp [accept, hf, hp]

/-- All that the checks before an operation can do. -/
theorem accept_cases (rxOk : Bool) (s : State) (body : Result) :
    (s.fault ≠ 0 ∧ accept rxOk s body = .next (s.respond { st := 0xFF })) ∨
    (s.fault = 0 ∧ s.port = .rx ∧ rxOk = false ∧
      accept rxOk s body = raise .illegalCommand s) ∨
    (s.fault = 0 ∧ ¬(s.port = .rx ∧ rxOk = false) ∧ accept rxOk s body = body) := by
  by_cases hf : s.fault = 0
  · by_cases hp : s.port = .rx ∧ rxOk = false
    · exact .inr (.inl ⟨hf, hp.1, hp.2, by simp [accept, hf, hp]⟩)
    · exact .inr (.inr ⟨hf, hp, by rw [accept, if_neg (by simpa using hf), if_neg hp]⟩)
  · exact .inl ⟨hf, accept_faulted rxOk body hf⟩

/-! ## Frame buffer -/

/-- Where R41 defines the append, the bytes are stored at the cursor and the cursor advances. -/
theorem fbWrite_eq {s : State} (bytes : List Byte) (h : s.cur.toNat + bytes.length ≤ 8) :
    fbWrite bytes s =
      .next ({ s with
        fb := Memory.writeBytes s.fb s.cur.toNat bytes
        cur := s.cur + BitVec.ofNat 4 bytes.length }.respond {}) := by
  rw [fbWrite, if_neg (by omega)]

/-- The advanced cursor, as a number. -/
theorem cur_advance {s : State} {n : Nat} (h : s.cur.toNat + n ≤ 8) :
    (s.cur + BitVec.ofNat 4 n).toNat = s.cur.toNat + n := by
  rw [BitVec.toNat_add, BitVec.toNat_ofNat]
  omega

/-! ## Transport -/

/-- Handing over a frame: the frame once, the transport's code in the response, nothing else
(R46, R47). -/
theorem send_eq (id : BitVec 29) (ext : BitVec 1) (bytes : List Byte) (s : State) :
    send id ext bytes s =
      .next ((s.handOver (makeFrame id ext bytes)).respond { rc := s.nextRc }) := rfl

/-! ## PID contexts -/

/-- An operation on a context that exists. -/
theorem withPid_some {p : BitVec 8} {s : State} {c : PidCtx} (body : PidCtx → Result)
    (h : s.pid[p.toNat]? = some c) : withPid p s body = body c := by
  rw [withPid, h]

/-- An index not below `N_PID` (R204 (f)). -/
theorem withPid_none {p : BitVec 8} {s : State} (body : PidCtx → Result)
    (h : s.pid.length ≤ p.toNat) : withPid p s body = raise .illegalCommand s := by
  rw [withPid, List.getElem?_eq_none h]

/-- An operation on an initialised context. -/
theorem withInited_some {p : BitVec 8} {s : State} {c : PidCtx} (body : PidCtx → Result)
    (h : s.pid[p.toNat]? = some c) (hi : c.inited = true) : withInited p s body = body c := by
  rw [withInited, withPid_some _ h, if_pos hi]

/-- An operation on a context that is not initialised (R210). -/
theorem withInited_uninit {p : BitVec 8} {s : State} {c : PidCtx} (body : PidCtx → Result)
    (h : s.pid[p.toNat]? = some c) (hi : c.inited = false) :
    withInited p s body = raise .pidUninit s := by
  rw [withInited, withPid_some _ h, if_neg (by simp [hi])]

/-- All that an operation on a context can do. -/
theorem withInited_cases (p : BitVec 8) (s : State) (body : PidCtx → Result) :
    (s.pid.length ≤ p.toNat ∧ withInited p s body = raise .illegalCommand s) ∨
    (∃ c, s.pid[p.toNat]? = some c ∧ c.inited = false ∧
      withInited p s body = raise .pidUninit s) ∨
    (∃ c, s.pid[p.toNat]? = some c ∧ c.inited = true ∧ withInited p s body = body c) := by
  cases h : s.pid[p.toNat]? with
  | none =>
    have hl : s.pid.length ≤ p.toNat := List.getElem?_eq_none_iff.mp h
    exact .inl ⟨hl, by rw [withInited, withPid_none _ hl]⟩
  | some c =>
    cases hi : c.inited with
    | false => exact .inr (.inl ⟨c, rfl, hi, withInited_uninit body h hi⟩)
    | true => exact .inr (.inr ⟨c, rfl, hi, withInited_some body h hi⟩)

/-- Writing one context leaves every other (R31). -/
theorem State.setPid_ne (s : State) {p : BitVec 8} (c : PidCtx) {q : Nat} (h : q ≠ p.toNat) :
    (s.setPid p c).pid[q]? = s.pid[q]? := by
  simp [State.setPid, List.getElem?_set_ne (Ne.symm h)]

/-- The context written is the context read. -/
theorem State.setPid_self (s : State) {p : BitVec 8} (c : PidCtx) (h : p.toNat < s.pid.length) :
    (s.setPid p c).pid[p.toNat]? = some c := by
  simp [State.setPid, h]

/-- Writing a context keeps `N_PID`. -/
@[simp] theorem State.setPid_length (s : State) (p : BitVec 8) (c : PidCtx) :
    (s.setPid p c).pid.length = s.pid.length := by
  simp [State.setPid]

/-! ## Models -/

/-- A model index 0 to 6 is a row of `MODEL_LIMITS` (R206). -/
theorem modelIndex_some {m : BitVec 3} (h : m ≠ 7) :
    ∃ k : Fin 7, modelIndex m = some k ∧ k.val = m.toNat := by
  have h7 : m.toNat ≠ 7 := fun e => h (BitVec.eq_of_toNat_eq e)
  have hlt : m.toNat < 7 := by have := m.isLt; omega
  exact ⟨⟨m.toNat, hlt⟩, by simp [modelIndex, hlt], rfl⟩

/-- Index 7 is unknown. -/
theorem modelIndex_seven : modelIndex 7 = none := by decide

end Sys2Proof.Machine
end

