-- ==== Sys2Proof/Laws/Operands.lean ====
section
/-! SUPPORT. What the float operations answer on finite operands, what the clamps and the fixed-point
code of R101 are, and what one access to a device or one PID call can do. -/

namespace Sys2Proof.Machine

/-! ## Finite operands -/

/-- A finite value is neither NaN nor infinite. -/
theorem not_nan_of_finite {x : F} (h : isFinite x = true) : isNaN x = false ∧ isInf x = false := by
  simp only [isFinite, decide_eq_true_eq] at h
  constructor
  · simp only [isNaN, decide_eq_false_iff_not]
    omega
  · simp only [isInf, beq_eq_false_iff_ne]
    omega

theorem magUnits_pos {m : Nat} (h : 0 < m) : 0 < magUnits m := by
  have := magUnits_strictMono h
  rwa [show magUnits 0 = 0 from rfl] at this

theorem roundMag_zero {d : Nat} (h : 0 < d) : roundMag 0 d = 0 := by
  have := roundMag_exact (m := 0) h (by decide)
  rwa [show magUnits 0 * d = 0 by simp [magUnits]] at this

/-- A finite value as a rational: a signed number of units of 2^-149. -/
theorem realValue_eq_units (x : F) :
    realValue x = (if fsign x then -1 else 1) * (magUnits (fmag x) : ℚ) * (2 : ℚ) ^ (-149 : ℤ) := by
  have he : (x.extractLsb' 23 8).toNat = fmag x / 2 ^ 23 := by
    simp only [BitVec.extractLsb'_toNat, fmag, Nat.shiftRight_eq_div_pow]
    have := x.isLt
    omega
  have hf : (x.extractLsb' 0 23).toNat = fmag x % 2 ^ 23 := by
    simp only [BitVec.extractLsb'_toNat, fmag, Nat.shiftRight_eq_div_pow]
    have := x.isLt
    omega
  have hs : x.msb = fsign x := by rw [fsign, ← BitVec.msb_eq_getLsbD_last]
  unfold realValue
  simp only [he, hf, hs]
  have hm : (if fmag x / 2 ^ 23 = 0 then ((fmag x % 2 ^ 23 : ℕ) : ℚ) * (2 : ℚ) ^ (-149 : ℤ)
      else (2 ^ 23 + ((fmag x % 2 ^ 23 : ℕ) : ℚ)) * (2 : ℚ) ^ (((fmag x / 2 ^ 23 : ℕ) : ℤ) - 150)) =
      (magUnits (fmag x) : ℚ) * (2 : ℚ) ^ (-149 : ℤ) := by
    rw [magUnits]
    split
    · rfl
    · rename_i h
      push_cast
      rw [mul_assoc]
      congr 1
      rw [← zpow_natCast, ← zpow_add₀ (by norm_num)]
      congr 1
      omega
  rw [hm]
  split <;> ring

/-- The product of finite values is the exact product rounded once. -/
theorem fmul_finite {a b : F} (ha : isFinite a = true) (hb : isFinite b = true) :
    fmul a b = ofSignMag (fsign a != fsign b)
      (roundMag (magUnits (fmag a) * magUnits (fmag b)) (2 ^ 149)) := by
  unfold fmul
  rw [(not_nan_of_finite ha).1, (not_nan_of_finite ha).2, (not_nan_of_finite hb).1,
    (not_nan_of_finite hb).2]
  simp only [Bool.or_self, Bool.and_false, Bool.false_and, Bool.false_eq_true, if_false]
  rfl

/-- The quotient of finite values, the divisor not zero, is the exact quotient rounded once. -/
theorem fdiv_finite {a b : F} (ha : isFinite a = true) (hb : isFinite b = true) (h0 : fmag b ≠ 0) :
    fdiv a b = ofSignMag (fsign a != fsign b)
      (roundMag (magUnits (fmag a) * 2 ^ 149) (magUnits (fmag b))) := by
  have hz : isZero b = false := by simp [isZero, h0]
  unfold fdiv
  rw [(not_nan_of_finite ha).1, (not_nan_of_finite ha).2, (not_nan_of_finite hb).1,
    (not_nan_of_finite hb).2, hz]
  simp only [Bool.or_self, Bool.and_false, Bool.and_self, Bool.false_eq_true, if_false]
  rfl

@[simp] theorem signedUnits_fneg (x : F) : signedUnits (fneg x) = -signedUnits x := by
  unfold signedUnits
  rw [scaled_eq_magUnits, scaled_eq_magUnits, fmag_fneg, fsign_fneg]
  cases fsign x <;> simp

/-- The sum of finite values is the exact sum rounded once; a zero sum is -0 only for -0 + -0. -/
theorem sumOf_finite {nan a b : F} (ha : isFinite a = true) (hb : isFinite b = true) :
    sumOf nan a b =
      if signedUnits a + signedUnits b = 0 then ofSignMag (fsign a && fsign b) 0
      else ofSignMag (decide (signedUnits a + signedUnits b < 0))
        (roundMag (signedUnits a + signedUnits b).natAbs 1) := by
  unfold sumOf
  rw [(not_nan_of_finite ha).2, (not_nan_of_finite hb).2]
  rfl

/-- A difference that is not negative, of finite values. -/
theorem fsub_nonneg {a b : F} (ha : isFinite a = true) (hb : isFinite b = true)
    (h : signedUnits b ≤ signedUnits a) :
    fmag (fsub a b) = roundMag (signedUnits a - signedUnits b).toNat 1 ∧
      (signedUnits b < signedUnits a → fsign (fsub a b) = false) := by
  unfold fsub
  rw [(not_nan_of_finite ha).1, (not_nan_of_finite hb).1]
  simp only [Bool.or_self, Bool.false_eq_true, if_false]
  rw [sumOf_finite ha (by simpa using hb), signedUnits_fneg, ← sub_eq_add_neg]
  generalize hd : signedUnits a - signedUnits b = t
  by_cases h0 : t = 0
  · subst h0
    rw [if_pos rfl, fmag_ofSignMag (by decide)]
    exact ⟨rfl, fun _ => by omega⟩
  · rw [if_neg h0, fmag_ofSignMag (roundMag_lt _ _), fsign_ofSignMag (roundMag_lt _ _)]
    exact ⟨by congr 1; omega, fun _ => by simp; omega⟩

/-! ## Order -/

/-- `<` on values that are not NaN is the order of their keys. -/
theorem flt_iff {a b : F} (ha : isNaN a = false) (hb : isNaN b = false) :
    flt a b = true ↔ orderKey a < orderKey b := by
  simp [flt, ha, hb]

/-- `>=` likewise. -/
theorem fge_iff {a b : F} (ha : isNaN a = false) (hb : isNaN b = false) :
    fge a b = true ↔ orderKey b ≤ orderKey a := by
  simp [fge, ha, hb]

/-- The keys order the exact values. -/
theorem signedUnits_lt_iff {a b : F} : signedUnits a < signedUnits b ↔ orderKey a < orderKey b := by
  have m := magUnits_strictMono
  have h0 : magUnits 0 = 0 := rfl
  have pos : ∀ k, 0 < k ↔ 0 < magUnits k := fun k => by
    have := m.lt_iff_lt (a := 0) (b := k)
    rw [h0] at this
    exact this.symm
  have pa := pos (fmag a)
  have pb := pos (fmag b)
  have l1 := m.lt_iff_lt (a := fmag a) (b := fmag b)
  have l2 := m.lt_iff_lt (a := fmag b) (b := fmag a)
  unfold orderKey signedUnits
  rw [scaled_eq_magUnits, scaled_eq_magUnits]
  split <;> split <;> omega

theorem signedUnits_le_iff {a b : F} : signedUnits a ≤ signedUnits b ↔ orderKey a ≤ orderKey b := by
  rw [← not_lt, ← not_lt, signedUnits_lt_iff]

/-- A legal clamp limit is not NaN and not below zero (R182). -/
theorem pidLimitOk_iff {x : F} : pidLimitOk x = true ↔ isNaN x = false ∧ 0 ≤ orderKey x := by
  have h0 : isNaN (0 : F) = false := by decide
  have k0 : orderKey (0 : F) = 0 := by decide
  unfold pidLimitOk fge
  rw [h0, k0]
  cases isNaN x <;> simp

/-! ## Clamps (R11) -/

/-- `clampS` passes NaN through. -/
theorem clampS_nan {x l : F} (h : isNaN x = true) : clampS x l = x := by
  unfold clampS
  rw [if_neg (by simp [fgt, flt, h]), if_neg (by simp [flt, h])]

/-- `clampS` of a value that is not NaN is the nearest value within the limits. -/
theorem clampS_key {x l : F} (hx : isNaN x = false) (hl : pidLimitOk l = true) :
    isNaN (clampS x l) = false ∧
      orderKey (clampS x l) = max (-orderKey l) (min (orderKey x) (orderKey l)) := by
  obtain ⟨nl, kl⟩ := pidLimitOk_iff.1 hl
  have nn : isNaN (fneg l) = false := by simpa using nl
  unfold clampS
  by_cases h1 : fgt x l = true
  · rw [if_pos h1]
    rw [fgt, flt_iff nl hx] at h1
    exact ⟨nl, by omega⟩
  · rw [if_neg h1]
    rw [fgt, flt_iff nl hx] at h1
    by_cases h2 : flt x (fneg l) = true
    · rw [if_pos h2]
      rw [flt_iff hx nn, orderKey_fneg] at h2
      exact ⟨nn, by rw [orderKey_fneg]; omega⟩
    · rw [if_neg h2]
      rw [flt_iff hx nn, orderKey_fneg] at h2
      exact ⟨hx, by omega⟩

/-- The five parts of R100. -/
theorem rangeOk_iff {lo hi : F} : rangeOk lo hi = true ↔
    isFinite lo = true ∧ isFinite hi = true ∧ flt lo hi = true ∧
      isFinite (fsub hi lo) = true ∧ flt 0 (fsub hi lo) = true := by
  simp only [rangeOk, Bool.and_eq_true, and_assoc]

/-- `f2x` on a legal range is R101's formula. -/
theorem f2x_of_rangeOk {v lo hi : F} {n : Nat} (h : rangeOk lo hi = true) :
    f2x v lo hi n = (trunc (fmul (fdiv (fsub (clampR v lo hi) lo) (fsub hi lo))
      (ofInt (2 ^ n - 1 : Nat)))).toNat := if_pos h

/-- `x2f` on a legal range is R103's formula. -/
theorem x2f_of_rangeOk {code : Nat} {lo hi : F} {n : Nat} (h : rangeOk lo hi = true) :
    x2f code lo hi n =
      fadd lo (fmul (fdiv (ofInt code) (ofInt (2 ^ n - 1 : Nat))) (fsub hi lo)) := if_pos h

/-- `s16`: two's complement of the two bytes, written out. -/
theorem s16_eq (h l : Byte) : s16 h l =
    if h.toNat < 128 then 256 * (h.toNat : Int) + l.toNat else 256 * (h.toNat : Int) + l.toNat - 65536 := by
  have e : (h ++ l : BitVec 16).toNat = h.toNat * 256 + l.toNat := by
    rw [BitVec.toNat_append, ← Nat.shiftLeft_add_eq_or_of_lt l.isLt, Nat.shiftLeft_eq]
  have := l.isLt
  rw [s16, BitVec.toInt_eq_toNat_cond, e]
  split <;> split <;> omega

/-- A legal range (R100), with its exact ends and its span. -/
structure LegalRange (lo hi : F) : Prop where
  ok : rangeOk lo hi = true
  finite_lo : isFinite lo = true
  finite_hi : isFinite hi = true
  lt : signedUnits lo < signedUnits hi
  finite_span : isFinite (fsub hi lo) = true
  span_mag : fmag (fsub hi lo) = roundMag (signedUnits hi - signedUnits lo).toNat 1
  span_pos : 0 < fmag (fsub hi lo)
  span_sign : fsign (fsub hi lo) = false

theorem legalRange_of {lo hi : F} (h : rangeOk lo hi = true) : LegalRange lo hi := by
  have hok := h
  simp only [rangeOk, Bool.and_eq_true] at h
  obtain ⟨⟨⟨⟨h1, h2⟩, h3⟩, h4⟩, h5⟩ := h
  rw [flt_iff (not_nan_of_finite h1).1 (not_nan_of_finite h2).1, ← signedUnits_lt_iff] at h3
  obtain ⟨a, b⟩ := fsub_nonneg h2 h1 h3.le
  refine ⟨hok, h1, h2, h3, h4, a, ?_, b h3⟩
  rw [flt_iff (by decide) (not_nan_of_finite h4).1, show orderKey 0 = 0 from by decide] at h5
  unfold orderKey at h5
  split at h5 <;> omega

/-- `clampR` of a value that is not NaN is finite and within a legal range. -/
theorem clampR_range {v lo hi : F} (hv : isNaN v = false) (L : LegalRange lo hi) :
    isFinite (clampR v lo hi) = true ∧ signedUnits lo ≤ signedUnits (clampR v lo hi) ∧
      signedUnits (clampR v lo hi) ≤ signedUnits hi := by
  have nl := (not_nan_of_finite L.finite_lo).1
  have nh := (not_nan_of_finite L.finite_hi).1
  unfold clampR
  by_cases h1 : flt v lo = true
  · rw [if_pos h1]
    exact ⟨L.finite_lo, le_refl _, L.lt.le⟩
  · rw [if_neg h1]
    by_cases h2 : fgt v hi = true
    · rw [if_pos h2]
      exact ⟨L.finite_hi, L.lt.le, le_refl _⟩
    · rw [if_neg h2]
      rw [flt_iff hv nl] at h1
      rw [fgt, flt_iff nh hv] at h2
      refine ⟨?_, signedUnits_le_iff.2 (by omega), signedUnits_le_iff.2 (by omega)⟩
      have f1 := L.finite_lo
      have f2 := L.finite_hi
      simp only [isFinite, decide_eq_true_eq] at *
      unfold orderKey at h1 h2
      cases hs : fsign v <;> rw [hs] at h1 h2 <;> simp at h1 h2 <;> split at h1 <;> split at h2 <;>
        omega

/-! ## The fixed-point code (R101) -/

/-- The code of the magnitude `s` of `c (-) lo` in a range of span magnitude `S`: the quotient rounded,
the product rounded, the fraction discarded. -/
def codeOf (S n s : Nat) : Nat :=
  magUnits (roundMag (magUnits (roundMag (magUnits s * 2 ^ 149) (magUnits S)) *
    ((2 ^ n - 1) * 2 ^ 149)) (2 ^ 149)) / 2 ^ 149

/-- A larger difference never has a smaller code. -/
theorem codeOf_mono {S n s s' : Nat} (hS : 0 < S) (h : s ≤ s') : codeOf S n s ≤ codeOf S n s' := by
  unfold codeOf
  apply Nat.div_le_div_right
  apply magUnits_strictMono.monotone
  apply roundMag_mono (by positivity) (by positivity)
  apply Nat.mul_le_mul_right
  apply Nat.mul_le_mul_right
  apply magUnits_strictMono.monotone
  apply roundMag_mono (magUnits_pos hS) (magUnits_pos hS)
  apply Nat.mul_le_mul_right
  apply Nat.mul_le_mul_right
  exact magUnits_strictMono.monotone h

/-- `F(k)` of a natural number. -/
theorem ofInt_natCast (k : Nat) :
    fmag (ofInt k) = roundMag (k * 2 ^ 149) 1 ∧ fsign (ofInt k) = false := by
  unfold ofInt
  rw [fmag_ofSignMag (roundMag_lt _ _), fsign_ofSignMag (roundMag_lt _ _)]
  simp

/-- Every integer below 2^24 is a magnitude: 24 significant bits hold it. -/
theorem exists_magUnits_eq {k : Nat} (h : k < 2 ^ 24) : ∃ m, m < infMag ∧ magUnits m = k * 2 ^ 149 := by
  rcases Nat.eq_zero_or_pos k with rfl | hk
  · exact ⟨0, by decide, by decide⟩
  have hl : Nat.log2 k < 24 := (Nat.log2_lt hk.ne').2 h
  have h1 : 2 ^ Nat.log2 k ≤ k := Nat.log2_self_le hk.ne'
  have h2 : k < 2 ^ (Nat.log2 k + 1) := Nat.lt_log2_self
  generalize Nat.log2 k = l at *
  have e : (2 : Nat) ^ 23 = 2 ^ l * 2 ^ (23 - l) := by rw [← Nat.pow_add]; congr 1; omega
  have e' : (2 : Nat) ^ 24 = 2 ^ (l + 1) * 2 ^ (23 - l) := by rw [← Nat.pow_add]; congr 1; omega
  have lo : 2 ^ 23 ≤ k * 2 ^ (23 - l) := e ▸ Nat.mul_le_mul_right _ h1
  have hi : k * 2 ^ (23 - l) ≤ 2 ^ 24 := e' ▸ Nat.mul_le_mul_right _ h2.le
  refine ⟨(126 + l) * 2 ^ 23 + k * 2 ^ (23 - l), ?_, ?_⟩
  · unfold infMag
    omega
  · rw [magUnits_shift (.inr lo) hi, Nat.mul_assoc, ← Nat.pow_add]
    congr 2
    omega

/-- `ofInt` is exact below 2^24 (R7). -/
theorem ofInt_exact {k : Int} (h : k.natAbs < 2 ^ 24) :
    isFinite (ofInt k) = true ∧ fsign (ofInt k) = decide (k < 0) ∧
      magUnits (fmag (ofInt k)) = k.natAbs * 2 ^ 149 := by
  obtain ⟨m, hm, e⟩ := exists_magUnits_eq h
  have hx := roundMag_exact (d := 1) (by decide) hm.le
  rw [Nat.mul_one, e] at hx
  have hf : fmag (ofInt k) = m := by rw [ofInt, fmag_ofSignMag (roundMag_lt _ _), hx]
  exact ⟨by simpa [isFinite, hf] using hm, fsign_ofSignMag (roundMag_lt _ _), by rw [hf, e]⟩

/-- `F(M)` is exact for the widths R100 admits. -/
theorem ofInt_maxCode_exact : ∀ n, 1 ≤ n → n ≤ 16 →
    magUnits (roundMag ((2 ^ n - 1) * 2 ^ 149) 1) = (2 ^ n - 1) * 2 ^ 149 ∧
      roundMag ((2 ^ n - 1) * 2 ^ 149) 1 < infMag ∧ 0 < roundMag ((2 ^ n - 1) * 2 ^ 149) 1 := by
  intro n h1 h2
  interval_cases n <;> decide +kernel

/-- A magnitude divided by itself is 1.0. -/
theorem roundMag_div_self {S : Nat} (hS : 0 < S) :
    roundMag (magUnits S * 2 ^ 149) (magUnits S) = 0x3F800000 := by
  have := roundMag_exact (m := 0x3F800000) (magUnits_pos hS) (by decide)
  rwa [show magUnits 0x3F800000 = 2 ^ 149 by decide +kernel, Nat.mul_comm] at this

/-- The integer that a finite value is truncated to, by its sign and magnitude. -/
theorem trunc_eq {x : F} (h : isFinite x = true) :
    trunc x = if fsign x then -((magUnits (fmag x) / 2 ^ 149 : Nat) : ℤ)
      else ((magUnits (fmag x) / 2 ^ 149 : Nat) : ℤ) := if_pos h

/-- All that `f2x` is, on a legal range: the code of the clamped value's distance from `lo`; and its
scaled value is not negative, so nothing is cut off at 0. -/
theorem f2x_eq {v lo hi : F} {n : Nat} (hv : isNaN v = false) (L : LegalRange lo hi) (h1 : 1 ≤ n)
    (h2 : n ≤ 16) :
    f2x v lo hi n = codeOf (fmag (fsub hi lo)) n
        (roundMag (signedUnits (clampR v lo hi) - signedUnits lo).toNat 1) ∧
      0 ≤ trunc (fmul (fdiv (fsub (clampR v lo hi) lo) (fsub hi lo)) (ofInt (2 ^ n - 1 : Nat))) := by
  obtain ⟨cf, c1, c2⟩ := clampR_range hv L
  generalize hc : clampR v lo hi = c at *
  obtain ⟨m1, m2⟩ := fsub_nonneg cf L.finite_lo c1
  have hle : fmag (fsub c lo) ≤ fmag (fsub hi lo) := by
    rw [m1, L.span_mag]
    exact roundMag_mono (by decide) (by decide) (by omega)
  have hfin : isFinite (fsub c lo) = true := by
    have := L.finite_span
    simp only [isFinite, decide_eq_true_eq] at *
    omega
  obtain ⟨e1, e2, -⟩ := ofInt_maxCode_exact n h1 h2
  obtain ⟨o1, o2⟩ := ofInt_natCast (2 ^ n - 1)
  have hM : isFinite (ofInt (2 ^ n - 1 : Nat)) = true := by
    simp only [isFinite, decide_eq_true_eq, o1]
    exact e2
  have hu : f2x v lo hi n =
      (trunc (fmul (fdiv (fsub c lo) (fsub hi lo)) (ofInt (2 ^ n - 1 : Nat)))).toNat := by
    rw [f2x_of_rangeOk L.ok, hc]
  have hD := fdiv_finite hfin L.finite_span (by have := L.span_pos; omega)
  generalize fdiv (fsub c lo) (fsub hi lo) = D at *
  have hDmag : fmag D = roundMag (magUnits (fmag (fsub c lo)) * 2 ^ 149)
      (magUnits (fmag (fsub hi lo))) := by rw [hD, fmag_ofSignMag (roundMag_lt _ _)]
  have hDle : fmag D ≤ 0x3F800000 := by
    rw [hDmag]
    rw [← roundMag_div_self L.span_pos]
    exact roundMag_mono (magUnits_pos L.span_pos) (magUnits_pos L.span_pos)
      (Nat.mul_le_mul_right _ (Nat.mul_le_mul_right _ (magUnits_strictMono.monotone hle)))
  have hDfin : isFinite D = true := by
    simp only [isFinite, decide_eq_true_eq]
    exact lt_of_le_of_lt hDle (by decide)
  have hQ := fmul_finite hDfin hM
  rw [o1, e1] at hQ
  generalize fmul D (ofInt (2 ^ n - 1 : Nat)) = Q at *
  have hQmag : fmag Q = roundMag (magUnits (fmag D) * ((2 ^ n - 1) * 2 ^ 149)) (2 ^ 149) := by
    rw [hQ, fmag_ofSignMag (roundMag_lt _ _)]
  have hQfin : isFinite Q = true := by
    simp only [isFinite, decide_eq_true_eq, hQmag]
    refine lt_of_le_of_lt ?_ e2
    have hex := roundMag_exact (m := roundMag ((2 ^ n - 1) * 2 ^ 149) 1)
      (d := 2 ^ 149) (by positivity) e2.le
    rw [e1] at hex
    refine le_trans (roundMag_mono (by positivity) (by positivity) ?_) hex.le
    refine Nat.mul_le_mul_right _ ?_
    rw [Nat.mul_comm ((2 ^ n - 1) * 2 ^ 149)]
    refine Nat.mul_le_mul_right _ ?_
    rw [show (2 : Nat) ^ 149 = magUnits 0x3F800000 by decide +kernel]
    exact magUnits_strictMono.monotone hDle
  have hcode : codeOf (fmag (fsub hi lo)) n (roundMag (signedUnits c - signedUnits lo).toNat 1) =
      magUnits (fmag Q) / 2 ^ 149 := by rw [hQmag, hDmag, m1, codeOf]
  have hsgn : fsign Q = true → magUnits (fmag Q) = 0 := by
    intro hs
    rw [hQ, fsign_ofSignMag (roundMag_lt _ _), o2, hD, fsign_ofSignMag (roundMag_lt _ _),
      L.span_sign] at hs
    simp only [Bool.bne_false] at hs
    have hnot : ¬signedUnits lo < signedUnits c := fun h => by
      rw [m2 h] at hs
      exact absurd hs (by decide)
    rw [hQmag, hDmag, m1, show (signedUnits c - signedUnits lo).toNat = 0 by omega,
      roundMag_zero (by decide), show magUnits 0 = 0 from rfl, Nat.zero_mul,
      roundMag_zero (magUnits_pos L.span_pos), show magUnits 0 = 0 from rfl, Nat.zero_mul,
      roundMag_zero (by positivity)]
    rfl
  have htr : trunc Q = ((magUnits (fmag Q) / 2 ^ 149 : Nat) : ℤ) := by
    rw [trunc_eq hQfin]
    split
    · rename_i hs
      rw [hsgn hs]
      simp
    · rfl
  refine ⟨?_, by rw [htr]; positivity⟩
  rw [hcode]
  rw [hu, htr, Int.toNat_natCast]

/-! ## Devices (R26) -/

/-- The record written is the record read. -/
@[simp] theorem State.setDevice_device_self (s : State) (a : BitVec 8) (d : Device) :
    (s.setDevice a d).device a = d := by
  simp [State.setDevice, State.device]

/-- Writing one record leaves every other. -/
theorem State.setDevice_device_ne (s : State) (d : Device) {a b : BitVec 8} (h : b ≠ a) :
    (s.setDevice a d).device b = s.device b := by
  have : a.toNat ≠ b.toNat := fun e => h (BitVec.eq_of_toNat_eq e.symm)
  simp [State.setDevice, State.device, this]

/-! ## The PID step (R186) -/

/-- All that a PID call can do: gated, positional or incremental. -/
theorem pidStep_cases (c : PidCtx) (x y : F) :
    (pidGated (pidRecord c x y) = true ∧ pidStep c x y = (pidRecord c x y, 0)) ∨
    (pidGated (pidRecord c x y) = false ∧ c.variant = .positional ∧
      pidStep c x y = (pidShift (pidPositional (pidRecord c x y)),
        (pidPositional (pidRecord c x y)).posOut)) ∨
    (pidGated (pidRecord c x y) = false ∧ c.variant = .incremental ∧
      pidStep c x y = (pidShift (pidIncremental (pidRecord c x y)),
        (pidIncremental (pidRecord c x y)).deltaOut)) := by
  unfold pidStep
  cases h : pidGated (pidRecord c x y) with
  | true => exact .inl ⟨rfl, by simp [h]⟩
  | false =>
    cases hv : c.variant with
    | positional => exact .inr (.inl ⟨rfl, rfl, by simp [h]⟩)
    | incremental => exact .inr (.inr ⟨rfl, rfl, by simp [h]⟩)

end Sys2Proof.Machine
end

