-- ==== Sys2Proof/Laws/PerInstr.lean ====
section
/-! SUPPORT. One family of statements made per instruction: the shape of every encoding. -/

namespace Sys2Proof.Laws.EncodeShape

/-- The command of an operation is as many words as its format has (R62, R64), and its header word
carries its opcode (R61, R65). -/
def Statement (i : Instr) : Prop :=
  (encode i).length = 1 + i.opcode.format.words ∧ hOpc ((encode i).headD 0) = i.opcode.code

theorem f2x (n : BitVec 8) (v lo hi : F) :
    Statement (.f2x n v lo hi) :=
  ⟨rfl, hOpc_headerWord _ _ _ _⟩

theorem x2f (n : BitVec 8) (code : Word) (lo hi : F) :
    Statement (.x2f n code lo hi) :=
  ⟨rfl, hOpc_headerWord _ _ _ _⟩

theorem app16 (v : BitVec 16) :
    Statement (.app16 v) :=
  ⟨rfl, hOpc_headerWord _ _ _ _⟩

theorem app32 (v : BitVec 32) :
    Statement (.app32 v) :=
  ⟨rfl, hOpc_headerWord _ _ _ _⟩

theorem fbrst :
    Statement .fbrst :=
  ⟨rfl, hOpc_headerWord _ _ _ _⟩

theorem fbrd :
    Statement .fbrd :=
  ⟨rfl, hOpc_headerWord _ _ _ _⟩

theorem svduty (a : BitVec 8) (duty : F) :
    Statement (.svduty a duty) :=
  ⟨rfl, hOpc_headerWord _ _ _ _⟩

theorem svcur (a : BitVec 8) (current : F) :
    Statement (.svcur a current) :=
  ⟨rfl, hOpc_headerWord _ _ _ _⟩

theorem svbrk (a : BitVec 8) (current : F) :
    Statement (.svbrk a current) :=
  ⟨rfl, hOpc_headerWord _ _ _ _⟩

theorem svrpm (a : BitVec 8) (velocity : F) :
    Statement (.svrpm a velocity) :=
  ⟨rfl, hOpc_headerWord _ _ _ _⟩

theorem svpos (a : BitVec 8) (position : F) :
    Statement (.svpos a position) :=
  ⟨rfl, hOpc_headerWord _ _ _ _⟩

theorem svorg (a : BitVec 8) (mode : BitVec 2) :
    Statement (.svorg a mode) :=
  ⟨rfl, hOpc_headerWord _ _ _ _⟩

theorem svpsa (a : BitVec 8) (position : F) (spd : BitVec 16) (acc : BitVec 32) :
    Statement (.svpsa a position spd acc) :=
  ⟨rfl, hOpc_headerWord _ _ _ _⟩

theorem mitent (a : BitVec 8) :
    Statement (.mitent a) :=
  ⟨rfl, hOpc_headerWord _ _ _ _⟩

theorem mitorg (a : BitVec 8) :
    Statement (.mitorg a) :=
  ⟨rfl, hOpc_headerWord _ _ _ _⟩

theorem mitext (a : BitVec 8) :
    Statement (.mitext a) :=
  ⟨rfl, hOpc_headerWord _ _ _ _⟩

theorem mitcmd (a : BitVec 8) (model : BitVec 3) (p v kp kd t : F) :
    Statement (.mitcmd a model p v kp kd t) :=
  ⟨rfl, hOpc_headerWord _ _ _ _⟩

theorem decode (a : BitVec 8) (fmt : BitVec 1) (w0 w1 : Word) :
    Statement (.decode a fmt w0 w1) :=
  ⟨rfl, hOpc_headerWord _ _ _ _⟩

theorem tlmrd (a : BitVec 8) (field : BitVec 3) :
    Statement (.tlmrd a field) :=
  ⟨rfl, hOpc_headerWord _ _ _ _⟩

theorem tlmsnap (a : BitVec 8) :
    Statement (.tlmsnap a) :=
  ⟨rfl, hOpc_headerWord _ _ _ _⟩

theorem devreg (a : BitVec 8) (model : BitVec 3) :
    Statement (.devreg a model) :=
  ⟨rfl, hOpc_headerWord _ _ _ _⟩

theorem devunreg (a : BitVec 8) (conflict : BitVec 1) :
    Statement (.devunreg a conflict) :=
  ⟨rfl, hOpc_headerWord _ _ _ _⟩

theorem devfind (a : BitVec 8) :
    Statement (.devfind a) :=
  ⟨rfl, hOpc_headerWord _ _ _ _⟩

theorem pidinit (p : BitVec 8) (variant : BitVec 1) (maxOutput integralLimit deadBand maxErr kp ki kd : F) :
    Statement (.pidinit p variant maxOutput integralLimit deadBand maxErr kp ki kd) :=
  ⟨rfl, hOpc_headerWord _ _ _ _⟩

theorem pidgain (p : BitVec 8) (kp ki kd : F) :
    Statement (.pidgain p kp ki kd) :=
  ⟨rfl, hOpc_headerWord _ _ _ _⟩

theorem pidclr (p : BitVec 8) :
    Statement (.pidclr p) :=
  ⟨rfl, hOpc_headerWord _ _ _ _⟩

theorem pidcalc (p : BitVec 8) (target measured : F) :
    Statement (.pidcalc p target measured) :=
  ⟨rfl, hOpc_headerWord _ _ _ _⟩

end Sys2Proof.Laws.EncodeShape
end

