-- ==== Sys2Proof/Tests/Slice0.lean ====
section
/-! SUPPORT. The model's own tests. Every word and expected value is taken from
spec/95_test_vectors.md (its vector is named in the comment) or worked out by hand from the rule
named. -/

namespace Sys2Proof.Tests

open Sys2Proof Sys2Proof.Machine Sys2Proof.Claims

/-! ## Well-formedness: each check and the term that it refuses (R66) -/

theorem test_wf_svorg_reserved_mode : WellFormed (.svorg 0x68 3) = false := by decide
theorem test_wf_svorg_modes : WellFormed (.svorg 0x68 0) && WellFormed (.svorg 0x68 2) = true := by
  decide
theorem test_wf_tlmrd_reserved_fields :
    WellFormed (.tlmrd 1 5) || WellFormed (.tlmrd 1 6) || WellFormed (.tlmrd 1 7) = false := by decide
theorem test_wf_tlmrd_fields : WellFormed (.tlmrd 1 0) && WellFormed (.tlmrd 1 4) = true := by decide
/-- Model 7 is a legal command word: it decodes, and faults when performed (R66). -/
theorem test_wf_model_seven : WellFormed (.devreg 5 7) && WellFormed (.mitcmd 1 7 0 0 0 0 0) = true := by
  decide

/-! ## Decoding: one word of each row, written from the bits of R61 and R65 -/

/-- F1. -/
theorem test_decode_f2x : decode [0x10100000, 0x00000000, 0xC1480000, 0x41480000] =
    .ok (.f2x 16 0 0xC1480000 0x41480000) := by decide
/-- X8. -/
theorem test_decode_x2f : decode [0x110C0000, 0x00000333, 0x00000000, 0x43FA0000] =
    .ok (.x2f 12 0x333 0 0x43FA0000) := by decide
/-- B5: bits 31:16 of the operand word are ignored. -/
theorem test_decode_app16 : decode [0x12000000, 0xFFFF8000] = .ok (.app16 0x8000) ∧
    decode [0x12000000, 0x00008000] = .ok (.app16 0x8000) := by decide
/-- B8. -/
theorem test_decode_app32 : decode [0x13000000, 0x15752A00] = .ok (.app32 360000000) := by decide
/-- B7. -/
theorem test_decode_fbrst : decode [0x14000000] = .ok .fbrst := by decide
/-- B1. -/
theorem test_decode_fbrd : decode [0x15000000] = .ok .fbrd := by decide
/-- SV-D1. -/
theorem test_decode_svduty : decode [0x20000001, 0x3F000000] = .ok (.svduty 1 0x3F000000) := by decide
/-- SV-C1. -/
theorem test_decode_svcur : decode [0x21000068, 0x453B8000] = .ok (.svcur 0x68 0x453B8000) := by decide
/-- SV-B1. -/
theorem test_decode_svbrk : decode [0x22000002, 0x40200000] = .ok (.svbrk 2 0x40200000) := by decide
/-- SV-R1. -/
theorem test_decode_svrpm : decode [0x23000068, 0x449A5666] = .ok (.svrpm 0x68 0x449A5666) := by decide
/-- SV-P5. -/
theorem test_decode_svpos : decode [0x240000FF, 0x43340000] = .ok (.svpos 0xFF 0x43340000) := by decide
/-- SV-O3, FL21. -/
theorem test_decode_svorg : decode [0x25020068] = .ok (.svorg 0x68 2) ∧
    decode [0x25030068] = .error .reservedMinor := by decide
/-- SV-A2. -/
theorem test_decode_svpsa : decode [0x26000068, 0x43340000, 0xFFFFEC78, 0xFFFFFFFF] =
    .ok (.svpsa 0x68 0x43340000 0xEC78 0xFFFFFFFF) := by decide
/-- M7. -/
theorem test_decode_mitent : decode [0x30000001] = .ok (.mitent 1) := by decide
/-- M8. -/
theorem test_decode_mitorg : decode [0x31000001] = .ok (.mitorg 1) := by decide
/-- M9. -/
theorem test_decode_mitext : decode [0x32000001] = .ok (.mitext 1) := by decide
/-- M11, FL27. -/
theorem test_decode_mitcmd :
    decode [0x33010001, 0x40000000, 0xC0400000, 0x42480000, 0x3F000000, 0x3F800000] =
      .ok (.mitcmd 1 1 0x40000000 0xC0400000 0x42480000 0x3F000000 0x3F800000) ∧
    decode [0x33080001, 0, 0, 0, 0, 0] = .error .fieldNotZero := by decide
/-- T1, FL25. -/
theorem test_decode_decode :
    decode [0x40010068, 0x03E8FF38, 0x01F41900] = .ok (.decode 0x68 1 0x03E8FF38 0x01F41900) ∧
    decode [0x40020068, 0, 0] = .error .fieldNotZero := by decide
/-- K2, FL22. -/
theorem test_decode_tlmrd : decode [0x41040068] = .ok (.tlmrd 0x68 4) ∧
    decode [0x41050001] = .error .reservedMinor := by decide
/-- RG11. -/
theorem test_decode_tlmsnap : decode [0x42000068] = .ok (.tlmsnap 0x68) := by decide
/-- RG6. -/
theorem test_decode_devreg : decode [0x50060000] = .ok (.devreg 0 6) := by decide
/-- RG3, FL28. -/
theorem test_decode_devunreg : decode [0x51010068] = .ok (.devunreg 0x68 1) ∧
    decode [0x51000168] = .error .fieldNotZero := by decide
/-- RG4. -/
theorem test_decode_devfind : decode [0x52000068] = .ok (.devfind 0x68) := by decide
/-- FL12, FL26. -/
theorem test_decode_pidinit :
    decode [0x60000000, 0xBF800000, 0x3F800000, 0, 0, 0x3F800000, 0, 0] =
      .ok (.pidinit 0 0 0xBF800000 0x3F800000 0 0 0x3F800000 0 0) ∧
    decode [0x60020000, 0, 0, 0, 0, 0, 0, 0] = .error .fieldNotZero := by decide
/-- V7. -/
theorem test_decode_pidgain : decode [0x61000000, 0x40000000, 0, 0] =
    .ok (.pidgain 0 0x40000000 0 0) := by decide
/-- FL15. -/
theorem test_decode_pidclr : decode [0x62000100] = .ok (.pidclr 1) := by decide
/-- FL14. -/
theorem test_decode_pidcalc : decode [0x63000000, 0x3F800000, 0] =
    .ok (.pidcalc 0 0x3F800000 0) := by decide
/-- FL18 to FL20: reserved opcodes are commands of one word. -/
theorem test_decode_reserved : decode [0x00000000] = .error .reservedOpcode ∧
    decode [0x27000001] = .error .reservedOpcode ∧ decode [0xFFFFFFFF] = .error .reservedOpcode := by
  decide
/-- FL23, FL24: must-be-zero fields; the length still follows the opcode (R62). -/
theorem test_decode_must_be_zero : decode [0x14000001] = .error .fieldNotZero ∧
    decode [0x20010001, 0x3F000000] = .error .fieldNotZero ∧
    nextCommand [0x20010001, 0x3F000000, 7] = some ([0x20010001, 0x3F000000], [7]) := by decide
/-- A command whose words have not all arrived is not taken (R60). -/
theorem test_fetch_incomplete : nextCommand [0x20000001] = none ∧ nextCommand [] = none := by decide
/-- The encoder writes SV-A2's words back, with zeros in the ignored half word. -/
theorem test_encode_svpsa : encode (.svpsa 0x68 0x43340000 0xEC78 0xFFFFFFFF) =
    [0x26000068, 0x43340000, 0x0000EC78, 0xFFFFFFFF] := by decide
/-- The header word is bits 31:0 and operand word k stands k words above it. -/
theorem test_table_word : decodeTableWord 32 0x52000068 = some (.devfind 0x68) ∧
    decodeTableWord 32 0x25030068 = none ∧
    decodeTableWord 64 0x3F00000020000001 = some (.svduty 1 0x3F000000) := by decide

/-! ## Float arithmetic: results that IEEE 754 fixes, worked out by hand -/

/-- 36000 and 100000 as floats (95_test_vectors.md; 100000 = 0x186A0 is 1.52587890625 x 2^16). -/
theorem test_ofInt : ofInt 36000 = 0x470CA000 ∧ ofInt (-70000) = 0xC788B800 ∧
    ofInt 100000 = c100000 ∧ ofInt 60000 = 0x476A6000 ∧ ofInt 0 = 0 := by decide +kernel
/-- The constants of R7 and of the limits are the correctly rounded quotients and integers. -/
theorem test_constants : fdiv (ofInt 1) (ofInt 10) = c0_1 ∧ fdiv (ofInt 1) (ofInt 100) = c0_01 ∧
    ofInt 10 = c10 ∧ ofInt 100000 = c1e5 ∧ ofInt 10000 = c1e4 ∧ ofInt 1000 = c1e3 ∧ ofInt 1 = c1 ∧
    ofInt 2 = c2 ∧ ofInt 5 = c5 ∧ fdiv (ofInt 25) (ofInt 2) = c12_5 ∧ ofInt 500 = c500 ∧
    ofInt 36000 = c36000 ∧ ofInt 60000 = c60000 := by decide +kernel
/-- 1 + 2^-24 is a tie and goes to the even 1; the next float of the small operand goes up. -/
theorem test_fadd_ties_to_even : fadd 0x3F800000 0x33800000 = 0x3F800000 ∧
    fadd 0x3F800000 0x33800001 = 0x3F800001 ∧ fadd 0x3F800001 0x33800000 = 0x3F800002 := by
  decide +kernel
/-- Twice the largest float is infinity; the smallest subnormal halves to zero (a tie). -/
theorem test_overflow_underflow : fadd 0x7F7FFFFF 0x7F7FFFFF = 0x7F800000 ∧
    fmul 0x00000001 0x3F000000 = 0 ∧ fmul 0x00000003 0x3F000000 = 0x00000002 := by decide +kernel
/-- Signed zeros: x - x is +0, -0 + -0 is -0, and 0 * -10 is -0 (V3). -/
theorem test_signed_zero : fsub 0x41200000 0x41200000 = 0 ∧
    fadd 0x80000000 0x80000000 = 0x80000000 ∧ fmul 0 0xC1200000 = 0x80000000 ∧
    feq 0 0x80000000 = true ∧ flt 0x80000000 0 = false := by decide +kernel
/-- R5: every finite limit above zero, the smallest and the largest included, and no other. -/
theorem test_limitOk : Config.limitOk 0x00000001 = true ∧ Config.limitOk 0x7F000000 = true ∧
    Config.limitOk 0x7F7FFFFF = true ∧ Config.limitOk 0 = false ∧ Config.limitOk 0x7F800000 = false ∧
    Config.limitOk 0xBF800000 = false ∧ Config.limitOk 0x7FC00000 = false := by decide

/-- R10: trunc(2.9) = 2, trunc(-2.9) = -2, trunc(-0.5) = 0. -/
theorem test_trunc : trunc 0x4039999A = 2 ∧ trunc 0xC039999A = -2 ∧ trunc 0xBF000000 = 0 := by
  decide +kernel
/-- A comparison with NaN is false except `!=`. -/
theorem test_nan_comparisons : flt 0x7FC00000 0 = false ∧ fge 0x7FC00000 0 = false ∧
    feq 0x7FC00000 0x7FC00000 = false ∧ fne 0x7FC00000 0x7FC00000 = true := by decide

/-! ## Operations, given as command words on the foreground port

`s0` is the reset state with the table `TESTCFG` of 95_test_vectors.md section 2, `N_PID = 2`, and
a transport that answers 1, then 2. -/

/-- `TESTCFG`. -/
def testcfg : Vector ModelRow 7 :=
  #v[⟨0x42480000, 0x42820000⟩, ⟨0x42340000, 0x41700000⟩, ⟨0x42480000, 0x41C80000⟩,
     ⟨0x42980000, 0x41400000⟩, ⟨0x42480000, 0x41900000⟩, ⟨0x41000000, 0x43100000⟩,
     ⟨0x42160000, 0x42000000⟩]

/-- The test instance after reset. -/
def s0 : State :=
  { State.reset with limits := testcfg, pid := [PidCtx.reset, PidCtx.reset], answers := [1, 2] }

/-- `s0` with device 0x68 registered as the given model. -/
def s68 (m : Fin 7) : State := s0.setDevice 0x68 (Device.fresh m)

/-- `s0` with context 0 as `PIDINIT` leaves it. -/
def sPid (v : Variant) (mo il db me kp ki kd : F) : State :=
  s0.setPid 0 (PidCtx.construct v mo il db me kp ki kd)

/-- The state an outcome leads to, or the reset state where there is none. -/
def Result.state : Result → State
  | .next s => s
  | .fault _ => State.reset
  | .refused _ => State.reset

/-- The response to a command. -/
def answer (cmd : List Word) (s : State) : Option Response :=
  match perform cmd s with
  | .next t => t.responses.head?.map (·.2)
  | .fault _ => none
  | .refused _ => none

/-- The frame that a command sends: identifier, format, length, bytes. -/
def frame (cmd : List Word) (s : State) : Option (Nat × Nat × Nat × List Nat) :=
  match perform cmd s with
  | .next t => t.frames.head?.map fun f =>
      (f.id.toNat, f.ext.toNat, f.len.toNat, (f.data.toList.take f.len.toNat).map (·.toNat))
  | .fault _ => none
  | .refused _ => none

/-- Why a command is refused. -/
def refusal (cmd : List Word) (s : State) : Option Refusal :=
  match perform cmd s with
  | .next _ => none
  | .fault _ => none
  | .refused r => some r

/-- F6, F33. -/
theorem test_f2x : answer [0x10100000, 0x3F800000, 0xC1480000, 0x41480000] s0 =
      some { r0 := 0x8A3C } ∧
    answer [0x10100000, 0x7F800000, 0xC1480000, 0x41480000] s0 = some { r0 := 0xFFFF } := by
  decide +kernel
/-- FL5, FL8: the order of the checks; and a refused NaN. -/
theorem test_f2x_checks : answer [0x10000000, 0x3F800000, 0, 0] s0 = some { st := 4 } ∧
    answer [0x10100000, 0x7FC00000, 0, 0] s0 = some { st := 2 } ∧
    refusal [0x10100000, 0x7FC00000, 0xC1480000, 0x41480000] s0 = some .nanOperand := by
  decide +kernel
/-- X7, X10. -/
theorem test_x2f : answer [0x11100000, 0x1234, 0xC1480000, 0x41480000] s0 =
      some { r0 := 0xC12B8EA4 } ∧
    answer [0x110C0000, 0x999, 0xC2480000, 0x42480000] s0 = some { r0 := 0x41200004 } := by
  decide +kernel
/-- X21: only the low bits of the code count; FL7. -/
theorem test_x2f_mask : answer [0x11040000, 0xFFFFFFFF, 0, 0x3F800000] s0 =
      some { r0 := 0x3F800000 } ∧
    answer [0x11FF0000, 0, 0, 0x3F800000] s0 = some { st := 4 } := by decide +kernel
/-- B2: two bytes, big-endian, at the cursor. -/
theorem test_app16 : (perform [0x12000000, 0x1234] s0 |> Result.state).fb = [(0, 0x12), (1, 0x34)] ∧
    (perform [0x12000000, 0x1234] s0 |> Result.state).cur = 2 := by decide +kernel
/-- Section 3.3: a 16-bit append at `CUR` = 7 is refused, at 6 it fills the buffer. -/
theorem test_app16_bound : refusal [0x12000000, 0x1234] { s0 with cur := 7 } = some .fbOverrun ∧
    (perform [0x12000000, 0x1234] { s0 with cur := 6 } |> Result.state).fb =
      [(6, 0x12), (7, 0x34)] := by decide +kernel
/-- B4: unaligned. -/
theorem test_app32 :
    (perform [0x13000000, 0xFFFFFFFF] { s0 with fb := [(0, 0x12), (1, 0x34)], cur := 2 } |>
      Result.state).fb =
      [(0, 0x12), (1, 0x34), (2, 0xFF), (3, 0xFF), (4, 0xFF), (5, 0xFF)] := by decide +kernel
/-- Section 3.3: at `CUR` = 5 refused. -/
theorem test_app32_bound : refusal [0x13000000, 0xFFFFFFFF] { s0 with cur := 5 } =
    some .fbOverrun := by decide +kernel
/-- B7. -/
theorem test_fbrst :
    (perform [0x14000000] { s0 with fb := [(0, 0x12)], cur := 2 } |> Result.state).fb = [] ∧
    (perform [0x14000000] { s0 with fb := [(0, 0x12)], cur := 2 } |> Result.state).cur = 0 := by
  decide +kernel
/-- B6. -/
theorem test_fbrd : answer [0x15000000]
    { s0 with
      fb := [(0, 0x12), (1, 0x34), (2, 0xFF), (3, 0xFF), (4, 0xFF), (5, 0xFF), (6, 0x80)]
      cur := 8 } = some { r0 := 0x1234FFFF, r1 := 0xFFFF8000, r2 := 8 } := by decide +kernel
/-- SV-D7 (rounded before it is truncated), SV-D3 (clamped below). -/
theorem test_svduty : frame [0x20000001, 0x3727C5AC] s0 = some (1, 1, 4, [0, 0, 0, 1]) ∧
    frame [0x20000001, 0xBFC00000] s0 = some (1, 1, 4, [0xFF, 0xFE, 0x79, 0x60]) := by
  decide +kernel
/-- SV-C3. -/
theorem test_svcur : frame [0x21000068, 0xC788B800] s0 =
    some (0x168, 1, 4, [0xFC, 0x6C, 0x79, 0x00]) := by decide +kernel
/-- SV-B1. -/
theorem test_svbrk : frame [0x22000002, 0x40200000] s0 =
    some (0x202, 1, 4, [0x00, 0x00, 0x09, 0xC4]) := by decide +kernel
/-- SV-R2 (toward zero), SV-R4 (clamped). -/
theorem test_svrpm : frame [0x23000068, 0xC49A5666] s0 =
      some (0x368, 1, 4, [0xFF, 0xFF, 0xFB, 0x2E]) ∧
    frame [0x23000068, 0x48742400] s0 = some (0x368, 1, 4, [0x00, 0x01, 0x86, 0xA0]) := by
  decide +kernel
/-- SV-P3, SV-P4. -/
theorem test_svpos : frame [0x24000068, 0x42F6E9D5] s0 =
      some (0x468, 1, 4, [0x00, 0x12, 0xD6, 0x87]) ∧
    frame [0x24000000, 0xFF800000] s0 = some (0x400, 1, 4, [0xEA, 0x8A, 0xD6, 0x00]) := by
  decide +kernel
/-- SV-O2, FL21. -/
theorem test_svorg : frame [0x25010068] s0 = some (0x568, 1, 0, []) ∧
    answer [0x25030068] s0 = some { st := 1 } := by decide +kernel
/-- SV-A1, SV-A3. -/
theorem test_svpsa : frame [0x26000068, 0x43340000, 0x1388, 0x9C40] s0 =
      some (0x668, 1, 8, [0x00, 0x1B, 0x77, 0x40, 0x13, 0x88, 0x7F, 0xFF]) ∧
    frame [0x26000068, 0x49742400, 0, 0xFFFF8000] s0 =
      some (0x668, 1, 8, [0x15, 0x75, 0x2A, 0x00, 0x00, 0x00, 0x80, 0x00]) := by decide +kernel
/-- Section 7: -32769 is refused. -/
theorem test_svpsa_refused : refusal [0x26000068, 0x43340000, 0, 0xFFFF7FFF] s0 =
    some .accBelowInt16 := by decide +kernel
/-- M7, with the transport answering 1 (section 4.2). -/
theorem test_mitent : frame [0x30000001] s0 =
      some (1, 0, 8, [0xFF, 0xFF, 0xFF, 0xFF, 0xFF, 0xFF, 0xFF, 0xFC]) ∧
    answer [0x30000001] s0 = some { rc := 1 } := by decide +kernel
/-- M8. -/
theorem test_mitorg : frame [0x31000001] s0 =
    some (1, 0, 8, [0xFF, 0xFF, 0xFF, 0xFF, 0xFF, 0xFF, 0xFF, 0xFE]) := by decide +kernel
/-- M9. -/
theorem test_mitext : frame [0x32000001] s0 =
    some (1, 0, 8, [0xFF, 0xFF, 0xFF, 0xFF, 0xFF, 0xFF, 0xFF, 0xFD]) := by decide +kernel
/-- M5, M15. -/
theorem test_mitcmd :
    frame [0x33000001, 0x3F800000, 0x41200000, 0x42C80000, 0x3F800000, 0xC2020000] s0 =
      some (1, 0, 8, [0x8A, 0x3C, 0x99, 0x93, 0x33, 0x33, 0x33, 0xFF]) ∧
    frame [0x33050001, 0x40000000, 0xC0400000, 0x42480000, 0x3F000000, 0x3F800000] s0 =
      some (1, 0, 8, [0x94, 0x7A, 0x4F, 0xF1, 0x99, 0x19, 0x98, 0x0D]) := by decide +kernel
/-- FL9, and section 7: fault before refuse. -/
theorem test_mitcmd_model_seven : answer [0x33070001, 0x7FC00000, 0, 0, 0, 0] s0 =
      some { st := 3 } ∧
    refusal [0x33060001, 0, 0, 0, 0, 0x7FC00000] s0 = some .nanOperand := by decide +kernel
/-- T3. -/
theorem test_decode_servo :
    (perform [0x40010068, 0x80008000, 0x80008001] (s68 2) |> Result.state).device 0x68 =
      ⟨true, 2, 0xC54CCCCD, 0xC8A00000, 0xC3A3D70A, 0xFF80, 1⟩ := by decide +kernel
/-- MT5. -/
theorem test_decode_mit :
    (perform [0x40000068, 0x01123456, 0x789A2800] (s68 0) |> Result.state).device 0x68 =
      ⟨true, 0, 0xC12B8EA4, 0xC181D11C, 0x409CF3D0, 40, 0⟩ := by decide +kernel
/-- K5. -/
theorem test_tlmrd :
    answer [0x41030068] (s0.setDevice 0x68 ⟨true, 0, 1, 2, 3, 0xFF80, 1⟩) =
      some { r0 := 0xFFFFFF80, r1 := 1 } ∧
    answer [0x41000069] s0 = some {} := by decide +kernel
/-- T4; RG11. -/
theorem test_tlmsnap :
    answer [0x42000068] (s0.setDevice 0x68 ⟨true, 0, 0xBDCCCCCD, 0xC1200000, 0xBC23D70A, 0xFFFF, 255⟩) =
      some { r0 := 0xBDCCCCCD, r1 := 0xC1200000, r2 := 0xBC23D70A, r3 := 0xFFFFFFFF, r4 := 0x1FF } ∧
    answer [0x42000068] s0 = some {} := by decide +kernel
/-- RG1, RG2. -/
theorem test_devreg : answer [0x50020068] s0 = some { r0 := 0x068 } ∧
    answer [0x50040068] (s68 2) = some { r0 := 0x168 } := by decide +kernel
/-- FL11: the model is checked before the conflict. -/
theorem test_devreg_model : answer [0x50070068] (s68 2) = some { st := 3 } ∧
    ((perform [0x50020068] s0 |> Result.state).device 0x68).model = 2 := by decide +kernel
/-- RG3, RG8. -/
theorem test_devunreg :
    ((perform [0x51010068] (s68 2) |> Result.state).device 0x68).valid = true ∧
    ((perform [0x51000068] (s68 2) |> Result.state).device 0x68).valid = false := by decide +kernel
/-- RG4, RG5. -/
theorem test_devfind : answer [0x52000068] (s68 2) = some { r0 := 1, r1 := 2 } ∧
    answer [0x52000069] (s68 2) = some {} := by decide +kernel
/-- V6's construction; FL13. -/
theorem test_pidinit :
    (perform [0x60010100, 0x41400000, 0x40400000, 0, 0, 0x3F800000, 0x3F800000, 0] s0 |>
      Result.state).pid[1]? =
      some { PidCtx.reset with
        inited := true, variant := .incremental, maxOut := 0x41400000, intLim := 0x40400000
        kp := 0x3F800000, ki := 0x3F800000 } ∧
    answer [0x60000000, 0x3F800000, 0x7FC00000, 0, 0, 0, 0, 0] s0 = some { st := 5 } := by
  decide +kernel
/-- V7; FL16. -/
theorem test_pidgain :
    ((perform [0x61000000, 0x40000000, 0, 0]
      (sPid .positional 0x42C80000 0x42C80000 0 0 0x3F800000 0x3F800000 0) |>
      Result.state).pid[0]?.map fun c => (c.kp, c.ki, c.kd, c.maxOut)) =
      some (0x40000000, 0, 0, 0x42C80000) ∧
    answer [0x61000000, 0x3F800000, 0, 0] s0 = some { st := 6 } := by decide +kernel
/-- V7: the accumulator and histories go, the gains stay; FL17. -/
theorem test_pidclr :
    (perform [0x62000000]
      (s0.setPid 0
        { PidCtx.construct .positional 0x42C80000 0x42C80000 0 0 0x40000000 0 0 with
          iout := 0x40C00000, err := ⟨3, 4, 5⟩, lastPosOut := 9 }) |> Result.state).pid[0]? =
      some (PidCtx.construct .positional 0x42C80000 0x42C80000 0 0 0x40000000 0 0) ∧
    answer [0x62000200] s0 = some { st := 1 } := by decide +kernel
/-- V1 row 2, from the history and accumulator of row 1. -/
theorem test_pidcalc_positional :
    answer [0x63000000, 0x41200000, 0x40800000]
      (s0.setPid 0
        { PidCtx.construct .positional 0x42C80000 0x40800000 0 0 0x40000000 0x3F000000 0x3F800000 with
          err := ⟨0, 0x41200000, 0x41200000⟩, iout := 0x40800000 }) =
      some { r0 := 0x41400000 } := by decide +kernel
/-- V4 row 4, from the history of row 3. -/
theorem test_pidcalc_incremental :
    answer [0x63000000, 0x41200000, 0x40C00000]
      (s0.setPid 0
        { PidCtx.construct .incremental 0x42C80000 0x40800000 0 0 0x40000000 0x3F000000 0x3F800000 with
          err := ⟨0x41200000, 0x41200000, 0x41200000⟩, deltaLastout := 0x42000000 }) =
      some { r0 := 0x41800000 } := by decide +kernel
/-- V5 rows 2 and 4: gated strictly inside the dead band, not at its edge. -/
theorem test_pidcalc_gates :
    answer [0x63000000, 0x40000000, 0]
      (sPid .positional 0x447A0000 0x447A0000 0x40A00000 0x42480000 0x3F800000 0 0) =
      some { r0 := 0 } ∧
    answer [0x63000000, 0x40A00000, 0]
      (sPid .positional 0x447A0000 0x447A0000 0x40A00000 0x42480000 0x3F800000 0 0) =
      some { r0 := 0x40A00000 } ∧
    answer [0x63000000, 0x42480000, 0]
      (sPid .positional 0x447A0000 0x447A0000 0x40A00000 0x42480000 0x3F800000 0 0) =
      some { r0 := 0x42480000 } := by decide +kernel

/-! ## Faults, ports, steps -/

/-- FL30, FL31, FL33: a faulted block rejects, and `FAULT` keeps the first code. -/
theorem test_faulted : answer [0x15000000] { s0 with fault := 2 } = some { st := 0xFF } ∧
    answer [0x00000000] { s0 with fault := 2 } = some { st := 0xFF } ∧
    (perform [0x00000000] { s0 with fault := 2 } |> Result.state).fault = 2 ∧
    frame [0x30000001] { s0 with fault := 2 } = none := by decide +kernel
/-- FL29: only `DECODE` is legal on the receive port. -/
theorem test_receive_port : answer [0x14000000] { s0 with port := .rx } = some { st := 1 } ∧
    answer [0x40010005, 0, 0] { s0 with port := .rx } = some {} := by decide +kernel
/-- FL18: the step takes one word and raises `ILLEGAL_COMMAND`. -/
theorem test_step_illegal :
    (step (s0.withFetchWord 32 0) |> Result.state).fault = 1 ∧
    (step (s0.withFetchWord 32 0) |> Result.state).responses = [(.fg, { st := 1 })] := by
  decide +kernel
/-- The step right after `withFetchWord` performs that command (RG1). -/
theorem test_step_fetch_word :
    ((step (State.reset.withFetchWord 32 0x50020068) |> Result.state).device 0x68).valid = true := by
  decide +kernel
/-- FL35: reset clears the fault. -/
theorem test_step_reset :
    (step { s0 with fault := 2, turns := [.reset] } |> Result.state).fault = 0 ∧
    (step { s0 with fault := 2, turns := [.reset] } |> Result.state).pid.length = 2 := by
  decide +kernel

/-! ## Witnesses: states and operands that meet the hypotheses of the statements, clause by clause,
at the ends of the ranges the clauses speak of -/

/-- A state in which a port holds one command and has the turn. -/
def sTurn (p : Port) (ws : List Word) : State := ({ s0 with turns := [.command p] }).setWords p ws

/-- `s0` with the cursor at `c`. -/
def sCur (c : BitVec 4) : State := { s0 with cur := c }

/-- An initialised context with no gate, kp = 1 and limits 1000 (S1). -/
def ctx (v : Variant) : PidCtx := PidCtx.construct v 0x447A0000 0x447A0000 0 0 0x3F800000 0 0

/-- Every statement that assumes only `Ready s`. -/
theorem witness_Ready : Ready s0 := ⟨rfl, rfl⟩

theorem witness_ResetInputClearsBlock :
    ({ s0 with fault := 2, turns := [.reset] } : State).turns = .reset :: [] := rfl

theorem witness_StepRunsDecodedCommand :
    (sTurn .fg [0x20000001, 0x3F000000, 7]).turns = .command .fg :: [] ∧
    nextCommand ((sTurn .fg [0x20000001, 0x3F000000, 7]).words .fg) =
      some ([0x20000001, 0x3F000000], [7]) ∧
    decode [0x20000001, 0x3F000000] = .ok (.svduty 1 0x3F000000) := by decide

/-- Both ends of each of the seven reserved ranges of `OPC`. -/
theorem witness_ReservedOpcodesAreIllegal :
    (hOpc 0x00000000).toNat = 0x00 ∧ (hOpc 0x0F000000).toNat = 0x0F ∧
    (hOpc 0x16000000).toNat = 0x16 ∧ (hOpc 0x1F000000).toNat = 0x1F ∧
    (hOpc 0x27000000).toNat = 0x27 ∧ (hOpc 0x2F000000).toNat = 0x2F ∧
    (hOpc 0x34000000).toNat = 0x34 ∧ (hOpc 0x3F000000).toNat = 0x3F ∧
    (hOpc 0x43000000).toNat = 0x43 ∧ (hOpc 0x4F000000).toNat = 0x4F ∧
    (hOpc 0x53000000).toNat = 0x53 ∧ (hOpc 0x5F000000).toNat = 0x5F ∧
    (hOpc 0x64000000).toNat = 0x64 ∧ (hOpc 0xFFFFFFFF).toNat = 0xFF := by decide

theorem witness_IllegalCommandRaisesCauseOne :
    (sTurn .rx [0xFFFFFFFF, 7]).turns = .command .rx :: [] ∧
    nextCommand ((sTurn .rx [0xFFFFFFFF, 7]).words .rx) = some ([0xFFFFFFFF], [7]) ∧
    decode [0xFFFFFFFF] = .error .reservedOpcode ∧ (sTurn .rx [0xFFFFFFFF, 7]).fault = 0 := by decide

theorem witness_DecodeOfEncode : WellFormed (.svorg 0x68 2) = true := by decide

theorem witness_DecodedHeaderIsUnique : decode (0x33010001 :: [1, 2, 3, 4, 5]) =
    .ok (.mitcmd 1 1 1 2 3 4 5) := by decide

/-- The first clause in the first line; the second, with an illegal word, in the others. -/
theorem witness_FaultedBlockRejectsCommands : ({ s0 with fault := 6 } : State).fault ≠ 0 ∧
    ({ sTurn .fg [0x27000001] with fault := 1 } : State).fault ≠ 0 ∧
    ({ sTurn .fg [0x27000001] with fault := 1 } : State).turns = .command .fg :: [] ∧
    nextCommand (({ sTurn .fg [0x27000001] with fault := 1 } : State).words .fg) =
      some ([0x27000001], []) := by decide

theorem witness_OnlyResetLeavesFault :
    ({ sTurn .fg [0x15000000] with fault := 1 } : State).fault ≠ 0 ∧
    (∀ ts, ({ sTurn .fg [0x15000000] with fault := 1 } : State).turns ≠ .reset :: ts) ∧
    ∃ t, step { sTurn .fg [0x15000000] with fault := 1 } = .next t :=
  ⟨by decide, (fun _ h => by cases h), _, rfl⟩

theorem witness_ReceivePortTakesOnlyDecode :
    ({ s0 with port := .rx } : State).fault = 0 ∧ ({ s0 with port := .rx } : State).port = .rx ∧
    isDecode (.tlmsnap 0x68) = false := by decide

/-- Each of the six causes. -/
theorem witness_FaultConditionsRaiseTheirCause : Ready s0 ∧
    faultOf (.tlmrd 1 5) s0 = some .illegalCommand ∧
    faultOf (.f2x 12 0x3F800000 0 0) s0 = some .cfgRange ∧
    faultOf (.devreg 5 7) s0 = some .cfgModel ∧ faultOf (.x2f 17 0 0 0x3F800000) s0 = some .cfgWidth ∧
    faultOf (.pidinit 0 0 0xBF800000 0x3F800000 0 0 0 0 0) s0 = some .cfgPid ∧
    faultOf (.pidclr 1) s0 = some .pidUninit ∧ faultOf (.pidclr 2) s0 = some .illegalCommand :=
  ⟨⟨rfl, rfl⟩, by decide +kernel⟩

/-- No refusal: a faulted block, a fault condition, an append that fits. Then each of the three
reasons. -/
theorem witness_RefusedExactlyWhereSpecRefuses :
    (¬Ready { s0 with fault := 1 } ∧ faultOf (.svorg 1 3) s0 ≠ none ∧
      refusalOf (.app32 1) (sCur 4) = none) ∧
    (Ready (sCur 5) ∧ faultOf (.app32 1) (sCur 5) = none ∧
      refusalOf (.app32 1) (sCur 5) = some .fbOverrun) ∧
    (Ready s0 ∧ faultOf (.svpos 1 0x7FC00000) s0 = none ∧
      refusalOf (.svpos 1 0x7FC00000) s0 = some .nanOperand) ∧
    (Ready s0 ∧ faultOf (.svpsa 1 0 0 0xFFFF7FFF) s0 = none ∧
      refusalOf (.svpsa 1 0 0 0xFFFF7FFF) s0 = some .accBelowInt16) :=
  ⟨⟨fun h => absurd h.1 (by decide), by decide⟩, ⟨⟨rfl, rfl⟩, by decide⟩, ⟨⟨rfl, rfl⟩, by decide⟩,
    ⟨rfl, rfl⟩, by decide⟩

/-- One instance of each of the 27 operations that meets the hypotheses; those that need a context
are asked of `sPid`. -/
theorem witness_EveryOperationCompletes :
    Ready s0 ∧ Ready (sPid .positional 0x447A0000 0x447A0000 0 0 0x3F800000 0 0) ∧
    (∀ i ∈ ([.f2x 16 0 0xC1480000 0x41480000, .x2f 1 0 0 0x3F800000, .app16 1, .app32 1, .fbrst, .fbrd,
        .svduty 1 0, .svcur 1 0, .svbrk 1 0, .svrpm 1 0, .svpos 1 0x7F800000, .svorg 1 2,
        .svpsa 1 0 0 0xFFFF8000, .mitent 1, .mitorg 1, .mitext 1, .mitcmd 1 6 0 0 0 0 0,
        .decode 1 0 0 0, .tlmrd 1 4, .tlmsnap 1, .devreg 1 6, .devunreg 1 0, .devfind 1,
        .pidinit 1 1 0 0 0 0 0 0 0] : List Instr), faultOf i s0 = none ∧ refusalOf i s0 = none) ∧
    (∀ i ∈ ([.pidgain 0 0x7FC00000 0 0, .pidclr 0, .pidcalc 0 0x7FC00000 0] : List Instr),
      faultOf i (sPid .positional 0x447A0000 0x447A0000 0 0 0x3F800000 0 0) = none ∧
      refusalOf i (sPid .positional 0x447A0000 0x447A0000 0 0 0x3F800000 0 0) = none) :=
  ⟨⟨rfl, rfl⟩, ⟨rfl, rfl⟩, by decide +kernel, by decide +kernel⟩

theorem witness_OneResponseAndAtMostOneFrame : ∃ t, exec (.mitent 1) s0 = .next t := ⟨_, rfl⟩

/-- Legal and illegal widths and ranges (zero width, NaN, overflowing span), NaN and an infinity. -/
theorem witness_F2xResult :
    ((0 : BitVec 8).toNat = 0 ∧ 16 < (17 : BitVec 8).toNat) ∧
    (1 ≤ (1 : BitVec 8).toNat ∧ (16 : BitVec 8).toNat ≤ 16 ∧ ¬RangeLegal 0 0 ∧
      ¬RangeLegal 0xFF000000 0x7F000000) ∧
    (RangeLegal 0xC1480000 0x41480000 ∧ isNaN 0x7FC00000 = true ∧ isNaN 0x7F800000 = false) := by
  decide +kernel

theorem witness_X2fResult :
    ((0 : BitVec 8).toNat = 0 ∧ 16 < (255 : BitVec 8).toNat) ∧
    (1 ≤ (1 : BitVec 8).toNat ∧ (16 : BitVec 8).toNat ≤ 16 ∧ ¬RangeLegal 0x7FC00000 0x3F800000) ∧
    RangeLegal 0 0x00000001 := by decide +kernel

theorem witness_F2xEndpointsExact : RangeLegal 0xC1480000 0x41480000 := by decide +kernel

theorem witness_F2xClampsAndIsMonotonic : RangeLegal 0xC1480000 0x41480000 ∧
    isNaN 0x7F800000 = false ∧ isNaN 0x3F800000 = false ∧ fge 0x7F800000 0x41480000 = true ∧
    fge 0xC1480000 0xFF800000 = true ∧ fge 0x7F800000 0x3F800000 = true := by decide +kernel

theorem witness_X2fEndpointsOfSymmetricRange : RangeLegal (fneg 0x41480000) 0x41480000 := by
  decide +kernel

/-- The cursor at 6 and at 7. -/
theorem witness_App16Result : Ready (sCur 7) ∧ Ready (sCur 6) ∧ Memory.wf (sCur 6).fb = true ∧
    8 < (sCur 7).cur.toNat + 2 ∧ (sCur 6).cur.toNat + 2 ≤ 8 :=
  ⟨⟨rfl, rfl⟩, ⟨rfl, rfl⟩, by decide⟩

/-- The cursor at 4 and at 5. -/
theorem witness_App32Result : Ready (sCur 5) ∧ Ready (sCur 4) ∧ Memory.wf (sCur 4).fb = true ∧
    8 < (sCur 5).cur.toNat + 4 ∧ (sCur 4).cur.toNat + 4 ≤ 8 :=
  ⟨⟨rfl, rfl⟩, ⟨rfl, rfl⟩, by decide⟩

theorem witness_ServoFloatCommandsSendFrames : Ready s0 ∧ isNaN 0x7F800001 = true ∧
    isNaN 0x7F800000 = false := ⟨⟨rfl, rfl⟩, by decide⟩

theorem witness_SvorgSendsNoMode : Ready s0 ∧ (3 : BitVec 2) = 3 ∧ (2 : BitVec 2) ≠ 3 :=
  ⟨⟨rfl, rfl⟩, by decide⟩

/-- The acceleration at -32769 and at -32768. -/
theorem witness_SvpsaResult : Ready s0 ∧ isNaN 0x7FC00000 = true ∧ isNaN 0 = false ∧
    (0xFFFF7FFF : BitVec 32).toInt < -32768 ∧ -32768 ≤ (0xFFFF8000 : BitVec 32).toInt :=
  ⟨⟨rfl, rfl⟩, by decide⟩

theorem witness_ServoIntegersFitTheirBounds : isNaN 0xFF800000 = false := by decide

/-- The bounds themselves and the infinities. -/
theorem witness_SvposClampsBeforeScaling : Ready s0 ∧ fge (ofInt 36000) (ofInt 36000) = true ∧
    fge 0x7F800000 (ofInt 36000) = true ∧ fge (ofInt (-36000)) (ofInt (-36000)) = true ∧
    fge (ofInt (-36000)) 0xFF800000 = true := ⟨⟨rfl, rfl⟩, by decide +kernel⟩

/-- Model 7; model 6 with one NaN parameter and with none. -/
theorem witness_MitcmdResult : Ready s0 ∧ (7 : BitVec 3) = 7 ∧ (6 : BitVec 3) ≠ 7 ∧
    (isNaN 0 || isNaN 0 || isNaN 0 || isNaN 0 || isNaN 0x7FC00000) = true ∧
    (6 : BitVec 3).toNat = (6 : Fin 7).val ∧
    (isNaN 0 || isNaN 0 || isNaN 0 || isNaN 0 || isNaN 0x7F800000) = false :=
  ⟨⟨rfl, rfl⟩, by decide⟩

theorem witness_MitcmdCornerFrames : Ready s0 ∧ (5 : BitVec 3).toNat = (5 : Fin 7).val ∧
    (∀ x ∈ [(0 : F), 0x80000000, 0, 0x80000000, 0], x = 0 ∨ x = 0x80000000) ∧
    RangeLegal (fneg s0.limits[(5 : Fin 7)].vmax) s0.limits[(5 : Fin 7)].vmax ∧
    RangeLegal (fneg s0.limits[(5 : Fin 7)].tmax) s0.limits[(5 : Fin 7)].tmax :=
  ⟨⟨rfl, rfl⟩, rfl, by simp, by decide +kernel, by decide +kernel⟩

theorem witness_EncodersAreStateless :
    (Instr.mitent 1).opcode ∈ [Opcode.svduty, .svcur, .svbrk, .svrpm, .svpos, .svorg, .svpsa, .mitent,
      .mitorg, .mitext, .mitcmd] ∧ ∃ t, exec (.mitent 1) s0 = .next t := ⟨by decide, _, rfl⟩

/-- The statements about `DECODE` of a registered device, also on the receive port. -/
theorem witness_DecodeRecords : (s68 2).fault = 0 ∧ ((s68 2).device 0x68).valid = true ∧
    ({ s68 2 with port := .rx } : State).fault = 0 ∧
    (({ s68 2 with port := .rx } : State).device 0x68).valid = true := by decide +kernel

theorem witness_DecodeDropsUnknownSource : s0.fault = 0 ∧ (s0.device 0x05).valid = false := by
  decide +kernel

theorem witness_ReceiveAgentChangesOnlySnapshots :
    (sTurn .rx [0x40010005, 0, 0]).turns = .command .rx :: [] ∧
    ∃ t, step (sTurn .rx [0x40010005, 0, 0]) = .next t := ⟨rfl, _, rfl⟩

/-- Fields 5 and 4, an address with and one without a record. -/
theorem witness_TlmrdResult : Ready (s68 2) ∧ 5 ≤ (5 : BitVec 3).toNat ∧ (4 : BitVec 3).toNat ≤ 4 ∧
    ((s68 2).device 0x69).valid = false ∧ ((s68 2).device 0x68).valid = true :=
  ⟨⟨rfl, rfl⟩, by decide +kernel⟩

theorem witness_Tlmsnap_Devfind : Ready (s68 2) ∧ ((s68 2).device 0x69).valid = false ∧
    ((s68 2).device 0x68).valid = true := ⟨⟨rfl, rfl⟩, by decide +kernel⟩

/-- Model 7; model 6 on a registered and on a free address. -/
theorem witness_DevregResult : Ready (s68 2) ∧ (7 : BitVec 3) = 7 ∧ (6 : BitVec 3) ≠ 7 ∧
    ((s68 2).device 0x68).valid = true ∧ (6 : BitVec 3).toNat = (6 : Fin 7).val ∧
    ((s68 2).device 0xFF).valid = false := ⟨⟨rfl, rfl⟩, by decide +kernel⟩

theorem witness_ConflictingRegistrationIsNoOp : Ready s0 ∧ (2 : BitVec 3) ≠ 7 ∧ (4 : BitVec 3) ≠ 7 ∧
    (s0.device 0x68).valid = false := ⟨⟨rfl, rfl⟩, by decide +kernel⟩

/-- Index 2 of two contexts; negative and NaN limits in either place; the accepted limit -0. -/
theorem witness_PidinitResult : Ready s0 ∧ s0.pid.length ≤ (2 : BitVec 8).toNat ∧
    (1 : BitVec 8).toNat < s0.pid.length ∧ isNaN 0x7FC00000 = true ∧ flt 0xBF800000 0 = true ∧
    isNaN 0x80000000 = false ∧ flt 0x80000000 0 = false := ⟨⟨rfl, rfl⟩, by decide⟩

theorem witness_PidOperationsNeedInit : Ready s0 ∧ s0.pid.length ≤ (2 : BitVec 8).toNat ∧
    s0.pid[(1 : BitVec 8).toNat]? = some PidCtx.reset ∧ PidCtx.reset.inited = false :=
  ⟨⟨rfl, rfl⟩, by decide⟩

theorem witness_PidgainAndPidclrResult : Ready (s0.setPid 0 (ctx .positional)) ∧
    (s0.setPid 0 (ctx .positional)).pid[(0 : BitVec 8).toNat]? = some (ctx .positional) ∧
    (ctx .positional).inited = true := ⟨⟨rfl, rfl⟩, by decide⟩

/-- The context of V5, with either gate active (|e| = 100 above 50, |e| = 2 below 5). -/
theorem witness_PidcalcGatedKeepsHistory :
    Ready (sPid .positional 0x447A0000 0x447A0000 0x40A00000 0x42480000 0x3F800000 0 0) ∧
    (sPid .positional 0x447A0000 0x447A0000 0x40A00000 0x42480000 0x3F800000 0 0).pid[
      (0 : BitVec 8).toNat]? =
      some (PidCtx.construct .positional 0x447A0000 0x447A0000 0x40A00000 0x42480000 0x3F800000 0 0) ∧
    (fne 0x42480000 0 = true ∧ fgt (fabs (fsub 0x42C80000 0)) 0x42480000 = true) ∧
    (fne 0x40A00000 0 = true ∧ flt (fabs (fsub 0x40000000 0)) 0x40A00000 = true) :=
  ⟨⟨rfl, rfl⟩, by decide +kernel⟩

/-- Gates off, and gates on with |e| exactly at each threshold (V5 rows 4 and 6): the second and third
lines are the gate hypotheses for maxErr = 50, deadBand = 5. -/
theorem witness_PidcalcPositionalResult : Ready (s0.setPid 0 (ctx .positional)) ∧
    (s0.setPid 0 (ctx .positional)).pid[(0 : BitVec 8).toNat]? = some (ctx .positional) ∧
    (ctx .positional).inited = true ∧ (ctx .positional).variant = .positional ∧
    feq (ctx .positional).maxErr 0 = true ∧ feq (ctx .positional).deadBand 0 = true ∧
    fgt (fabs (fsub 0x42480000 0)) 0x42480000 = false ∧
    flt (fabs (fsub 0x40A00000 0)) 0x40A00000 = false := ⟨⟨rfl, rfl⟩, by decide +kernel⟩

theorem witness_PidcalcIncrementalResult : Ready (s0.setPid 0 (ctx .incremental)) ∧
    (s0.setPid 0 (ctx .incremental)).pid[(0 : BitVec 8).toNat]? = some (ctx .incremental) ∧
    (ctx .incremental).inited = true ∧ (ctx .incremental).variant = .incremental ∧
    feq (ctx .incremental).maxErr 0 = true ∧ feq (ctx .incremental).deadBand 0 = true :=
  ⟨⟨rfl, rfl⟩, by decide +kernel⟩

theorem witness_ProportionalIncrementalIsSteady : Ready s0 ∧ (0 : BitVec 8).toNat < s0.pid.length ∧
    pidLimitOk 0x447A0000 = true ∧ isFinite 0x3F800000 = true ∧
    isFinite (fmul (ofInt 2) (fsub 0x41200000 0)) = true := ⟨⟨rfl, rfl⟩, by decide +kernel⟩

/-- A NaN target; a NaN accumulator in a call without gates. -/
theorem witness_NanInPidIsNeverGated :
    Ready (s0.setPid 0 { ctx .positional with iout := 0x7FC00000 }) ∧
    (s0.setPid 0 { ctx .positional with iout := 0x7FC00000 }).pid[(0 : BitVec 8).toNat]? =
      some { ctx .positional with iout := 0x7FC00000 } ∧
    (ctx .positional).inited = true ∧ (ctx .positional).variant = .positional ∧
    isNaN 0x7FC00000 = true ∧ feq (ctx .positional).maxErr 0 = true ∧
    feq (ctx .positional).deadBand 0 = true := ⟨⟨rfl, rfl⟩, by decide⟩

theorem witness_PidContextsAreIndependent :
    (Instr.pidclr 0).opcode = .pidclr ∧ hP ((encode (.pidclr 0)).headD 0) = 0 ∧
    [ctx .positional, ctx .incremental].length = (s0.setPid 0 (ctx .positional)).pid.length ∧
    [ctx .positional, ctx .incremental][(0 : BitVec 8).toNat]? =
      (s0.setPid 0 (ctx .positional)).pid[(0 : BitVec 8).toNat]? ∧
    ∃ t, exec (.pidclr 0) (s0.setPid 0 (ctx .positional)) = .next t :=
  ⟨rfl, by decide, by decide, by decide, _, rfl⟩

/-- A state that meets the invariant and is not the reset state, and that has a next state. -/
theorem witness_EveryStepKeepsInvariant : State.Inv (sTurn .fg [0x12000000, 0x1234]) ∧
    ∃ t, step (sTurn .fg [0x12000000, 0x1234]) = .next t := by
  have hc : PidCtx.Ok PidCtx.reset :=
    ⟨by decide, by decide, by decide, by decide, by decide, rfl, rfl, fun _ => ⟨rfl, rfl⟩,
      fun _ => rfl, fun _ => rfl⟩
  refine ⟨⟨rfl, by decide, fun i _ => rfl, by decide, by decide, by decide, fun c h => ?_, by decide⟩,
    _, rfl⟩
  rcases List.mem_cons.1 h with h | h
  · exact h ▸ hc
  · exact List.mem_singleton.1 h ▸ hc

/-- 1.0 and the largest finite value. -/
theorem witness_ArithmeticRoundsOnce : isFinite 0x3F800000 = true ∧ isFinite 0x7F7FFFFF = true := by
  decide

/-- Each clause at a boundary: the largest finite value, an infinity, 2^24 - 1, a value at each end of a
range and beyond it, and the limits +0.0 and infinity. -/
theorem witness_ComparisonsAndTruncMatchValues :
    isFinite 0x7F7FFFFF = true ∧ isInf 0xFF800000 = true ∧ isNaN 0x7FC00000 = true ∧
    isNaN 0x7F800000 = false ∧ |(2 ^ 24 - 1 : Int)| < 2 ^ 24 ∧
    (flt 0xC1480000 0x41480000 = true ∧ flt 0xFF800000 0xC1480000 = true ∧
      fge 0xC1480000 0xC1480000 = true ∧ fge 0x41480000 0xC1480000 = true ∧
      flt 0x41480000 0x41480001 = true) ∧
    (fge 0 0 = true ∧ fge 0x7F800000 0 = true ∧ flt 0x80000001 (fneg 0) = true ∧
      fge 0x80000000 (fneg 0) = true ∧ fge 0 0x80000000 = true ∧ flt 0 0x00000001 = true) := by
  decide +kernel

theorem witness_NanPropagates : isNaN 0x7FC00000 = true := by decide

end Sys2Proof.Tests
end

section
/-! PROOFS. The default `NUM` of R7: the exact values of the encodings, rounding to the nearest of them,
comparisons, conversions and clamps, and NaN operands. -/

namespace Sys2Proof.Machine

/-! ## Real values as signed units -/

/-- The sign of an encoding as a factor. -/
def signFactor (neg : Bool) : ℚ := if neg then -1 else 1

@[simp] theorem signFactor_true : signFactor true = -1 := rfl
@[simp] theorem signFactor_false : signFactor false = 1 := rfl

@[simp] theorem abs_signFactor (neg : Bool) : |signFactor neg| = 1 := by
  cases neg <;> simp

theorem signFactor_bne (s t : Bool) : signFactor (s != t) = signFactor s * signFactor t := by
  cases s <;> cases t <;> norm_num

theorem signFactor_inv (s : Bool) : (signFactor s)⁻¹ = signFactor s := by
  cases s <;> norm_num

/-- An integer is its sign times its magnitude. -/
theorem signFactor_mul_natAbs (k : ℤ) : signFactor (decide (k < 0)) * k.natAbs = k := by
  rw [Nat.cast_natAbs]
  rcases lt_or_ge k 0 with h | h
  · simp [h, abs_of_neg h]
  · simp [h.not_gt, abs_of_nonneg h]

/-- The value of one unit, 2^-149. -/
def unitValue : ℚ := (2 : ℚ) ^ (-149 : ℤ)

theorem unitValue_pos : 0 < unitValue := zpow_pos (by norm_num) _

theorem cast_two_pow_149 : ((2 ^ 149 : Nat) : ℚ) = unitValue⁻¹ := by norm_num [unitValue]

theorem realValue_eq_sign_mag (x : F) :
    realValue x = signFactor (fsign x) * magUnits (fmag x) * unitValue := realValue_eq_units x

theorem realValue_eq_signedUnits (x : F) : realValue x = signedUnits x * unitValue := by
  rw [realValue_eq_sign_mag, signedUnits, scaled_eq_magUnits]
  cases fsign x <;> simp

theorem abs_realValue (x : F) : |realValue x| = magUnits (fmag x) * unitValue := by
  rw [realValue_eq_sign_mag, abs_mul, abs_mul, abs_signFactor, one_mul, abs_of_pos unitValue_pos,
    Nat.abs_cast]

@[simp] theorem realValue_fneg (x : F) : realValue (fneg x) = -realValue x := by
  rw [realValue_eq_signedUnits, signedUnits_fneg, realValue_eq_signedUnits, Int.cast_neg, neg_mul]

/-! ## The nearest magnitude -/

/-- Magnitude `r` is a nearest one to `t` units among all magnitudes, without an upper end, and an even
one where another is equally near. -/
structure NearestMag (t : ℚ) (r : Nat) : Prop where
  le : ∀ k, |(magUnits r : ℚ) - t| ≤ |(magUnits k : ℚ) - t|
  even_of_tie : ∀ k, k ≠ r → |(magUnits k : ℚ) - t| = |(magUnits r : ℚ) - t| → r % 2 = 0

section Neighbours
variable {t : ℚ} {m k : Nat}

theorem cast_magUnits_lt (h : k < m) : (magUnits k : ℚ) < magUnits m :=
  Nat.cast_lt.2 (magUnits_strictMono h)

theorem cast_magUnits_le (h : k ≤ m) : (magUnits k : ℚ) ≤ magUnits m :=
  Nat.cast_le.2 (magUnits_strictMono.monotone h)

/-- The distance of a magnitude from `t` when `t` is not below it. -/
theorem dist_of_le (hm : (magUnits m : ℚ) ≤ t) (hk : k ≤ m) :
    |(magUnits k : ℚ) - t| = t - magUnits k := by
  have := cast_magUnits_le hk
  rw [abs_of_nonpos (by linarith), neg_sub]

/-- The distance of a magnitude from `t` when `t` is not above it. -/
theorem dist_of_ge (hm : t ≤ magUnits m) (hk : m ≤ k) :
    |(magUnits k : ℚ) - t| = magUnits k - t := by
  have := cast_magUnits_le hk
  exact abs_of_nonneg (by linarith)

/-- Of two neighbours with `t` between them, the lower one is a nearest magnitude where `t` is nearer to
it, or equally near and it is even. -/
theorem nearestMag_lower (hm : (magUnits m : ℚ) ≤ t) (hm' : t < magUnits (m + 1))
    (hlow : t - magUnits m ≤ magUnits (m + 1) - t)
    (htie : t - magUnits m = magUnits (m + 1) - t → m % 2 = 0) : NearestMag t m := by
  have below : ∀ k, k < m → |(magUnits m : ℚ) - t| < |(magUnits k : ℚ) - t| := fun k hk => by
    rw [dist_of_le hm le_rfl, dist_of_le hm hk.le]
    exact sub_lt_sub_left (cast_magUnits_lt hk) t
  have above : ∀ k, m + 1 ≤ k → (magUnits (m + 1) : ℚ) - t ≤ |(magUnits k : ℚ) - t| := fun k hk => by
    rw [dist_of_ge hm'.le hk]
    exact sub_le_sub_right (cast_magUnits_le hk) t
  refine ⟨fun k => ?_, fun k hk he => ?_⟩
  · rcases lt_trichotomy k m with h | rfl | h
    · exact (below k h).le
    · exact le_rfl
    · exact (dist_of_le hm le_rfl).trans_le (hlow.trans (above k h))
  · rcases Nat.lt_or_gt_of_ne hk with h | h
    · exact absurd he (below k h).ne'
    · exact htie (le_antisymm hlow ((above k h).trans (he.trans (dist_of_le hm le_rfl)).le))

/-- The upper neighbour likewise. -/
theorem nearestMag_upper (hm : (magUnits m : ℚ) ≤ t) (hm' : t < magUnits (m + 1))
    (hup : magUnits (m + 1) - t ≤ t - magUnits m)
    (htie : t - magUnits m = magUnits (m + 1) - t → (m + 1) % 2 = 0) : NearestMag t (m + 1) := by
  have below : ∀ k, k ≤ m → t - magUnits m ≤ |(magUnits k : ℚ) - t| := fun k hk => by
    rw [dist_of_le hm hk]
    exact sub_le_sub_left (cast_magUnits_le hk) t
  have above : ∀ k, m + 1 < k → |(magUnits (m + 1) : ℚ) - t| < |(magUnits k : ℚ) - t| :=
      fun k hk => by
    rw [dist_of_ge hm'.le le_rfl, dist_of_ge hm'.le hk.le]
    exact sub_lt_sub_right (cast_magUnits_lt hk) t
  refine ⟨fun k => ?_, fun k hk he => ?_⟩
  · rcases lt_trichotomy k (m + 1) with h | rfl | h
    · exact (dist_of_ge hm'.le le_rfl).trans_le (hup.trans (below k (by omega)))
    · exact le_rfl
    · exact (above k h).le
  · rcases Nat.lt_or_gt_of_ne hk with h | h
    · exact htie (le_antisymm
        ((below k (by omega)).trans (he.trans (dist_of_ge hm'.le le_rfl)).le) hup)
    · exact absurd he (above k h).ne'

end Neighbours

/-- `roundMag` answers the nearest magnitude to `n / d` units, cut off at infinity's. -/
theorem roundMag_nearest (n : Nat) {d : Nat} (hd : 0 < d) :
    ∃ r, NearestMag (n / d) r ∧ roundMag n d = min r infMag := by
  have hd' : (0 : ℚ) < d := Nat.cast_pos.2 hd
  obtain ⟨m, hlo, hhi, hr⟩ := roundMag_spec n hd
  have ht : (n : ℚ) = n / d * d := (div_mul_cancel₀ _ hd'.ne').symm
  generalize (n : ℚ) / d = t at ht ⊢
  have hm : (magUnits m : ℚ) ≤ t := by
    have : (magUnits m * d : ℚ) ≤ n := by exact_mod_cast hlo
    exact le_of_mul_le_mul_right (ht ▸ this) hd'
  have hm' : t < magUnits (m + 1) := by
    have : (n : ℚ) < magUnits (m + 1) * d := by exact_mod_cast hhi
    exact lt_of_mul_lt_mul_right (ht ▸ this) hd'.le
  have hlt : (magUnits m + magUnits (m + 1)) * d < 2 * n ↔
      (magUnits (m + 1) : ℚ) - t < t - magUnits m := by
    rw [← Nat.cast_lt (α := ℚ)]
    push_cast
    rw [ht, ← mul_assoc, mul_lt_mul_iff_left₀ hd']
    constructor <;> intro h <;> linarith
  have heq : (magUnits m + magUnits (m + 1)) * d = 2 * n ↔
      t - magUnits m = (magUnits (m + 1) : ℚ) - t := by
    rw [← Nat.cast_inj (R := ℚ)]
    push_cast
    rw [ht, ← mul_assoc, mul_left_inj' hd'.ne']
    constructor <;> intro h <;> linarith
  refine ⟨_, ?_, hr⟩
  split
  case isTrue hup =>
    rw [hlt, heq] at hup
    refine nearestMag_upper hm hm' ?_ fun he => ?_
    · rcases hup with h | ⟨h, -⟩
      exacts [h.le, h.ge]
    · rcases hup with h | ⟨-, h⟩
      · exact absurd he h.ne'
      · omega
  case isFalse hup =>
    rw [hlt, heq] at hup
    obtain ⟨hle, hodd⟩ := not_or.1 hup
    exact nearestMag_lower hm hm' (not_lt.1 hle) fun he =>
      Nat.mod_two_ne_one.1 fun h => hodd ⟨he, h⟩

/-- The overflow bound in units: midway between the largest finite magnitude and infinity's. -/
theorem overflowBound_eq :
    2 * overflowBound = (magUnits (infMag - 1) + magUnits infMag : ℕ) * unitValue := by
  rw [show magUnits (infMag - 1) + magUnits infMag = (2 ^ 25 - 1) * 2 ^ 253 by decide +kernel]
  norm_num [overflowBound, unitValue]

theorem overflowBound_le_iff {t : ℚ} : overflowBound ≤ t * unitValue ↔
    (magUnits (infMag - 1) : ℚ) + magUnits infMag ≤ 2 * t := by
  rw [← mul_le_mul_iff_right₀ (two_pos : (0 : ℚ) < 2), overflowBound_eq, ← mul_assoc,
    mul_le_mul_iff_left₀ unitValue_pos, Nat.cast_add]

/-- The nearest magnitude is infinity's or above exactly from the overflow bound on: there the tie is
with the largest finite magnitude, which is odd. -/
theorem NearestMag.infMag_le_iff {t : ℚ} {r : Nat} (h : NearestMag t r) :
    infMag ≤ r ↔ overflowBound ≤ t * unitValue := by
  have hstep : (magUnits (infMag - 1) : ℚ) < magUnits infMag := cast_magUnits_lt (by decide)
  rw [overflowBound_le_iff]
  constructor
  · intro hr
    by_contra hc
    have hM : (magUnits infMag : ℚ) ≤ magUnits r := cast_magUnits_le hr
    have hle := h.le (infMag - 1)
    rw [dist_of_ge (by linarith) hr, le_abs] at hle
    rcases hle with hle | hle <;> linarith
  · intro ht
    by_contra hc
    have hself : |(magUnits r : ℚ) - t| = t - magUnits r :=
      dist_of_le (m := infMag - 1) (by linarith) (by omega)
    have hinf : |(magUnits infMag : ℚ) - t| ≤ t - magUnits (infMag - 1) :=
      abs_le.2 ⟨by linarith, by linarith⟩
    have hr : r = infMag - 1 := by
      by_contra hne
      have hlt : (magUnits r : ℚ) < magUnits (infMag - 1) := cast_magUnits_lt (by omega)
      have := h.le infMag
      linarith
    subst hr
    have heven := h.even_of_tie infMag (by decide) (le_antisymm (hinf.trans hself.ge) (h.le infMag))
    exact absurd heven (by decide)

/-! ## Rounding once -/

/-- The last bit of a word is the parity of its magnitude. -/
theorem getLsbD_zero_eq_fmag (x : F) : x.getLsbD 0 = decide (fmag x % 2 = 1) := by
  rw [BitVec.getLsbD, Nat.testBit_zero, fmag, Nat.mod_mod_of_dvd _ (by decide)]

theorem msb_eq_fsign (x : F) : x.msb = fsign x := BitVec.msb_eq_getLsbD_last x

/-- Encodings of one magnitude have one value or opposite values. -/
theorem realValue_eq_or_neg_of_fmag_eq {x y : F} (h : fmag x = fmag y) :
    realValue x = realValue y ∨ realValue x = -realValue y := by
  rw [← abs_eq_abs, abs_realValue, abs_realValue, h]

/-- A finite encoding whose magnitude is nearest to `|q|`, and whose sign is that of `q`, is `q` rounded
once: an encoding of the other sign is not nearer, since the magnitudes are not farther apart than the
values. -/
theorem roundsTo_of_nearest {t q : ℚ} {r : F} (hfin : isFinite r = true)
    (hq : q = signFactor (fsign r) * t * unitValue) (ht : 0 ≤ t) (h : NearestMag t (fmag r)) :
    RoundsTo q r := by
  have habs : |q| = t * unitValue := by
    rw [hq, abs_mul, abs_mul, abs_signFactor, one_mul, abs_of_nonneg ht, abs_of_pos unitValue_pos]
  have hr : |realValue r - q| = |(magUnits (fmag r) : ℚ) - t| * unitValue := by
    rw [realValue_eq_sign_mag, hq, ← sub_mul, ← mul_sub, abs_mul, abs_mul, abs_signFactor, one_mul,
      abs_of_pos unitValue_pos]
  have hx : ∀ x, |(magUnits (fmag x) : ℚ) - t| * unitValue ≤ |realValue x - q| := fun x => by
    have := abs_abs_sub_abs_le (realValue x) q
    rwa [abs_realValue, habs, ← sub_mul, abs_mul, abs_of_pos unitValue_pos] at this
  have hnear : ∀ x, |realValue r - q| ≤ |realValue x - q| := fun x =>
    hr.trans_le ((mul_le_mul_of_nonneg_right (h.le _) unitValue_pos.le).trans (hx x))
  refine .inl ⟨?_, hfin, fun x _ => hnear x, fun x _ he hne => ?_⟩
  · rw [habs, ← not_le, ← h.infMag_le_iff]
    simpa [isFinite] using hfin
  · have htie : |(magUnits (fmag x) : ℚ) - t| = |(magUnits (fmag r) : ℚ) - t| :=
      le_antisymm (le_of_mul_le_mul_right (((hx x).trans he.le).trans hr.le) unitValue_pos) (h.le _)
    have hmag : fmag x ≠ fmag r := by
      intro hm
      have hneg := (realValue_eq_or_neg_of_fmag_eq hm).resolve_left hne
      have hr0 : realValue r ≠ 0 := fun h0 => hne (by rw [hneg, h0, neg_zero])
      have hq0 : q = 0 := by
        rw [hneg, abs_eq_abs] at he
        rcases he with he | he
        · exact absurd (by linarith) hr0
        · linarith
      have := hnear 0
      rw [hq0, sub_zero, sub_zero, abs_realValue 0, show magUnits (fmag 0) = 0 from rfl] at this
      exact hr0 (abs_nonpos_iff.1 (by simpa using this))
    rw [getLsbD_zero_eq_fmag, h.even_of_tie _ hmag htie]
    rfl

/-- What an operation answers, the sign of the exact value with the rounded magnitude, is the exact value
rounded once. -/
theorem roundsTo_roundMag {q : ℚ} {neg : Bool} {n d : Nat} (hd : 0 < d)
    (hq : q = signFactor neg * (n / d) * unitValue) :
    RoundsTo q (ofSignMag neg (roundMag n d)) := by
  obtain ⟨m, hnear, hm⟩ := roundMag_nearest n hd
  have hsign := fsign_ofSignMag (neg := neg) (roundMag_lt n d)
  have hmag := fmag_ofSignMag (neg := neg) (roundMag_lt n d)
  have ht : (0 : ℚ) ≤ n / d := by positivity
  by_cases hfin : m < infMag
  · rw [hm, min_eq_left hfin.le] at hmag hsign ⊢
    refine roundsTo_of_nearest ?_ (hsign.symm ▸ hq) ht (hmag.symm ▸ hnear)
    simpa [isFinite, hmag] using hfin
  · rw [not_lt] at hfin
    have hbound := hnear.infMag_le_iff.1 hfin
    have hpos : 0 < (n / d : ℚ) * unitValue :=
      lt_of_lt_of_le (by norm_num [overflowBound]) hbound
    rw [hm, min_eq_right hfin] at hmag hsign ⊢
    rw [mul_assoc] at hq
    refine .inr ⟨?_, by simp [isInf, hmag], ?_⟩
    · rwa [hq, abs_mul, abs_signFactor, one_mul, abs_of_pos hpos]
    · rw [msb_eq_fsign, hsign, hq]
      cases neg
      · simpa using hpos.le
      · simpa using hpos

/-! ## The four operations -/

/-- A sum is an integer number of units; an exact zero has either sign. -/
theorem roundsTo_sumOf {nan a b : F} (ha : isFinite a = true) (hb : isFinite b = true) :
    RoundsTo (realValue a + realValue b) (sumOf nan a b) := by
  rw [sumOf_finite ha hb, realValue_eq_signedUnits, realValue_eq_signedUnits, ← add_mul,
    ← Int.cast_add]
  generalize signedUnits a + signedUnits b = s
  split
  case isTrue h0 =>
    have := roundsTo_roundMag (q := s * unitValue) (neg := fsign a && fsign b) (n := 0) one_pos
      (by simp [h0])
    rwa [roundMag_zero one_pos] at this
  case isFalse h0 =>
    refine roundsTo_roundMag one_pos ?_
    rw [Nat.cast_one, div_one, signFactor_mul_natAbs]

theorem roundsTo_fadd {a b : F} (ha : isFinite a = true) (hb : isFinite b = true) :
    RoundsTo (realValue a + realValue b) (fadd a b) := by
  rw [fadd, (not_nan_of_finite ha).1, (not_nan_of_finite hb).1]
  exact roundsTo_sumOf ha hb

theorem roundsTo_fsub {a b : F} (ha : isFinite a = true) (hb : isFinite b = true) :
    RoundsTo (realValue a - realValue b) (fsub a b) := by
  rw [fsub, (not_nan_of_finite ha).1, (not_nan_of_finite hb).1, sub_eq_add_neg, ← realValue_fneg]
  exact roundsTo_sumOf ha (by simpa using hb)

theorem roundsTo_fmul {a b : F} (ha : isFinite a = true) (hb : isFinite b = true) :
    RoundsTo (realValue a * realValue b) (fmul a b) := by
  rw [fmul_finite ha hb]
  refine roundsTo_roundMag (by positivity) ?_
  rw [realValue_eq_sign_mag, realValue_eq_sign_mag, signFactor_bne, Nat.cast_mul,
    cast_two_pow_149, div_inv_eq_mul]
  ring

theorem roundsTo_fdiv {a b : F} (ha : isFinite a = true) (hb : isFinite b = true)
    (h0 : realValue b ≠ 0) : RoundsTo (realValue a / realValue b) (fdiv a b) := by
  have hmag : fmag b ≠ 0 := fun h => h0 (by rw [realValue_eq_sign_mag, h]; simp [magUnits])
  have hpos := magUnits_pos (Nat.pos_of_ne_zero hmag)
  rw [fdiv_finite ha hb hmag]
  refine roundsTo_roundMag hpos ?_
  rw [realValue_eq_sign_mag, realValue_eq_sign_mag, signFactor_bne, Nat.cast_mul,
    cast_two_pow_149, div_eq_mul_inv, mul_inv, mul_inv, signFactor_inv]
  ring

/-- Settles O58: each operation answers the sign and the rounded magnitude of its exact result. -/
theorem arithmeticRoundsOnce : Obligations.ArithmeticRoundsOnce := fun _ _ ha hb =>
  ⟨roundsTo_fadd ha hb, roundsTo_fsub ha hb, roundsTo_fmul ha hb, roundsTo_fdiv ha hb⟩

/-! ## Comparisons and the order of the numbers -/

/-- `<` in full: it is false of NaN. -/
theorem flt_eq_true {a b : F} : flt a b = true ↔
    isNaN a = false ∧ isNaN b = false ∧ orderKey a < orderKey b := by
  simp [flt, and_assoc]

/-- `>=` in full: it is false of NaN. -/
theorem fge_eq_true {a b : F} : fge a b = true ↔
    isNaN a = false ∧ isNaN b = false ∧ orderKey b ≤ orderKey a := by
  simp [fge, and_assoc]

/-- `==` on values that are not NaN is equality of their keys. -/
theorem feq_iff {a b : F} (ha : isNaN a = false) (hb : isNaN b = false) :
    feq a b = true ↔ orderKey a = orderKey b := by
  simp [feq, ha, hb]

theorem realValue_lt_iff {a b : F} : realValue a < realValue b ↔ orderKey a < orderKey b := by
  rw [realValue_eq_signedUnits, realValue_eq_signedUnits, mul_lt_mul_iff_left₀ unitValue_pos,
    Int.cast_lt, signedUnits_lt_iff]

theorem realValue_le_iff {a b : F} : realValue a ≤ realValue b ↔ orderKey a ≤ orderKey b := by
  rw [← not_lt, ← not_lt, realValue_lt_iff]

theorem realValue_inj_iff {a b : F} : realValue a = realValue b ↔ orderKey a = orderKey b := by
  rw [le_antisymm_iff, le_antisymm_iff, realValue_le_iff, realValue_le_iff]

/-- A finite value lies strictly between the keys of the infinities. -/
theorem abs_orderKey_lt_infMag {a : F} (ha : isFinite a = true) : |orderKey a| < infMag := by
  have hm : fmag a < infMag := by simpa [isFinite] using ha
  unfold orderKey
  split <;> simpa using hm

/-- The comparisons of finite values are those of the numbers. -/
theorem compare_finite {a b : F} (ha : isFinite a = true) (hb : isFinite b = true) :
    (flt a b = true ↔ realValue a < realValue b) ∧ (fgt a b = true ↔ realValue b < realValue a) ∧
    (feq a b = true ↔ realValue a = realValue b) ∧ (fne a b = true ↔ realValue a ≠ realValue b) ∧
    (fge a b = true ↔ realValue b ≤ realValue a) := by
  have na := (not_nan_of_finite ha).1
  have nb := (not_nan_of_finite hb).1
  have heq : feq a b = true ↔ realValue a = realValue b := by
    rw [feq_iff na nb, realValue_inj_iff]
  refine ⟨?_, ?_, heq, ?_, ?_⟩
  · rw [flt_iff na nb, realValue_lt_iff]
  · rw [fgt, flt_iff nb na, realValue_lt_iff]
  · rw [fne, Bool.not_eq_true', ← Bool.not_eq_true, heq]
  · rw [fge_iff na nb, realValue_le_iff]

/-- The infinities lie beyond every finite value. -/
theorem infinities_beyond_finite {a : F} (ha : isFinite a = true) :
    flt a 0x7F800000 = true ∧ flt 0xFF800000 a = true := by
  have na := (not_nan_of_finite ha).1
  obtain ⟨hlo, hhi⟩ := abs_lt.1 (abs_orderKey_lt_infMag ha)
  exact ⟨flt_eq_true.2 ⟨na, by decide, hhi⟩, flt_eq_true.2 ⟨by decide, na, hlo⟩⟩

/-- On values that are not NaN `<` determines the other comparisons. -/
theorem compare_of_not_nan {a b : F} (ha : isNaN a = false) (hb : isNaN b = false) :
    fge a b = (!flt a b) ∧ fgt a b = flt b a ∧ feq a b = (fge a b && fge b a) ∧
      fne a b = !feq a b := by
  refine ⟨?_, rfl, ?_, rfl⟩
  · rw [Bool.eq_iff_iff, Bool.not_eq_true', ← Bool.not_eq_true, fge_iff ha hb, flt_iff ha hb, not_lt]
  · rw [Bool.eq_iff_iff, Bool.and_eq_true, feq_iff ha hb, fge_iff ha hb, fge_iff hb ha,
      le_antisymm_iff, and_comm]

/-! ## `trunc`, `fabs`, `fneg` and `ofInt` -/

theorem natCast_mul_unitValue (n : Nat) : (n : ℚ) * unitValue = n / (2 ^ 149 : Nat) := by
  rw [cast_two_pow_149, div_inv_eq_mul]

/-- `trunc` discards the fraction: the floor of a value that is not negative, the ceiling of another
(R10). -/
theorem trunc_eq_floor_or_ceil {a : F} (ha : isFinite a = true) :
    trunc a = if 0 ≤ realValue a then ⌊realValue a⌋ else ⌈realValue a⌉ := by
  rw [trunc_eq ha, realValue_eq_sign_mag, mul_assoc, natCast_mul_unitValue]
  generalize magUnits (fmag a) = n
  have hfloor : ⌊(n / (2 ^ 149 : Nat) : ℚ)⌋ = ((n / 2 ^ 149 : Nat) : ℤ) := by
    rw [Rat.floor_natCast_div_natCast, Int.natCast_div]
  have hpos : (0 : ℚ) ≤ n / (2 ^ 149 : Nat) := by positivity
  cases fsign a with
  | false => rw [signFactor_false, one_mul, if_pos hpos, hfloor, if_neg Bool.false_ne_true]
  | true =>
    rw [signFactor_true, neg_one_mul, Int.ceil_neg, hfloor, if_pos rfl]
    split
    case isTrue h =>
      have hzero : (n / (2 ^ 149 : Nat) : ℚ) = 0 := le_antisymm (neg_nonneg.1 h) hpos
      rw [← hfloor, hzero, neg_zero, Int.floor_zero, neg_zero]
    case isFalse => rfl

@[simp] theorem realValue_fabs (x : F) : realValue (fabs x) = |realValue x| := by
  rw [abs_realValue, realValue_eq_sign_mag, fsign_fabs, fmag_fabs, signFactor_false, one_mul]

@[simp] theorem isInf_fabs (x : F) : isInf (fabs x) = isInf x := by simp [isInf]
@[simp] theorem isFinite_fabs (x : F) : isFinite (fabs x) = isFinite x := by simp [isFinite]

/-- `fabs` clears and `fneg` flips the sign bit; both keep the class, and on finite values they are the
absolute value and the negation of the number. -/
theorem fabs_fneg_spec (a : F) : (fabs a).msb = false ∧ (fneg a).msb = !a.msb ∧
    (isFinite a = true → isFinite (fabs a) = true ∧ isFinite (fneg a) = true ∧
      realValue (fabs a) = |realValue a| ∧ realValue (fneg a) = -realValue a) ∧
    (isInf a = true → isInf (fabs a) = true ∧ isInf (fneg a) = true) ∧
    (isNaN a = true → isNaN (fabs a) = true ∧ isNaN (fneg a) = true) := by
  refine ⟨?_, ?_, fun h => ⟨?_, ?_, realValue_fabs a, realValue_fneg a⟩, fun h => ⟨?_, ?_⟩,
    fun h => ⟨?_, ?_⟩⟩
  · rw [msb_eq_fsign, fsign_fabs]
  · rw [msb_eq_fsign, msb_eq_fsign, fsign_fneg]
  · rwa [isFinite_fabs]
  · rwa [isFinite_fneg]
  · rwa [isInf_fabs]
  · rwa [isInf_fneg]
  · rwa [isNaN_fabs]
  · rwa [isNaN_fneg]

/-- The value of `ofInt` is its integer, for magnitudes below 2^24 (R7). -/
theorem ofInt_spec {k : Int} (hk : |k| < 2 ^ 24) : isFinite (ofInt k) = true ∧
    realValue (ofInt k) = k ∧ (ofInt k).msb = decide (k < 0) := by
  obtain ⟨hfin, hsign, hmag⟩ := ofInt_exact (k := k) (by rw [Int.abs_eq_natAbs] at hk; omega)
  refine ⟨hfin, ?_, by rw [msb_eq_fsign, hsign]⟩
  rw [realValue_eq_sign_mag, hsign, hmag, Nat.cast_mul, cast_two_pow_149, ← mul_assoc,
    inv_mul_cancel_right₀ unitValue_pos.ne', signFactor_mul_natAbs]

/-! ## Clamps (R11) -/

theorem flt_trans {a b c : F} (hab : flt a b = true) (hbc : flt b c = true) : flt a c = true := by
  obtain ⟨na, -, hab⟩ := flt_eq_true.1 hab
  obtain ⟨-, nc, hbc⟩ := flt_eq_true.1 hbc
  exact flt_eq_true.2 ⟨na, nc, hab.trans hbc⟩

theorem fge_of_flt {a b : F} (h : flt b a = true) : fge a b = true := by
  obtain ⟨nb, na, hlt⟩ := flt_eq_true.1 h
  exact fge_eq_true.2 ⟨na, nb, hlt.le⟩

theorem not_flt_of_fge {a b : F} (h : fge a b = true) : ¬flt a b = true := fun hlt =>
  (flt_eq_true.1 hlt).2.2.not_ge (fge_eq_true.1 h).2.2

/-- A limit that is not below zero is not below its negation. -/
theorem fge_fneg_self {l : F} (h : fge l 0 = true) : fge l (fneg l) = true := by
  obtain ⟨nl, -, hl⟩ := fge_eq_true.1 h
  rw [show orderKey 0 = 0 by decide] at hl
  exact fge_eq_true.2 ⟨nl, by rwa [isNaN_fneg], by rw [orderKey_fneg]; omega⟩

/-- `clampR`: the lower bound, the value, the upper bound, and NaN, in their order. -/
theorem clampR_spec (v : F) {lo hi : F} (hr : flt lo hi = true) :
    (flt v lo = true → clampR v lo hi = lo) ∧
    (fge v lo = true → fge hi v = true → clampR v lo hi = v) ∧
    (flt hi v = true → clampR v lo hi = hi) ∧
    (isNaN v = true → clampR v lo hi = v) := by
  refine ⟨fun h => if_pos h, fun hlo hhi => ?_, fun h => ?_, fun h => ?_⟩
  · rw [clampR, if_neg (not_flt_of_fge hlo), fgt, if_neg (not_flt_of_fge hhi)]
  · rw [clampR, if_neg (not_flt_of_fge (fge_of_flt (flt_trans hr h))), fgt, if_pos h]
  · rw [clampR, if_neg (by simp [flt, h]), if_neg (by simp [fgt, flt, h])]

/-- `clampS`: the negated limit, the value, the limit, and NaN, in their order. -/
theorem clampS_spec (x : F) {l : F} (hl : fge l 0 = true) :
    (flt x (fneg l) = true → clampS x l = fneg l) ∧
    (fge x (fneg l) = true → fge l x = true → clampS x l = x) ∧
    (flt l x = true → clampS x l = l) ∧
    (isNaN x = true → clampS x l = x) := by
  refine ⟨fun h => ?_, fun hlo hhi => ?_, fun h => if_pos h, clampS_nan⟩
  · have hnot : ¬flt l x = true := fun h' => not_flt_of_fge (fge_fneg_self hl) (flt_trans h' h)
    rw [clampS, fgt, if_neg hnot, if_pos h]
  · rw [clampS, fgt, if_neg (not_flt_of_fge hhi), if_neg (not_flt_of_fge hlo)]

/-- Settles O59: each function by its own lemma, the comparisons through the order of the keys. -/
theorem comparisonsAndTruncMatchValues : Obligations.ComparisonsAndTruncMatchValues := by
  refine ⟨fun a b ha hb => ?_, by decide, fun _ _ => compare_of_not_nan, fabs_fneg_spec,
    fun _ => ofInt_spec, fun v _ _ => clampR_spec v, fun x _ => clampS_spec x⟩
  obtain ⟨hlt, hgt, heq, hne, hge⟩ := compare_finite ha hb
  exact ⟨hlt, hgt, heq, hne, hge, trunc_eq_floor_or_ceil ha, infinities_beyond_finite ha⟩

/-! ## NaN operands -/

/-- Settles O60: every function tests its operands for NaN first. -/
theorem nanPropagates : Obligations.NanPropagates := by
  intro a b h
  have hnan : (isNaN a || isNaN b) = true := by simpa using h
  have hcmp : (!isNaN a && !isNaN b) = false := by simpa [← Bool.not_or] using hnan
  have hcmp' : (!isNaN b && !isNaN a) = false := by rwa [Bool.and_comm]
  have heq : feq a b = false := by rw [feq, hcmp, Bool.false_and]
  refine ⟨?_, ?_, ?_, heq, ?_, ?_, ?_, ?_, ?_⟩
  · rw [flt, hcmp, Bool.false_and]
  · rw [fgt, flt, hcmp', Bool.false_and]
  · rw [fge, hcmp, Bool.false_and]
  · rw [fne, heq, Bool.not_false]
  · rw [fadd, if_pos hnan, isNaN_nanResult]
  · rw [fsub, if_pos hnan, isNaN_nanResult]
  · rw [fmul, if_pos hnan, isNaN_nanResult]
  · rw [fdiv, if_pos hnan, isNaN_nanResult]

end Sys2Proof.Machine
end

section
/-! PROOFS. The state (10_state.md): its reset values, the invariant that reset establishes and
every step keeps, and the independence of the PID contexts. -/

namespace Sys2Proof.Machine

/-! ## Clamped values (R11) -/

/-- `within` a legal limit, on the keys that order the values. -/
theorem within_iff {x l : F} (hl : pidLimitOk l = true) :
    within x l = true ↔ isNaN x = true ∨ (-orderKey l ≤ orderKey x ∧ orderKey x ≤ orderKey l) := by
  obtain ⟨nl, -⟩ := pidLimitOk_iff.1 hl
  have nn : isNaN (fneg l) = false := by simpa using nl
  cases nx : isNaN x with
  | true => simp [within, nx]
  | false =>
    have hhi := flt_iff nl nx
    have hlo := flt_iff nx nn
    rw [orderKey_fneg] at hlo
    simp only [within, nx, Bool.false_or, Bool.and_eq_true, Bool.not_eq_true', Bool.false_eq_true,
      false_or, ← Bool.not_eq_true, hhi, hlo, not_lt]
    exact and_comm

/-- What `clampS` answers lies within the limit (R11). -/
theorem within_clampS (x : F) {l : F} (hl : pidLimitOk l = true) :
    within (clampS x l) l = true := by
  rw [within_iff hl]
  cases nx : isNaN x with
  | true => exact .inl (by rw [clampS_nan nx, nx])
  | false =>
    obtain ⟨-, hkey⟩ := clampS_key nx hl
    have hpos := (pidLimitOk_iff.1 hl).2
    exact .inr (by omega)

/-- +0.0 lies within every legal limit. -/
theorem within_zero {l : F} (hl : pidLimitOk l = true) : within 0 l = true := by
  have hzero : orderKey 0 = 0 := by decide
  have hpos := (pidLimitOk_iff.1 hl).2
  exact (within_iff hl).2 (.inr (by omega))

/-! ## PID contexts in order (R30, R186) -/

/-- Clearing puts a context with legal limits in order. -/
theorem PidCtx.ok_pidZero {c : PidCtx} (hmo : pidLimitOk c.maxOut = true)
    (hil : pidLimitOk c.intLim = true) (hfresh : c.inited = false → pidZero c = PidCtx.reset) :
    PidCtx.Ok (pidZero c) where
  maxOut_legal := hmo
  intLim_legal := hil
  iout_within := within_zero hil
  posOut_within := within_zero hmo
  deltaOut_within := within_zero hmo
  lastPosOut_eq := rfl
  deltaLastout_eq := rfl
  positional_only _ := ⟨rfl, rfl⟩
  incremental_only _ := rfl
  fresh := hfresh

theorem PidCtx.ok_reset : PidCtx.Ok PidCtx.reset :=
  PidCtx.ok_pidZero (c := PidCtx.reset) (by decide) (by decide) fun _ => rfl

theorem PidCtx.ok_construct (v : Variant) {mo il : F} (db me kp ki kd : F)
    (hmo : pidLimitOk mo = true) (hil : pidLimitOk il = true) :
    PidCtx.Ok (PidCtx.construct v mo il db me kp ki kd) :=
  PidCtx.ok_pidZero hmo hil nofun

/-- The clause on contexts never initialised says nothing of an initialised one. -/
theorem PidCtx.fresh_of_inited {c : PidCtx} (hi : c.inited = true) (hf : c.inited = false) :
    c = PidCtx.reset :=
  absurd (hi.symm.trans hf) nofun

/-- New gains keep an initialised context in order (R184). -/
theorem PidCtx.Ok.gains {c : PidCtx} (h : PidCtx.Ok c) (hi : c.inited = true) (kp ki kd : F) :
    PidCtx.Ok { c with kp, ki, kd } :=
  { h with fresh := PidCtx.fresh_of_inited hi }

/-- Clearing keeps an initialised context in order (R185). -/
theorem PidCtx.Ok.cleared {c : PidCtx} (h : PidCtx.Ok c) (hi : c.inited = true) :
    PidCtx.Ok (pidZero c) :=
  PidCtx.ok_pidZero h.maxOut_legal h.intLim_legal (PidCtx.fresh_of_inited (c := pidZero c) hi)

/-- New histories keep an initialised context in order: no clause speaks of them. -/
theorem PidCtx.Ok.histories {c : PidCtx} (h : PidCtx.Ok c) (hi : c.inited = true)
    (set get err : Hist) : PidCtx.Ok { c with set, get, err } :=
  { h with fresh := PidCtx.fresh_of_inited hi }

/-- The positional recurrence writes clamped values to the positional outputs (R191, R193). -/
theorem PidCtx.Ok.positional {c : PidCtx} (h : PidCtx.Ok c) (hi : c.inited = true)
    (hv : c.variant = .positional) : PidCtx.Ok (pidPositional c) :=
  { h with
    iout_within := within_clampS _ h.intLim_legal
    posOut_within := within_clampS _ h.maxOut_legal
    lastPosOut_eq := rfl
    incremental_only := fun hv' => absurd (hv.symm.trans hv') nofun
    fresh := PidCtx.fresh_of_inited hi }

/-- The incremental recurrence writes clamped values to the incremental outputs (R192, R193). -/
theorem PidCtx.Ok.incremental {c : PidCtx} (h : PidCtx.Ok c) (hi : c.inited = true)
    (hv : c.variant = .incremental) : PidCtx.Ok (pidIncremental c) :=
  { h with
    iout_within := within_clampS _ h.intLim_legal
    deltaOut_within := within_clampS _ h.maxOut_legal
    deltaLastout_eq := rfl
    positional_only := fun hv' => absurd (hv.symm.trans hv') nofun
    fresh := PidCtx.fresh_of_inited hi }

/-- A PID call keeps an initialised context in order, gated or not (R186). -/
theorem PidCtx.Ok.stepped {c : PidCtx} (h : PidCtx.Ok c) (hi : c.inited = true) (x y : F) :
    PidCtx.Ok (pidStep c x y).1 := by
  have hrec : PidCtx.Ok (pidRecord c x y) := h.histories hi _ _ _
  rcases pidStep_cases c x y with ⟨-, heq⟩ | ⟨-, hv, heq⟩ | ⟨-, hv, heq⟩ <;> rw [heq]
  · exact hrec
  · exact (hrec.positional hi hv).histories hi _ _ _
  · exact (hrec.incremental hi hv).histories hi _ _ _

/-! ## The invariant under each update of the state -/

/-- The invariant speaks of `FB`, `CUR`, `FAULT`, `PID` and `MODEL_LIMITS` only. -/
theorem State.Inv.congr {s t : State} (hs : State.Inv s) (hfb : t.fb = s.fb) (hcur : t.cur = s.cur)
    (hfault : t.fault = s.fault) (hpid : t.pid = s.pid) (hlim : t.limits = s.limits) :
    State.Inv t where
  fb_wf := hfb ▸ hs.fb_wf
  cur_le := hcur ▸ hs.cur_le
  fb_clear i hi := by
    rw [State.fbByte, hfb]
    exact hs.fb_clear i (hcur ▸ hi)
  fault_le := hfault ▸ hs.fault_le
  pid_pos := hpid ▸ hs.pid_pos
  pid_le := hpid ▸ hs.pid_le
  pid_ok := hpid ▸ hs.pid_ok
  limits_legal := hlim ▸ hs.limits_legal

theorem State.Inv.respond {s : State} (hs : State.Inv s) (r : Response) : State.Inv (s.respond r) :=
  hs.congr rfl rfl rfl rfl rfl

theorem State.Inv.handOver {s : State} (hs : State.Inv s) (f : Frame) : State.Inv (s.handOver f) :=
  hs.congr rfl rfl rfl rfl rfl

theorem State.Inv.setDevice {s : State} (hs : State.Inv s) (a : BitVec 8) (d : Device) :
    State.Inv (s.setDevice a d) :=
  hs.congr rfl rfl rfl rfl rfl

theorem State.Inv.setFault {s : State} (hs : State.Inv s) (c : Cause) :
    State.Inv { s with fault := c.code } :=
  { hs with fault_le := c.code_range.2 }

/-- A context in order may replace any context. -/
theorem State.Inv.setPid {s : State} (hs : State.Inv s) (p : BitVec 8) {c : PidCtx}
    (hc : PidCtx.Ok c) : State.Inv (s.setPid p c) :=
  { hs with
    pid_pos := by simpa using hs.pid_pos
    pid_le := by simpa using hs.pid_le
    pid_ok := fun d hd => (List.mem_or_eq_of_mem_set hd).elim (hs.pid_ok d) fun e => e ▸ hc }

/-- An append that stays below the ninth byte: everything from the new cursor on is still zero
(R41). -/
theorem State.Inv.append {s : State} (hs : State.Inv s) {bytes : List Byte}
    (hfit : s.cur.toNat + bytes.length ≤ 8) :
    State.Inv { s with
      fb := Memory.writeBytes s.fb s.cur.toNat bytes
      cur := s.cur + BitVec.ofNat 4 bytes.length } :=
  { hs with
    fb_wf := Memory.wf_writeBytes bytes hs.fb_wf hfit
    cur_le := by rwa [cur_advance hfit]
    fb_clear := fun i hi => by
      rw [cur_advance hfit] at hi
      exact (Memory.read_writeBytes_out s.fb bytes (.inr hi)).trans (hs.fb_clear i (by omega)) }

/-- `FBRST` (R108). -/
theorem State.Inv.clearBuffer {s : State} (hs : State.Inv s) :
    State.Inv { s with fb := [], cur := 0 } :=
  { hs with fb_wf := Memory.wf_nil, cur_le := Nat.zero_le 8, fb_clear := fun _ _ => rfl }

/-- The reset values of R38 meet the invariant, whatever the block held before: only the two
parameters must be ones that R5 and R6 allow. -/
theorem State.inv_resetBlock {s : State} (hpos : 1 ≤ s.pid.length) (hle : s.pid.length ≤ 256)
    (hlim : ∀ m : Fin 7, (s.limits[m]).legal = true) : State.Inv (resetBlock s) where
  fb_wf := Memory.wf_nil
  cur_le := Nat.zero_le 8
  fb_clear _ _ := rfl
  fault_le := Nat.zero_le 6
  pid_pos := by simpa using hpos
  pid_le := by simpa using hle
  pid_ok c hc := List.eq_of_mem_replicate hc ▸ PidCtx.ok_reset
  limits_legal := hlim

/-! ## The state after reset (R38) -/

/-- The reset state is what the reset input leaves as it is. -/
theorem resetBlock_reset : resetBlock State.reset = State.reset := rfl

/-- Settles O1, on the values that the reset input gives the block. -/
theorem resetStateIsAllZero : Obligations.ResetStateIsAllZero := by
  rw [Obligations.ResetStateIsAllZero, ← resetBlock_reset]
  exact ⟨rfl, fun _ _ => rfl, rfl, resetBlock_device _, fun _ hc => List.eq_of_mem_replicate hc⟩

theorem legal_legalize (r : ModelRow) : r.legalize.legal = true := by
  unfold ModelRow.legalize
  split
  · assumption
  · decide

/-- The rows of the reset table (R5, log 3). -/
theorem modelLimits_get (m : Fin 7) : Config.modelLimits[m] = (Config.modelRow m).legalize := by
  fin_cases m <;> rfl

/-- Settles O3: the reset input's values, one PID context, and a table that is legal row by row. -/
theorem resetStateMeetsInvariant : Obligations.ResetStateMeetsInvariant := by
  have hlim (m : Fin 7) : (State.reset.limits[m]).legal = true :=
    modelLimits_get m ▸ legal_legalize _
  rw [Obligations.ResetStateMeetsInvariant, ← resetBlock_reset]
  exact State.inv_resetBlock (by decide) (by decide) hlim

/-! ## The invariant under every operation -/

/-- The next state, where there is one, meets the invariant. -/
def NextInv (r : Result) : Prop := ∀ t, r = .next t → State.Inv t

theorem nextInv_next {s : State} (hs : State.Inv s) : NextInv (.next s) :=
  fun _ h => Host.Outcome.next.inj h ▸ hs

theorem nextInv_refused (r : Refusal) : NextInv (.refused r) := nofun

theorem nextInv_fault (f : Fault) : NextInv (.fault f) := nofun

theorem nextInv_ite {c : Prop} [Decidable c] {a b : Result} (ha : c → NextInv a)
    (hb : ¬c → NextInv b) : NextInv (if c then a else b) := by
  split
  · exact ha ‹_›
  · exact hb ‹_›

section
variable {s : State} (hs : State.Inv s)
include hs

theorem nextInv_respond (r : Response) : NextInv (.next (s.respond r)) :=
  nextInv_next (hs.respond r)

theorem nextInv_raise (c : Cause) : NextInv (raise c s) := nextInv_next ((hs.setFault c).respond _)

theorem nextInv_accept (rxOk : Bool) {body : Result} (hb : NextInv body) :
    NextInv (accept rxOk s body) := by
  rcases accept_cases rxOk s body with ⟨-, heq⟩ | ⟨-, -, -, heq⟩ | ⟨-, -, heq⟩ <;> rw [heq]
  · exact nextInv_respond hs _
  · exact nextInv_raise hs _
  · exact hb

theorem nextInv_fbWrite (bytes : List Byte) : NextInv (fbWrite bytes s) :=
  nextInv_ite (fun _ => nextInv_fault _) fun h =>
    nextInv_respond (hs.append (Nat.not_lt.1 h)) _

theorem nextInv_send (id : BitVec 29) (ext : BitVec 1) (bytes : List Byte) :
    NextInv (send id ext bytes s) :=
  nextInv_respond (hs.handOver _) _

theorem nextInv_servoFloat (x : F) {body : Result} (hb : NextInv body) :
    NextInv (servoFloat x s body) :=
  nextInv_accept hs _ <| nextInv_ite (fun _ => nextInv_refused _) fun _ => hb

theorem nextInv_withRange (n : BitVec 8) (lo hi : F) {body : Result} (hb : NextInv body) :
    NextInv (withRange n lo hi s body) :=
  nextInv_ite (fun _ => nextInv_raise hs _) fun _ =>
    nextInv_ite (fun _ => nextInv_raise hs _) fun _ => hb

/-- A context written by an operation on an existing context must be in order. -/
theorem nextInv_withPid (p : BitVec 8) {body : PidCtx → Result}
    (hb : ∀ c, PidCtx.Ok c → NextInv (body c)) : NextInv (withPid p s body) := by
  cases hc : s.pid[p.toNat]? with
  | none =>
    rw [withPid_none _ (List.getElem?_eq_none_iff.1 hc)]
    exact nextInv_raise hs _
  | some c =>
    rw [withPid_some _ hc]
    exact hb c (hs.pid_ok c (List.mem_of_getElem? hc))

theorem nextInv_withInited (p : BitVec 8) {body : PidCtx → Result}
    (hb : ∀ c, PidCtx.Ok c → c.inited = true → NextInv (body c)) : NextInv (withInited p s body) :=
  nextInv_withPid hs p fun c hc => nextInv_ite (hb c hc) fun _ => nextInv_raise hs _

/-- The last act of a PID operation. -/
theorem nextInv_setPid (p : BitVec 8) {c : PidCtx} (hc : PidCtx.Ok c) (r : Response) :
    NextInv (.next ((s.setPid p c).respond r)) :=
  nextInv_respond (hs.setPid p hc) r

theorem nextInv_setDevice (a : BitVec 8) (d : Device) (r : Response) :
    NextInv (.next ((s.setDevice a d).respond r)) :=
  nextInv_respond (hs.setDevice a d) r

/-- An operation that names a model: `CFG_MODEL` for index 7 (R206). -/
theorem nextInv_execDevreg (a : BitVec 8) (model : BitVec 3) : NextInv (execDevreg a model s) := by
  refine nextInv_accept hs _ ?_
  split
  · exact nextInv_raise hs _
  · exact nextInv_ite (fun _ => nextInv_respond hs _) fun _ => nextInv_setDevice hs _ _ _

theorem nextInv_execMitcmd (a : BitVec 8) (model : BitVec 3) (p v kp kd t : F) :
    NextInv (execMitcmd a model p v kp kd t s) := by
  refine nextInv_accept hs _ ?_
  split
  · exact nextInv_raise hs _
  · exact nextInv_ite (fun _ => nextInv_refused _) fun _ => nextInv_send hs _ _ _

theorem nextInv_execPidinit (p : BitVec 8) (variant : BitVec 1) (mo il db me kp ki kd : F) :
    NextInv (execPidinit p variant mo il db me kp ki kd s) :=
  nextInv_accept hs _ <| nextInv_withPid hs p fun _ _ =>
    nextInv_ite (fun _ => nextInv_raise hs _) fun hmo =>
      nextInv_ite (fun _ => nextInv_raise hs _) fun hil =>
        nextInv_setPid hs p
          (PidCtx.ok_construct _ _ _ _ _ _ (Bool.eq_true_of_not_eq_false hmo)
            (Bool.eq_true_of_not_eq_false hil)) _

/-- Every operation keeps the invariant. -/
theorem nextInv_exec (i : Instr) : NextInv (exec i s) := by
  cases i with
  | f2x n v lo hi =>
    exact nextInv_accept hs _ <| nextInv_withRange hs _ _ _ <|
      nextInv_ite (fun _ => nextInv_refused _) fun _ => nextInv_respond hs _
  | x2f n code lo hi =>
    exact nextInv_accept hs _ <| nextInv_withRange hs _ _ _ <| nextInv_respond hs _
  | app16 v =>
    exact nextInv_accept hs _ <|
      nextInv_ite (fun _ => nextInv_refused _) fun _ => nextInv_fbWrite hs _
  | app32 v =>
    exact nextInv_accept hs _ <|
      nextInv_ite (fun _ => nextInv_refused _) fun _ => nextInv_fbWrite hs _
  | fbrst => exact nextInv_accept hs _ <| nextInv_respond hs.clearBuffer _
  | fbrd => exact nextInv_accept hs _ <| nextInv_respond hs _
  | svduty a x => exact nextInv_servoFloat hs _ <| nextInv_send hs _ _ _
  | svcur a x => exact nextInv_servoFloat hs _ <| nextInv_send hs _ _ _
  | svbrk a x => exact nextInv_servoFloat hs _ <| nextInv_send hs _ _ _
  | svrpm a x => exact nextInv_servoFloat hs _ <| nextInv_send hs _ _ _
  | svpos a x => exact nextInv_servoFloat hs _ <| nextInv_send hs _ _ _
  | svorg a mode =>
    exact nextInv_accept hs _ <|
      nextInv_ite (fun _ => nextInv_raise hs _) fun _ => nextInv_send hs _ _ _
  | svpsa a x spd acc =>
    exact nextInv_servoFloat hs _ <|
      nextInv_ite (fun _ => nextInv_refused _) fun _ => nextInv_send hs _ _ _
  | mitent a => exact nextInv_accept hs _ <| nextInv_send hs _ _ _
  | mitorg a => exact nextInv_accept hs _ <| nextInv_send hs _ _ _
  | mitext a => exact nextInv_accept hs _ <| nextInv_send hs _ _ _
  | mitcmd a model p v kp kd t => exact nextInv_execMitcmd hs a model p v kp kd t
  | decode a fmt w0 w1 =>
    exact nextInv_accept hs _ <|
      nextInv_ite (fun _ => nextInv_setDevice hs _ _ _) fun _ => nextInv_respond hs _
  | tlmrd a field =>
    exact nextInv_accept hs _ <| nextInv_ite (fun _ => nextInv_raise hs _) fun _ =>
      nextInv_ite (fun _ => nextInv_respond hs _) fun _ => nextInv_respond hs _
  | tlmsnap a =>
    exact nextInv_accept hs _ <|
      nextInv_ite (fun _ => nextInv_respond hs _) fun _ => nextInv_respond hs _
  | devreg a model => exact nextInv_execDevreg hs a model
  | devunreg a conflict =>
    exact nextInv_accept hs _ <|
      nextInv_ite (fun _ => nextInv_respond hs _) fun _ => nextInv_setDevice hs _ _ _
  | devfind a =>
    exact nextInv_accept hs _ <|
      nextInv_ite (fun _ => nextInv_respond hs _) fun _ => nextInv_respond hs _
  | pidinit p variant mo il db me kp ki kd =>
    exact nextInv_execPidinit hs p variant mo il db me kp ki kd
  | pidgain p kp ki kd =>
    exact nextInv_accept hs _ <| nextInv_withInited hs p fun _ hc hi =>
      nextInv_setPid hs p (hc.gains hi kp ki kd) _
  | pidclr p =>
    exact nextInv_accept hs _ <| nextInv_withInited hs p fun _ hc hi =>
      nextInv_setPid hs p (hc.cleared hi) _
  | pidcalc p x y =>
    exact nextInv_accept hs _ <| nextInv_withInited hs p fun _ hc hi =>
      nextInv_setPid hs p (hc.stepped hi x y) _

/-- A command keeps the invariant, legal or not. -/
theorem nextInv_perform (cmd : List Word) : NextInv (perform cmd s) := by
  unfold perform
  split
  · exact nextInv_exec hs _
  · exact nextInv_accept hs _ (nextInv_raise hs _)

theorem nextInv_stepCommand (p : Port) : NextInv (stepCommand p s) := by
  unfold stepCommand
  split
  · exact nextInv_next hs
  · exact nextInv_perform (hs.congr (by simp) (by simp) (by simp) (by simp) (by simp)) _

end

/-- Settles O57: no turn, the reset input, or a port's turn. -/
theorem everyStepKeepsInvariant : Obligations.EveryStepKeepsInvariant := by
  intro s t hs hstep
  have hnext : NextInv (step s) := by
    unfold step
    split
    next => exact nextInv_next hs
    next ts _ => exact nextInv_next (State.inv_resetBlock hs.pid_pos hs.pid_le hs.limits_legal)
    next p ts _ =>
      have hturn : State.Inv { s with turns := ts } := hs.congr rfl rfl rfl rfl rfl
      exact nextInv_stepCommand hturn p
  exact hnext t hstep

/-! ## What a PID operation reads and writes (R31) -/

/-- All that an operation on a PID context can do to the state. -/
inductive PidEffect where
  /-- Nothing but the response. -/
  | answer (r : Response)
  /-- A fault is raised. -/
  | fault (c : Cause)
  /-- The context is written. -/
  | write (c : PidCtx) (r : Response)

/-- The effect carried out on context `p`. -/
def PidEffect.result (p : BitVec 8) : PidEffect → State → Result
  | .answer r, s => .next (s.respond r)
  | .fault c, s => raise c s
  | .write c r, s => .next ((s.setPid p c).respond r)

/-- The two results come of the same effect, one on each of two states. -/
def SameEffect (p : BitVec 8) (s s' : State) (r r' : Result) : Prop :=
  ∃ e : PidEffect, r = e.result p s ∧ r' = e.result p s'

/-- The two states agree in what an operation on context `p` may read. -/
structure AgreeOn (p : BitVec 8) (s s' : State) : Prop where
  fault_eq : s'.fault = s.fault
  port_eq : s'.port = s.port
  pid_eq : s'.pid[p.toNat]? = s.pid[p.toNat]?

theorem sameEffect_raise (p : BitVec 8) (s s' : State) (c : Cause) :
    SameEffect p s s' (raise c s) (raise c s') :=
  ⟨.fault c, rfl, rfl⟩

theorem sameEffect_write (p : BitVec 8) (s s' : State) (c : PidCtx) (r : Response) :
    SameEffect p s s' (.next ((s.setPid p c).respond r)) (.next ((s'.setPid p c).respond r)) :=
  ⟨.write c r, rfl, rfl⟩

theorem sameEffect_ite {p : BitVec 8} {s s' : State} {c : Prop} [Decidable c] {a a' b b' : Result}
    (ha : SameEffect p s s' a a') (hb : SameEffect p s s' b b') :
    SameEffect p s s' (if c then a else b) (if c then a' else b') := by
  split
  · exact ha
  · exact hb

section
variable {p : BitVec 8} {s s' : State} (h : AgreeOn p s s')
include h

theorem AgreeOn.accept (rxOk : Bool) {b b' : Result} (hb : SameEffect p s s' b b') :
    SameEffect p s s' (accept rxOk s b) (accept rxOk s' b') := by
  unfold Machine.accept
  rw [h.fault_eq, h.port_eq]
  exact sameEffect_ite ⟨.answer _, rfl, rfl⟩ (sameEffect_ite (sameEffect_raise p s s' _) hb)

theorem AgreeOn.withPid {b b' : PidCtx → Result} (hb : ∀ c, SameEffect p s s' (b c) (b' c)) :
    SameEffect p s s' (withPid p s b) (withPid p s' b') := by
  unfold Machine.withPid
  rw [h.pid_eq]
  split
  · exact sameEffect_raise p s s' _
  · exact hb _

theorem AgreeOn.withInited {b b' : PidCtx → Result} (hb : ∀ c, SameEffect p s s' (b c) (b' c)) :
    SameEffect p s s' (withInited p s b) (withInited p s' b') :=
  h.withPid fun c => sameEffect_ite (hb c) (sameEffect_raise p s s' _)

end

/-- The header of an operation carries its PID index (R61). -/
theorem hP_encodeHeader (o : Opcode) (m p a : BitVec 8) : hP (encodeHeader o m p a) = p :=
  hP_headerWord _ _ _ _

/-- A PID operation has the same effect on all states that agree on what R31 lets it read. -/
theorem sameEffect_exec {i : Instr} {s s' : State}
    (hop : i.opcode = .pidinit ∨ i.opcode = .pidgain ∨ i.opcode = .pidclr ∨ i.opcode = .pidcalc)
    (h : AgreeOn (hP ((encode i).headD 0)) s s') :
    SameEffect (hP ((encode i).headD 0)) s s' (exec i s) (exec i s') := by
  cases i with
  | pidinit p variant mo il db me kp ki kd =>
    simp only [encode, List.headD_cons, hP_encodeHeader] at h ⊢
    exact h.accept _ <| h.withPid fun _ => sameEffect_ite (sameEffect_raise p s s' _) <|
      sameEffect_ite (sameEffect_raise p s s' _) (sameEffect_write p s s' _ _)
  | pidgain p kp ki kd =>
    simp only [encode, List.headD_cons, hP_encodeHeader] at h ⊢
    exact h.accept _ <| h.withInited fun _ => sameEffect_write p s s' _ _
  | pidclr p =>
    simp only [encode, List.headD_cons, hP_encodeHeader] at h ⊢
    exact h.accept _ <| h.withInited fun _ => sameEffect_write p s s' _ _
  | pidcalc p x y =>
    simp only [encode, List.headD_cons, hP_encodeHeader] at h ⊢
    exact h.accept _ <| h.withInited fun _ => sameEffect_write p s s' _ _
  | _ => simp [Instr.opcode] at hop

/-- An effect on context `p` leaves the other contexts and the rest of the block (R31). -/
theorem PidEffect.result_frame {p : BitVec 8} {e : PidEffect} {s t : State}
    (h : e.result p s = .next t) :
    (∀ q, q ≠ p.toNat → t.pid[q]? = s.pid[q]?) ∧
      t.fb = s.fb ∧ t.cur = s.cur ∧ t.dev = s.dev ∧ t.frames = s.frames := by
  cases e with
  | answer r => exact Host.Outcome.next.inj h ▸ ⟨fun _ _ => rfl, rfl, rfl, rfl, rfl⟩
  | fault c => exact Host.Outcome.next.inj h ▸ ⟨fun _ _ => rfl, rfl, rfl, rfl, rfl⟩
  | write c r =>
    exact Host.Outcome.next.inj h ▸ ⟨fun _ hq => s.setPid_ne c hq, rfl, rfl, rfl, rfl⟩

/-- Writing a context reads the same from all tables that had the same context there. -/
theorem getElem?_set_congr {l l' : List PidCtx} {n : Nat} (c : PidCtx) (h : l'[n]? = l[n]?) :
    (l'.set n c)[n]? = (l.set n c)[n]? := by
  rw [List.getElem?_set_self', List.getElem?_set_self', h]

/-- An effect on context `p` comes out the same with all else of the block replaced. -/
theorem PidEffect.result_replaced {p : BitVec 8} {e : PidEffect} {s t : State} {pid' : List PidCtx}
    (fb : Memory) (cur : BitVec 4) (dev : Vector Device 256)
    (hp : pid'[p.toNat]? = s.pid[p.toNat]?) (h : e.result p s = .next t) :
    ∃ pid'', e.result p { s with pid := pid', fb := fb, cur := cur, dev := dev } =
        .next { t with pid := pid'', fb := fb, cur := cur, dev := dev } ∧
      pid''[p.toNat]? = t.pid[p.toNat]? ∧ (∀ q, q ≠ p.toNat → pid''[q]? = pid'[q]?) := by
  cases e with
  | answer r => exact Host.Outcome.next.inj h ▸ ⟨pid', rfl, hp, fun _ _ => rfl⟩
  | fault c => exact Host.Outcome.next.inj h ▸ ⟨pid', rfl, hp, fun _ _ => rfl⟩
  | write c r =>
    exact Host.Outcome.next.inj h ▸ ⟨pid'.set p.toNat c, rfl, getElem?_set_congr c hp,
      fun _ hq => List.getElem?_set_ne (Ne.symm hq)⟩

/-- Settles O55: the two states agree on what the operation reads, so its effect is one and the
same, and an effect touches its own context only. -/
theorem pidContextsAreIndependent : Obligations.PidContextsAreIndependent := by
  rintro i s t p pid' fb cur dev hop rfl - hp hexec
  obtain ⟨e, heq, heq'⟩ := sameEffect_exec (s := s)
    (s' := { s with pid := pid', fb := fb, cur := cur, dev := dev }) hop ⟨rfl, rfl, hp⟩
  rw [heq] at hexec
  obtain ⟨hpid, hfb, hcur, hdev, hframes⟩ := PidEffect.result_frame hexec
  exact ⟨hpid, hfb, hcur, hdev, hframes, heq' ▸ PidEffect.result_replaced fb cur dev hp hexec⟩

end Sys2Proof.Machine
end

section
/-! PROOFS. What the agents around the block see and change (20_memory.md): a step runs its command,
what an operation does at the response and transport ports, the frame buffer read back, and the
receive agent. -/

namespace Sys2Proof.Machine

/-! ## A port's turn (R49, R60) -/

/-- The turns to come do not touch the words waiting on a port. -/
@[simp] theorem State.words_withTurns (s : State) (ts : List Turn) (p : Port) :
    ({ s with turns := ts } : State).words p = s.words p := by
  cases p <;> rfl

theorem step_command {s : State} {p : Port} {ts : List Turn} (h : s.turns = .command p :: ts) :
    step s = stepCommand p { s with turns := ts } := by
  rw [step, h]

theorem stepCommand_waits {s : State} {p : Port} (h : nextCommand (s.words p) = none) :
    stepCommand p s = .next s := by
  rw [stepCommand, h]

theorem stepCommand_takes {s : State} {p : Port} {cmd rest : List Word}
    (h : nextCommand (s.words p) = some (cmd, rest)) :
    stepCommand p s = perform cmd { s.setWords p rest with port := p } := by
  rw [stepCommand, h]

theorem perform_legal {cmd : List Word} {i : Instr} (s : State) (h : decode cmd = .ok i) :
    perform cmd s = exec i s := by
  rw [perform, h]

theorem perform_illegal {cmd : List Word} {e : Reject} (s : State) (h : decode cmd = .error e) :
    perform cmd s = accept true s (raise .illegalCommand s) := by
  rw [perform, h, illegal]

/-- Settles O4: the turn takes the command off its port, and the command decodes. -/
theorem stepRunsDecodedCommand : Obligations.StepRunsDecodedCommand := by
  intro s p ts i cmd rest hturns hnext hdec
  rw [step_command hturns, stepCommand_takes (by rwa [State.words_withTurns]),
    perform_legal _ hdec]

/-! ## All that an operation can do (R47, R63, R200) -/

/-- All the ways in which an operation that has passed the checks of R211 changes the state. -/
inductive Did (s : State) : State → Prop
  /-- A fault is raised. -/
  | raised (c : Cause) : Did s ({ s with fault := c.code }.respond { st := c.code })
  /-- Results, and no other change. -/
  | answered (r : Response) (hst : r.st = 0) (hrc : r.rc = 0) : Did s (s.respond r)
  /-- The frame buffer and its cursor are written. -/
  | buffer (fb : Memory) (cur : BitVec 4) : Did s ({ s with fb := fb, cur := cur }.respond {})
  /-- One record of the device table is written. -/
  | device (a : BitVec 8) (d : Device) (r : Response) (hst : r.st = 0) (hrc : r.rc = 0) :
      Did s ((s.setDevice a d).respond r)
  /-- One PID context is written. -/
  | pid (p : BitVec 8) (c : PidCtx) (r : Response) (hst : r.st = 0) (hrc : r.rc = 0) :
      Did s ((s.setPid p c).respond r)
  /-- One frame is handed to the transport, whose answer is the response. -/
  | sent (f : Frame) : Did s ((s.handOver f).respond { rc := s.nextRc })

/-- The next state, where there is one, comes about in one of these ways. -/
def Does (s : State) (r : Result) : Prop := ∀ t, r = .next t → Did s t

section
variable {s : State}

theorem does_next {t : State} (h : Did s t) : Does s (.next t) :=
  fun _ ht => Host.Outcome.next.inj ht ▸ h

theorem does_refused (r : Refusal) : Does s (.refused r) := nofun

theorem does_raise (c : Cause) : Does s (raise c s) := does_next (.raised c)

theorem does_ite {c : Prop} [Decidable c] {a b : Result} (ha : Does s a) (hb : Does s b) :
    Does s (if c then a else b) := by
  split
  · exact ha
  · exact hb

/-- The last act of an operation that only answers. -/
theorem does_answer {r : Response} (hst : r.st = 0) (hrc : r.rc = 0) :
    Does s (.next (s.respond r)) :=
  does_next (.answered r hst hrc)

theorem does_setDevice (a : BitVec 8) (d : Device) {r : Response} (hst : r.st = 0)
    (hrc : r.rc = 0) : Does s (.next ((s.setDevice a d).respond r)) :=
  does_next (.device a d r hst hrc)

theorem does_setPid (p : BitVec 8) (c : PidCtx) {r : Response} (hst : r.st = 0) (hrc : r.rc = 0) :
    Does s (.next ((s.setPid p c).respond r)) :=
  does_next (.pid p c r hst hrc)

theorem does_send (id : BitVec 29) (ext : BitVec 1) (bytes : List Byte) :
    Does s (send id ext bytes s) :=
  does_next (.sent _)

theorem does_fbWrite (bytes : List Byte) : Does s (fbWrite bytes s) :=
  does_ite nofun (does_next (.buffer _ _))

theorem does_withRange (n : BitVec 8) (lo hi : F) {body : Result} (hb : Does s body) :
    Does s (withRange n lo hi s body) :=
  does_ite (does_raise _) (does_ite (does_raise _) hb)

theorem does_withPid (p : BitVec 8) {body : PidCtx → Result} (hb : ∀ c, Does s (body c)) :
    Does s (withPid p s body) := by
  unfold withPid
  split
  · exact does_raise _
  · exact hb _

theorem does_withInited (p : BitVec 8) {body : PidCtx → Result} (hb : ∀ c, Does s (body c)) :
    Does s (withInited p s body) :=
  does_withPid p fun c => does_ite (hb c) (does_raise _)

/-- An operation that names a model: `CFG_MODEL` for index 7 (R206). -/
theorem does_modelIndex (m : BitVec 3) {body : Fin 7 → Result} (hb : ∀ k, Does s (body k)) :
    Does s (match modelIndex m with | none => raise .cfgModel s | some k => body k) := by
  split
  · exact does_raise _
  · exact hb _

end

/-- Every operation makes the checks of R211 first, and what it does after them is one of the ways
of `Did`. -/
theorem exec_eq_accept (i : Instr) (s : State) :
    ∃ body, exec i s = accept (isDecode i) s body ∧ Does s body := by
  cases i with
  | f2x =>
    exact ⟨_, rfl, does_withRange _ _ _ (does_ite (does_refused _) (does_answer rfl rfl))⟩
  | x2f => exact ⟨_, rfl, does_withRange _ _ _ (does_answer rfl rfl)⟩
  | app16 | app32 => exact ⟨_, rfl, does_ite (does_refused _) (does_fbWrite _)⟩
  | fbrst => exact ⟨_, rfl, does_next (.buffer _ _)⟩
  | fbrd => exact ⟨_, rfl, does_answer rfl rfl⟩
  | svduty | svcur | svbrk | svrpm | svpos =>
    exact ⟨_, rfl, does_ite (does_refused _) (does_send _ _ _)⟩
  | svorg => exact ⟨_, rfl, does_ite (does_raise _) (does_send _ _ _)⟩
  | svpsa =>
    exact ⟨_, rfl, does_ite (does_refused _) (does_ite (does_refused _) (does_send _ _ _))⟩
  | mitent | mitorg | mitext => exact ⟨_, rfl, does_send _ _ _⟩
  | mitcmd a model =>
    exact ⟨_, rfl, does_modelIndex model fun _ => does_ite (does_refused _) (does_send _ _ _)⟩
  | decode => exact ⟨_, rfl, does_ite (does_setDevice _ _ rfl rfl) (does_answer rfl rfl)⟩
  | tlmrd =>
    exact ⟨_, rfl, does_ite (does_raise _) (does_ite (does_answer rfl rfl) (does_answer rfl rfl))⟩
  | tlmsnap | devfind => exact ⟨_, rfl, does_ite (does_answer rfl rfl) (does_answer rfl rfl)⟩
  | devreg a model =>
    exact ⟨_, rfl, does_modelIndex model fun _ =>
      does_ite (does_answer rfl rfl) (does_setDevice _ _ rfl rfl)⟩
  | devunreg => exact ⟨_, rfl, does_ite (does_answer rfl rfl) (does_setDevice _ _ rfl rfl)⟩
  | pidinit =>
    exact ⟨_, rfl, does_withPid _ fun _ =>
      does_ite (does_raise _) (does_ite (does_raise _) (does_setPid _ _ rfl rfl))⟩
  | pidgain | pidclr | pidcalc =>
    exact ⟨_, rfl, does_withInited _ fun _ => does_setPid _ _ rfl rfl⟩

/-- A faulted block rejects (R201); otherwise an operation does one of the things of `Did`. -/
theorem exec_next_cases {i : Instr} {s t : State} (h : exec i s = .next t) :
    (s.fault ≠ 0 ∧ t = s.respond { st := 0xFF }) ∨ (s.fault = 0 ∧ Did s t) := by
  obtain ⟨body, hexec, hbody⟩ := exec_eq_accept i s
  rw [hexec] at h
  rcases accept_cases (isDecode i) s body with ⟨hf, heq⟩ | ⟨hf, -, -, heq⟩ | ⟨hf, -, heq⟩ <;>
    rw [heq] at h
  · exact .inl ⟨hf, (Host.Outcome.next.inj h).symm⟩
  · exact .inr ⟨hf, does_raise _ t h⟩
  · exact .inr ⟨hf, hbody t h⟩

/-- A faulted block rejects every operation (R201). -/
theorem exec_faulted (i : Instr) {s : State} (hf : s.fault ≠ 0) :
    exec i s = .next (s.respond { st := 0xFF }) := by
  obtain ⟨body, hexec, -⟩ := exec_eq_accept i s
  exact hexec.trans (accept_faulted _ body hf)

/-- The receive port refuses every operation but `DECODE` (R60, R204 (b)). -/
theorem exec_rx {i : Instr} {s : State} (hf : s.fault = 0) (hp : s.port = .rx)
    (hi : isDecode i = false) : exec i s = raise .illegalCommand s := by
  obtain ⟨body, hexec, -⟩ := exec_eq_accept i s
  rw [hexec, hi, accept_rx body hf hp]

/-- A faulted block rejects every command, legal or not (R201). -/
theorem perform_faulted (cmd : List Word) {s : State} (hf : s.fault ≠ 0) :
    perform cmd s = .next (s.respond { st := 0xFF }) := by
  cases hdec : decode cmd with
  | error e => exact (perform_illegal s hdec).trans (accept_faulted _ _ hf)
  | ok i => exact (perform_legal s hdec).trans (exec_faulted i hf)

/-- Settles O17: only handing over a frame touches the transport, and only a rejection or a fault
answers with a status, alone. -/
theorem oneResponseAndAtMostOneFrame : Obligations.OneResponseAndAtMostOneFrame := by
  intro i s t h
  rcases exec_next_cases h with ⟨-, rfl⟩ | ⟨-, hdid⟩
  · exact ⟨_, rfl, fun _ => ⟨rfl, rfl⟩, .inl ⟨rfl, rfl, rfl⟩⟩
  cases hdid with
  | raised c => exact ⟨_, rfl, fun _ => ⟨rfl, rfl⟩, .inl ⟨rfl, rfl, rfl⟩⟩
  | answered r hst hrc | device a d r hst hrc | pid p c r hst hrc =>
    exact ⟨r, rfl, fun hne => absurd hst hne, .inl ⟨rfl, rfl, hrc⟩⟩
  | buffer fb cur => exact ⟨_, rfl, fun hne => absurd rfl hne, .inl ⟨rfl, rfl, rfl⟩⟩
  | sent f => exact ⟨_, rfl, fun hne => absurd rfl hne, .inr ⟨f, rfl, rfl, rfl⟩⟩

/-! ## The frame buffer read back (R41, R42) -/

/-- Four bytes of the frame buffer as a result word (R63). -/
def Memory.word (m : Memory) (i : Nat) : Word :=
  packWord (m.read i) (m.read (i + 1)) (m.read (i + 2)) (m.read (i + 3))

/-- Packing undoes serialising: both go by the most significant byte first (R12, R63). -/
theorem packWord_extract (v : Word) :
    packWord (v.extractLsb' 24 8) (v.extractLsb' 16 8) (v.extractLsb' 8 8) (v.extractLsb' 0 8) = v :=
  headerWord_fields v

/-- The word read where a word was stored is that word. -/
theorem Memory.word_writeBytes_same {m : Memory} {i : Nat} (v : Word) (hm : m.wf = true)
    (hi : i + 4 ≤ 8) : (m.writeBytes i (ser32 v)).word i = v := by
  have hread (k : Nat) (hk : k < 4) : (m.writeBytes i (ser32 v)).read (i + k) = (ser32 v)[k]'hk :=
    Memory.read_writeBytes_in (ser32 v) hm hi hk
  have h0 : (m.writeBytes i (ser32 v)).read i = v.extractLsb' 24 8 := hread 0 (by decide)
  have h1 : (m.writeBytes i (ser32 v)).read (i + 1) = v.extractLsb' 16 8 := hread 1 (by decide)
  have h2 : (m.writeBytes i (ser32 v)).read (i + 2) = v.extractLsb' 8 8 := hread 2 (by decide)
  have h3 : (m.writeBytes i (ser32 v)).read (i + 3) = v.extractLsb' 0 8 := hread 3 (by decide)
  rw [Memory.word, h0, h1, h2, h3, packWord_extract]

/-- A word below the bytes stored stays. -/
theorem Memory.word_writeBytes_below (m : Memory) {i j : Nat} (bs : List Byte) (h : j + 4 ≤ i) :
    (m.writeBytes i bs).word j = m.word j := by
  simp only [Memory.word]
  rw [Memory.read_writeBytes_out m bs (.inl (by omega)),
    Memory.read_writeBytes_out m bs (.inl (by omega)),
    Memory.read_writeBytes_out m bs (.inl (by omega)),
    Memory.read_writeBytes_out m bs (.inl (by omega))]

/-- Two words stored one after the other: the second does not disturb the first. -/
theorem Memory.word_two_appends (v w : Word) :
    (Memory.writeBytes (Memory.writeBytes [] 0 (ser32 v)) 4 (ser32 w)).word 0 = v ∧
    (Memory.writeBytes (Memory.writeBytes [] 0 (ser32 v)) 4 (ser32 w)).word 4 = w := by
  have hwf : (Memory.writeBytes [] 0 (ser32 v)).wf = true :=
    Memory.wf_writeBytes (ser32 v) Memory.wf_nil (Nat.le_add_left 4 4)
  constructor
  · rw [Memory.word_writeBytes_below _ _ le_rfl,
      Memory.word_writeBytes_same v Memory.wf_nil (by decide)]
  · exact Memory.word_writeBytes_same w hwf le_rfl

/-- `FBRST` on a ready block (R108). -/
theorem exec_fbrst {s : State} (hs : Ready s) :
    exec .fbrst s = .next ({ s with fb := [], cur := 0 }.respond {}) :=
  accept_ready false _ hs.1 hs.2

/-- `APP32` on a ready block whose buffer has room for four bytes (R107). -/
theorem exec_app32 {s : State} (v : BitVec 32) (hs : Ready s) (hfit : s.cur.toNat + 4 ≤ 8) :
    exec (.app32 v) s = .next
      ({ s with fb := s.fb.writeBytes s.cur.toNat (ser32 v), cur := s.cur + 4 }.respond {}) := by
  calc exec (.app32 v) s
      = if 8 < s.cur.toNat + 4 then .refused .fbOverrun else fbWrite (ser32 v) s :=
        accept_ready false _ hs.1 hs.2
    _ = fbWrite (ser32 v) s := if_neg (by omega)
    _ = _ := fbWrite_eq (ser32 v) hfit

/-- `FBRD` on a ready block (R109). -/
theorem exec_fbrd {s : State} {r0 r1 r2 : Word} (hs : Ready s) (h0 : s.fb.word 0 = r0)
    (h1 : s.fb.word 4 = r1) (h2 : s.cur.setWidth 32 = r2) :
    exec .fbrd s = .next (s.respond { r0 := r0, r1 := r1, r2 := r2 }) := by
  subst h0 h1 h2
  exact accept_ready false _ hs.1 hs.2

/-- Settles O27: the cursor is 0 at the first append, 4 at the second and 8 at the reading. -/
theorem appendsReadBack : Obligations.AppendsReadBack := by
  intro s v w hs
  obtain ⟨hv, hw⟩ := Memory.word_two_appends v w
  have hroom : (0 : BitVec 4).toNat + 4 ≤ 8 := by decide
  have hroom' : (0 + 4 : BitVec 4).toNat + 4 ≤ 8 := by decide
  exact ⟨_, _, _, exec_fbrst hs, exec_app32 v hs hroom, exec_app32 w hs hroom',
    exec_fbrd hs hv hw rfl⟩

/-! ## The receive agent (R50, R153) -/

/-- Overwriting the snapshot of a registered device changes neither `valid` nor `model` of any
device, and no field of an unregistered one. -/
theorem State.device_setDevice_record {s : State} {a : BitVec 8} (d : Snapshot)
    (hv : (s.device a).valid = true) (b : BitVec 8) :
    ((s.setDevice a ((s.device a).record d)).device b).valid = (s.device b).valid ∧
    ((s.setDevice a ((s.device a).record d)).device b).model = (s.device b).model ∧
    ((s.device b).valid = false →
      (s.setDevice a ((s.device a).record d)).device b = s.device b) := by
  by_cases hab : b = a
  · subst hab
    rw [State.device_setDevice_self]
    exact ⟨rfl, rfl, fun hf => absurd (hv.symm.trans hf) nofun⟩
  · rw [State.device_setDevice_ne s a b _ hab]
    exact ⟨rfl, rfl, fun _ => rfl⟩

/-- All that `DECODE` does on a block that is not faulted (R152, R154). -/
theorem exec_decode_cases (a : BitVec 8) (fmt : BitVec 1) (w0 w1 : Word) {s : State}
    (hf : s.fault = 0) :
    ((s.device a).valid = true ∧ ∃ d, exec (.decode a fmt w0 w1) s =
      .next ((s.setDevice a ((s.device a).record d)).respond {})) ∨
    ((s.device a).valid = false ∧ exec (.decode a fmt w0 w1) s = .next (s.respond {})) := by
  have hexec : exec (.decode a fmt w0 w1) s = _ := accept_decode _ hf
  rw [hexec]
  cases hv : (s.device a).valid with
  | true => exact .inl ⟨rfl, _, if_pos rfl⟩
  | false => exact .inr ⟨rfl, if_neg nofun⟩

/-- The operations that the checks let through on the receive port (R60). -/
theorem eq_decode_of_isDecode {i : Instr} (h : isDecode i = true) :
    ∃ a fmt w0 w1, i = .decode a fmt w0 w1 := by
  cases i with
  | decode a fmt w0 w1 => exact ⟨a, fmt, w0, w1, rfl⟩
  | _ => exact absurd h nofun

/-- All that a command of the receive port can do, legal or not: answer, report an illegal command,
or overwrite the snapshot of a registered device. -/
theorem perform_rx_cases {cmd : List Word} {s t : State} (hp : s.port = .rx)
    (h : perform cmd s = .next t) :
    (∃ r, t = s.respond r) ∨
    (s.fault = 0 ∧ t = { s with fault := 1 }.respond { st := 1 }) ∨
    (∃ a d, (s.device a).valid = true ∧
      t = (s.setDevice a ((s.device a).record d)).respond {}) := by
  by_cases hf : s.fault = 0
  case neg =>
    rw [perform_faulted cmd hf] at h
    exact .inl ⟨_, (Host.Outcome.next.inj h).symm⟩
  cases hdec : decode cmd with
  | error e =>
    rw [perform_illegal s hdec, accept_decode _ hf] at h
    exact .inr (.inl ⟨hf, (Host.Outcome.next.inj h).symm⟩)
  | ok i =>
    rw [perform_legal s hdec] at h
    cases hi : isDecode i with
    | false =>
      rw [exec_rx hf hp hi] at h
      exact .inr (.inl ⟨hf, (Host.Outcome.next.inj h).symm⟩)
    | true =>
      obtain ⟨a, fmt, w0, w1, rfl⟩ := eq_decode_of_isDecode hi
      rcases exec_decode_cases a fmt w0 w1 hf with ⟨hv, d, heq⟩ | ⟨-, heq⟩ <;> rw [heq] at h
      · exact .inr (.inr ⟨a, d, hv, (Host.Outcome.next.inj h).symm⟩)
      · exact .inl ⟨_, (Host.Outcome.next.inj h).symm⟩

/-- Settles O41: the turn waits, or takes words off the receive port and does one of the three
things that a command there can do. -/
theorem receiveAgentChangesOnlySnapshots : Obligations.ReceiveAgentChangesOnlySnapshots := by
  intro s t ts hturns h
  rw [step_command hturns] at h
  cases hnext : nextCommand (({ s with turns := ts } : State).words .rx) with
  | none =>
    rw [stepCommand_waits hnext] at h
    cases h
    exact ⟨fun _ => ⟨rfl, rfl, fun _ => rfl⟩, rfl, rfl, rfl, rfl, rfl, rfl, rfl, .inl rfl⟩
  | some taken =>
    rw [stepCommand_takes hnext] at h
    rcases perform_rx_cases rfl h with ⟨r, rfl⟩ | ⟨hf, rfl⟩ | ⟨a, d, hv, rfl⟩
    · exact ⟨fun _ => ⟨rfl, rfl, fun _ => rfl⟩, rfl, rfl, rfl, rfl, rfl, rfl, rfl, .inl rfl⟩
    · exact ⟨fun _ => ⟨rfl, rfl, fun _ => rfl⟩, rfl, rfl, rfl, rfl, rfl, rfl, rfl,
        .inr ⟨hf, rfl, rfl⟩⟩
    · exact ⟨State.device_setDevice_record d hv, rfl, rfl, rfl, rfl, rfl, rfl, rfl, .inl rfl⟩

end Sys2Proof.Machine
end

section
/-! PROOFS. Command words and wire formats (30_encoding.md): the reserved opcodes, decoding against
encoding in both directions, the receive port's restriction, and the two layouts of MIT frames. -/

namespace Sys2Proof

/-! ## Reserved opcodes (R66) -/

/-- The `OPC` values that R66 lists as reserved. -/
abbrev Opcode.Reserved (n : Nat) : Prop :=
  n ≤ 0x0F ∨ (0x16 ≤ n ∧ n ≤ 0x1F) ∨ (0x27 ≤ n ∧ n ≤ 0x2F) ∨ (0x34 ≤ n ∧ n ≤ 0x3F) ∨
    (0x43 ≤ n ∧ n ≤ 0x4F) ∨ (0x53 ≤ n ∧ n ≤ 0x5F) ∨ 0x64 ≤ n

theorem Opcode.not_reserved_code (o : Opcode) : ¬ Opcode.Reserved o.code.toNat := by
  cases o <;> decide

/-- A reserved value names no opcode, because every opcode's value is outside the list. -/
theorem Opcode.ofCode_eq_none_of_reserved {c : BitVec 8} (hc : Opcode.Reserved c.toNat) :
    Opcode.ofCode c = none := by
  cases ho : Opcode.ofCode c with
  | none => rfl
  | some o => exact absurd (Opcode.code_of_ofCode ho ▸ hc) o.not_reserved_code

theorem commandLength_of_none {h : Word} (ho : Opcode.ofCode (hOpc h) = none) :
    commandLength h = 1 := by
  rw [commandLength, ho]

theorem decode_of_none {h : Word} (ops : List Word) (ho : Opcode.ofCode (hOpc h) = none) :
    decode (h :: ops) = .error .reservedOpcode := by
  rw [decode, ho]

/-- The fetch takes a whole command off the front of a port's words (R60). -/
theorem nextCommand_append {h : Word} {ops : List Word} (rest : List Word)
    (hlen : (h :: ops).length = commandLength h) :
    nextCommand (h :: ops ++ rest) = some (h :: ops, rest) := by
  have henough : ¬ (h :: ops ++ rest).length < commandLength h := by
    rw [List.length_append]; omega
  calc nextCommand (h :: ops ++ rest)
      = some ((h :: ops ++ rest).take (commandLength h),
          (h :: ops ++ rest).drop (commandLength h)) := if_neg henough
    _ = some (h :: ops, rest) := by rw [← hlen, List.take_left, List.drop_left]

/-- Settles O6: no opcode has a reserved value, so the command is its header alone. -/
theorem reservedOpcodesAreIllegal : Obligations.ReservedOpcodesAreIllegal := by
  intro h ops hres
  have ho : Opcode.ofCode (hOpc h) = none := Opcode.ofCode_eq_none_of_reserved hres
  exact ⟨decode_of_none ops ho,
    nextCommand_append (ops := []) ops (commandLength_of_none ho).symm⟩

/-! ## The decoder's checks (R61, R66) -/

/-- What the opcode does not use of the header is zero (R61). -/
theorem headerOk_iff {o : Opcode} {h : Word} : headerOk o h = true ↔
    (o.format.usesA = true ∨ hA h = 0) ∧ (o.format.usesP = true ∨ hP h = 0) ∧
      hM h >>> o.mBits = 0 := by
  simp [headerOk, and_assoc]

theorem decode_eq_checkMinor {h : Word} {o : Opcode} (ops : List Word)
    (ho : Opcode.ofCode (hOpc h) = some o) (hok : headerOk o h = true) :
    decode (h :: ops) = checkMinor (assemble o h ops) := by
  rw [decode, ho]
  exact if_pos hok

theorem decode_of_not_headerOk {h : Word} {o : Opcode} (ops : List Word)
    (ho : Opcode.ofCode (hOpc h) = some o) (hok : headerOk o h = false) :
    decode (h :: ops) = .error .fieldNotZero := by
  rw [decode, ho]
  exact if_neg (ne_true_of_eq_false hok)

/-- What the last check lets through is unchanged and well formed. -/
theorem checkMinor_eq_ok {r : Except Reject Instr} {i : Instr} (h : checkMinor r = .ok i) :
    r = .ok i ∧ WellFormed i = true := by
  cases r with
  | error e => exact absurd h nofun
  | ok j =>
    rw [checkMinor] at h
    split at h
    next hwf =>
      cases h
      exact ⟨rfl, hwf⟩
    next => cases h

/-- A command stands for an operation in this way only. -/
theorem decode_eq_ok {h : Word} {ops : List Word} {i : Instr} (hdec : decode (h :: ops) = .ok i) :
    ∃ o, Opcode.ofCode (hOpc h) = some o ∧ headerOk o h = true ∧ assemble o h ops = .ok i ∧
      WellFormed i = true := by
  cases ho : Opcode.ofCode (hOpc h) with
  | none => exact absurd (decode_of_none ops ho ▸ hdec) nofun
  | some o =>
    cases hok : headerOk o h with
    | true =>
      rw [decode_eq_checkMinor ops ho hok] at hdec
      exact ⟨o, rfl, hok, checkMinor_eq_ok hdec⟩
    | false =>
      rw [decode_of_not_headerOk ops ho hok] at hdec
      cases hdec

/-! ## Decoding what was encoded (R61 to R66, R77) -/

@[simp] theorem hM_encodeHeader (o : Opcode) (m p a : BitVec 8) :
    hM (encodeHeader o m p a) = m := hM_headerWord _ _ _ _

@[simp] theorem hP_encodeHeader (o : Opcode) (m p a : BitVec 8) :
    hP (encodeHeader o m p a) = p := hP_headerWord _ _ _ _

@[simp] theorem hA_encodeHeader (o : Opcode) (m p a : BitVec 8) :
    hA (encodeHeader o m p a) = a := hA_headerWord _ _ _ _

/-- A header written with zeros in what the opcode does not use passes the check of R61. -/
theorem headerOk_encodeHeader {o : Opcode} {m p a : BitVec 8} (hm : m >>> o.mBits = 0)
    (hp : o.format.usesP = true ∨ p = 0) (ha : o.format.usesA = true ∨ a = 0) :
    headerOk o (encodeHeader o m p a) = true := by
  rw [headerOk_iff, hM_encodeHeader, hP_encodeHeader, hA_encodeHeader]
  exact ⟨ha, hp, hm⟩

theorem decode_encodeHeader {o : Opcode} {m p a : BitVec 8} {ops : List Word} {i : Instr}
    (hm : m >>> o.mBits = 0) (hp : o.format.usesP = true ∨ p = 0)
    (ha : o.format.usesA = true ∨ a = 0)
    (hasm : assemble o (encodeHeader o m p a) ops = .ok i) :
    decode (encodeHeader o m p a :: ops) = checkMinor (.ok i) := by
  have ho : Opcode.ofCode (hOpc (encodeHeader o m p a)) = some o := by simp [encodeHeader]
  rw [decode_eq_checkMinor ops ho (headerOk_encodeHeader hm hp ha), hasm]

/-- A minor value fits the bits that its opcode uses. -/
theorem setWidth_ushiftRight_eq_zero {k : Nat} (x : BitVec k) :
    (x.setWidth 8 >>> k : BitVec 8) = 0 := by
  have hle : x.toNat % 2 ^ 8 ≤ x.toNat := Nat.mod_le _ _
  apply BitVec.eq_of_toNat_eq
  rw [BitVec.toNat_ushiftRight, BitVec.toNat_setWidth, Nat.shiftRight_eq_div_pow,
    Nat.div_eq_of_lt (hle.trans_lt x.isLt)]
  rfl

/-- The minor field is read back (R77). -/
theorem minor_encodeHeader {k : Nat} (o : Opcode) (x : BitVec k) (p a : BitVec 8) (hk : k ≤ 8) :
    minor k (encodeHeader o (x.setWidth 8) p a) = x := by
  simp [minor, hk]

/-- The command of an operation passes the checks of the header and is read back as that operation,
as far as its minor value is not reserved. -/
theorem decode_encode_eq_checkMinor (i : Instr) : decode (encode i) = checkMinor (.ok i) := by
  cases i with
  | f2x n | x2f n =>
    refine decode_encodeHeader (BitVec.ushiftRight_eq_zero le_rfl) (.inr rfl) (.inr rfl) ?_
    simp [assemble, take3]
  | app16 | app32 | fbrst | fbrd =>
    refine decode_encodeHeader rfl (.inr rfl) (.inr rfl) ?_
    simp [assemble, take0, take1]
  | svorg a x | mitcmd a x | decode a x | tlmrd a x | devreg a x | devunreg a x =>
    refine decode_encodeHeader (setWidth_ushiftRight_eq_zero x) (.inr rfl) (.inl rfl) ?_
    simp [assemble, take0, take2, take5, minor_encodeHeader]
  | svduty | svcur | svbrk | svrpm | svpos | svpsa | mitent | mitorg | mitext | tlmsnap | devfind =>
    refine decode_encodeHeader rfl (.inr rfl) (.inl rfl) ?_
    simp [assemble, take0, take1, take3]
  | pidinit p x =>
    refine decode_encodeHeader (setWidth_ushiftRight_eq_zero x) (.inl rfl) (.inr rfl) ?_
    simp [assemble, take7, minor_encodeHeader]
  | pidgain | pidclr | pidcalc =>
    refine decode_encodeHeader rfl (.inl rfl) (.inr rfl) ?_
    simp [assemble, take0, take2, take3]

/-- Every encoding has the shape of `Laws.EncodeShape`. -/
theorem encodeShape (i : Instr) : Laws.EncodeShape.Statement i := by
  cases i <;> exact ⟨rfl, hOpc_headerWord _ _ _ _⟩

/-- The fetch takes exactly the words of an encoded operation, because its header's opcode gives
their number (R62). -/
theorem nextCommand_encode (i : Instr) (rest : List Word) :
    nextCommand (encode i ++ rest) = some (encode i, rest) := by
  obtain ⟨hlen, hopc⟩ := encodeShape i
  cases henc : encode i with
  | nil => exact absurd (henc ▸ hlen : 0 = 1 + _) (by omega)
  | cons h ops =>
    rw [henc] at hlen hopc
    have hcmd : commandLength h = 1 + i.opcode.format.words := by
      rw [commandLength, show hOpc h = i.opcode.code from hopc, Opcode.ofCode_code]
    exact nextCommand_append rest (hlen.trans hcmd.symm)

/-- Settles O8: the encoding passes the checks of the header, and well-formedness is the last one. -/
theorem decodeOfEncode : Obligations.DecodeOfEncode := by
  intro i rest hwf
  exact ⟨(decode_encode_eq_checkMinor i).trans (if_pos hwf), nextCommand_encode i rest⟩

/-! ## Encoding what was decoded (R61, R66) -/

/-- The header that keeps of `h` what the opcode uses and is zero elsewhere (R61). -/
def usedHeader (o : Opcode) (h : Word) : Word :=
  encodeHeader o ((minor o.mBits h).setWidth 8) (if o.format.usesP then hP h else 0)
    (if o.format.usesA then hA h else 0)

@[simp] theorem minor_zero (h : Word) : minor 0 h = 0 := Subsingleton.elim _ _

@[simp] theorem minor_eight (h : Word) : minor 8 h = hM h := BitVec.setWidth_eq _

/-- No bit of `M` is lost where the bits above the opcode's width are zero. -/
theorem setWidth_minor {k : Nat} {h : Word} (hm : hM h >>> k = 0) :
    (minor k h).setWidth 8 = hM h := by
  have hdiv : (hM h).toNat / 2 ^ k = 0 := by
    simpa [Nat.shiftRight_eq_div_pow] using congrArg BitVec.toNat hm
  have hlt : (hM h).toNat < 2 ^ k := by simpa using hdiv
  apply BitVec.eq_of_toNat_eq
  rw [minor, BitVec.toNat_setWidth, BitVec.toNat_setWidth, Nat.mod_eq_of_lt hlt,
    Nat.mod_eq_of_lt (hM h).isLt]

/-- A header that passes the check of R61 uses all that it holds. -/
theorem usedHeader_eq_self {o : Opcode} {h : Word} (ho : Opcode.ofCode (hOpc h) = some o)
    (hok : headerOk o h = true) : usedHeader o h = h := by
  obtain ⟨ha, hp, hm⟩ := headerOk_iff.mp hok
  have hp' : (if o.format.usesP then hP h else 0) = hP h :=
    ite_eq_left_iff.mpr fun hu => (hp.resolve_left hu).symm
  have ha' : (if o.format.usesA then hA h else 0) = hA h :=
    ite_eq_left_iff.mpr fun hu => (ha.resolve_left hu).symm
  rw [usedHeader, hp', ha', setWidth_minor hm, encodeHeader,
    Opcode.code_of_ofCode ho, headerWord_fields]

theorem take0_eq_ok {ops : List Word} {f i : Instr} (h : take0 ops f = .ok i) :
    ops = [] ∧ i = f := by
  unfold take0 at h
  split at h
  · exact ⟨rfl, (Except.ok.inj h).symm⟩
  · cases h

theorem take1_eq_ok {ops : List Word} {f : Word → Instr} {i : Instr} (h : take1 ops f = .ok i) :
    ∃ w, ops = [w] ∧ i = f w := by
  unfold take1 at h
  split at h
  · exact ⟨_, rfl, (Except.ok.inj h).symm⟩
  · cases h

theorem take2_eq_ok {ops : List Word} {f : Word → Word → Instr} {i : Instr}
    (h : take2 ops f = .ok i) : ∃ w0 w1, ops = [w0, w1] ∧ i = f w0 w1 := by
  unfold take2 at h
  split at h
  · exact ⟨_, _, rfl, (Except.ok.inj h).symm⟩
  · cases h

theorem take3_eq_ok {ops : List Word} {f : Word → Word → Word → Instr} {i : Instr}
    (h : take3 ops f = .ok i) : ∃ w0 w1 w2, ops = [w0, w1, w2] ∧ i = f w0 w1 w2 := by
  unfold take3 at h
  split at h
  · exact ⟨_, _, _, rfl, (Except.ok.inj h).symm⟩
  · cases h

theorem take5_eq_ok {ops : List Word} {f : Word → Word → Word → Word → Word → Instr} {i : Instr}
    (h : take5 ops f = .ok i) :
    ∃ w0 w1 w2 w3 w4, ops = [w0, w1, w2, w3, w4] ∧ i = f w0 w1 w2 w3 w4 := by
  unfold take5 at h
  split at h
  · exact ⟨_, _, _, _, _, rfl, (Except.ok.inj h).symm⟩
  · cases h

theorem take7_eq_ok {ops : List Word}
    {f : Word → Word → Word → Word → Word → Word → Word → Instr} {i : Instr}
    (h : take7 ops f = .ok i) :
    ∃ w0 w1 w2 w3 w4 w5 w6,
      ops = [w0, w1, w2, w3, w4, w5, w6] ∧ i = f w0 w1 w2 w3 w4 w5 w6 := by
  unfold take7 at h
  split at h
  · exact ⟨_, _, _, _, _, _, _, rfl, (Except.ok.inj h).symm⟩
  · cases h

/-- The operation assembled is encoded in as many words as it came from, and its header keeps what the
opcode uses of the header given: the number of operand words decides the first, the opcode the second. -/
theorem encode_of_assemble {o : Opcode} {h : Word} {ops : List Word} {i : Instr}
    (hasm : assemble o h ops = .ok i) :
    (encode i).head? = some (usedHeader o h) ∧ (encode i).length = 1 + ops.length := by
  cases o
  case' fbrst | fbrd | svorg | mitent | mitorg | mitext | tlmrd | tlmsnap | devreg | devunreg
      | devfind | pidclr =>
    obtain ⟨rfl, rfl⟩ := take0_eq_ok hasm
  case' app16 | app32 | svduty | svcur | svbrk | svrpm | svpos =>
    obtain ⟨w, rfl, rfl⟩ := take1_eq_ok hasm
  case' decode | pidcalc =>
    obtain ⟨w0, w1, rfl, rfl⟩ := take2_eq_ok hasm
  case' f2x | x2f | svpsa | pidgain =>
    obtain ⟨w0, w1, w2, rfl, rfl⟩ := take3_eq_ok hasm
  case' mitcmd =>
    obtain ⟨w0, w1, w2, w3, w4, rfl, rfl⟩ := take5_eq_ok hasm
  case' pidinit =>
    obtain ⟨w0, w1, w2, w3, w4, w5, w6, rfl, rfl⟩ := take7_eq_ok hasm
  all_goals
    simp [encode, usedHeader, Opcode.mBits, Opcode.format, Format.usesA, Format.usesP]

/-- Settles O9: the header that the operation's encoding begins with keeps what the opcode uses of
`h`, which is all of `h`. -/
theorem decodedHeaderIsUnique : Obligations.DecodedHeaderIsUnique := by
  intro h ops i hdec
  obtain ⟨o, ho, hok, hasm, hwf⟩ := decode_eq_ok hdec
  obtain ⟨hhead, hlen⟩ := encode_of_assemble hasm
  exact ⟨hwf, usedHeader_eq_self ho hok ▸ hhead, hlen⟩

/-- Settles O5: each command is a legal header with as many operand words as its opcode takes. -/
theorem vectorWordsDecode : Obligations.VectorWordsDecode := by
  exact ⟨rfl, rfl, rfl, rfl, rfl, rfl, rfl⟩

end Sys2Proof

namespace Sys2Proof.Machine

/-! ## The receive port (R60) -/

/-- Settles O12: the checks of R211 come before every operation. -/
theorem receivePortTakesOnlyDecode : Obligations.ReceivePortTakesOnlyDecode :=
  fun _ _ hf hp hi => exec_rx hf hp hi

/-! ## MIT frames (R72, R73) -/

theorem toNat_nibbles (x y : BitVec 4) : (x ++ y : BitVec 8).toNat = 16 * x.toNat + y.toNat := by
  rw [BitVec.toNat_append, ← Nat.shiftLeft_add_eq_or_of_lt y.isLt, Nat.shiftLeft_eq, mul_comm]

/-- Settles O35: every code is split into bytes and nibbles, none of which is lost. -/
theorem mitPackIsConcatenation : Obligations.MitPackIsConcatenation := by
  intro p v kp kd t
  refine ⟨?_, rfl⟩
  simp only [mitPack, List.foldl_cons, List.foldl_nil, toNat_nibbles, BitVec.extractLsb'_toNat,
    Nat.shiftRight_eq_div_pow]
  omega

/-- The eight data bytes of R68, one by one or by index. -/
theorem frameData_eq_ofFn (bytes : List Byte) :
    frameData bytes = Vector.ofFn fun k : Fin 8 => bytes.getD k.val 0 := rfl

/-- An encoder's last act leaves the state that `Claims.sent` names (R46, R68). -/
theorem send_eq_sent (id : Nat) (ext : BitVec 1) (bytes : List Byte) (s : State) :
    send (BitVec.ofNat 29 id) ext bytes s = .next (Claims.sent id ext bytes s) := by
  rw [send_eq, makeFrame, frameData_eq_ofFn]
  rfl

/-- The identifier of an MIT frame is the raw address (R140). -/
theorem mitSend_eq_sent (a : BitVec 8) (bytes : List Byte) (s : State) :
    mitSend a bytes s = .next (Claims.sent a.toNat 0 bytes s) := by
  rw [mitSend, ← BitVec.ofNat_toNat, send_eq_sent]

/-- Settles O33: on a ready block the checks let each operation through to its `Send`. -/
theorem mitSentinelFrames : Obligations.MitSentinelFrames := by
  intro s a hs
  have hsends (last : Byte) : accept false s (mitSend a (sentinel last) s) =
      .next (Claims.sent a.toNat 0 (sentinel last) s) :=
    (accept_ready false _ hs.1 hs.2).trans (mitSend_eq_sent a _ s)
  exact ⟨hsends 0xFC, hsends 0xFE, hsends 0xFD⟩

end Sys2Proof.Machine
end

section
/-! PROOFS. The codec and the serialiser (40_codec.md): the checks of `F2X` and `X2F`, the fixed-point
code at the ends of a range and between them, the float of the smallest and the largest code, and the
appends and reads of the frame buffer. -/

namespace Sys2Proof.Machine

/-! ## The checks before a conversion (R100, R102, R104) -/

theorem widthOk_iff {n : BitVec 8} : widthOk n = true ↔ 1 ≤ n.toNat ∧ n.toNat ≤ 16 := by
  simp [widthOk]

theorem withRange_illegalWidth {n : BitVec 8} (lo hi : F) (s : State) (body : Result)
    (hn : n.toNat = 0 ∨ 16 < n.toNat) :
    withRange n lo hi s body = .next (Claims.raised 4 s) := by
  have hw : widthOk n = false := by
    rw [← Bool.not_eq_true, widthOk_iff]
    omega
  exact if_pos hw

section
variable {n : BitVec 8} {lo hi : F} (h1 : 1 ≤ n.toNat) (h16 : n.toNat ≤ 16)
include h1 h16

theorem withRange_illegalRange (s : State) (body : Result) (hr : ¬Claims.RangeLegal lo hi) :
    withRange n lo hi s body = .next (Claims.raised 2 s) := by
  have hw : widthOk n = true := widthOk_iff.2 ⟨h1, h16⟩
  have hbad : rangeOk lo hi = false := by rwa [← Bool.not_eq_true, rangeOk_iff]
  rw [withRange, if_neg (by simp [hw]), if_pos hbad]
  rfl

theorem withRange_legal (s : State) (body : Result) (hr : Claims.RangeLegal lo hi) :
    withRange n lo hi s body = body := by
  have hw : widthOk n = true := widthOk_iff.2 ⟨h1, h16⟩
  have hok : rangeOk lo hi = true := rangeOk_iff.2 hr
  rw [withRange, if_neg (by simp [hw]), if_neg (by simp [hok])]

end

/-- `M` of R101 as an integer. -/
theorem cast_two_pow_sub_one (n : Nat) : ((2 ^ n - 1 : Nat) : Int) = 2 ^ n - 1 := by
  rw [Nat.cast_pred (Nat.two_pow_pos n), Nat.cast_pow, Nat.cast_ofNat]

/-! ## The code at the ends of a range and between them (R101, R105) -/

/-- The magnitude of 1.0. -/
theorem magUnits_one : magUnits 0x3F800000 = 2 ^ 149 :=
  (magUnits_shift (sh := 126) (q := 2 ^ 23) (.inr le_rfl) (by decide)).trans (pow_add 2 23 126).symm

theorem codeOf_zero {S : Nat} (n : Nat) (hS : 0 < S) : codeOf S n 0 = 0 := by
  have h0 : magUnits 0 = 0 := rfl
  rw [codeOf, h0, Nat.zero_mul, roundMag_zero (magUnits_pos hS), h0, Nat.zero_mul,
    roundMag_zero (Nat.two_pow_pos 149), h0, Nat.zero_div]

/-- The whole span has the largest code: the quotient is 1.0, and `M` is a float (R101). -/
theorem codeOf_span {S n : Nat} (hS : 0 < S) (h1 : 1 ≤ n) (h16 : n ≤ 16) :
    codeOf S n S = 2 ^ n - 1 := by
  obtain ⟨hexact, hfin, -⟩ := ofInt_maxCode_exact n h1 h16
  rw [codeOf, roundMag_div_self hS, magUnits_one, ← hexact, Nat.mul_comm,
    roundMag_exact (Nat.two_pow_pos 149) hfin.le, hexact, Nat.mul_div_cancel _ (Nat.two_pow_pos 149)]

/-- `clampR` of a value that is not NaN is the nearest value within the range (R11). -/
theorem clampR_key {v lo hi : F} (hv : isNaN v = false) (L : LegalRange lo hi) :
    orderKey (clampR v lo hi) = max (orderKey lo) (min (orderKey v) (orderKey hi)) := by
  have nl := (not_nan_of_finite L.finite_lo).1
  have nh := (not_nan_of_finite L.finite_hi).1
  have hlt : orderKey lo < orderKey hi := signedUnits_lt_iff.1 L.lt
  have hbelow := flt_iff hv nl
  have habove := flt_iff nh hv
  unfold clampR fgt
  split
  next h =>
    have := hbelow.1 h
    omega
  next h =>
    have := mt hbelow.2 h
    split
    next h' =>
      have := habove.1 h'
      omega
    next h' =>
      have := mt habove.2 h'
      omega

section
variable {lo hi : F} {n : Nat} (L : LegalRange lo hi) (h1 : 1 ≤ n) (h16 : n ≤ 16)
include L h1 h16

/-- The code keeps the order of the clamped values: every step of R101 does. -/
theorem f2x_mono {v w : F} (hv : isNaN v = false) (hw : isNaN w = false)
    (h : orderKey (clampR v lo hi) ≤ orderKey (clampR w lo hi)) :
    f2x v lo hi n ≤ f2x w lo hi n := by
  have hunits := signedUnits_le_iff.2 h
  rw [(f2x_eq hv L h1 h16).1, (f2x_eq hw L h1 h16).1]
  exact codeOf_mono L.span_pos (roundMag_mono one_pos one_pos (by omega))

theorem f2x_congr {v w : F} (hv : isNaN v = false) (hw : isNaN w = false)
    (h : orderKey (clampR v lo hi) = orderKey (clampR w lo hi)) :
    f2x v lo hi n = f2x w lo hi n :=
  le_antisymm (f2x_mono L h1 h16 hv hw h.le) (f2x_mono L h1 h16 hw hv h.ge)

theorem f2x_lo : f2x lo lo hi n = 0 := by
  have nl := (not_nan_of_finite L.finite_lo).1
  have hlt : orderKey lo < orderKey hi := signedUnits_lt_iff.1 L.lt
  have hc : signedUnits (clampR lo lo hi) ≤ signedUnits lo :=
    signedUnits_le_iff.2 (by rw [clampR_key nl L]; omega)
  rw [(f2x_eq nl L h1 h16).1, Int.toNat_of_nonpos (by omega), roundMag_zero one_pos,
    codeOf_zero n L.span_pos]

theorem f2x_hi : f2x hi lo hi n = 2 ^ n - 1 := by
  have nh := (not_nan_of_finite L.finite_hi).1
  have hlt : orderKey lo < orderKey hi := signedUnits_lt_iff.1 L.lt
  have hkey : orderKey (clampR hi lo hi) = orderKey hi := by rw [clampR_key nh L]; omega
  have hc : signedUnits (clampR hi lo hi) = signedUnits hi :=
    le_antisymm (signedUnits_le_iff.2 hkey.le) (signedUnits_le_iff.2 hkey.ge)
  rw [(f2x_eq nh L h1 h16).1, hc, ← L.span_mag, codeOf_span L.span_pos h1 h16]

/-- No code is above `M` (R101, R111 (a)). -/
theorem f2x_le {v : F} (hv : isNaN v = false) : f2x v lo hi n ≤ 2 ^ n - 1 := by
  have nh := (not_nan_of_finite L.finite_hi).1
  rw [← f2x_hi L h1 h16]
  exact f2x_mono L h1 h16 hv nh (by rw [clampR_key hv L, clampR_key nh L]; omega)

end

/-- Settles O20: at `lo` the distance from `lo` is zero, at `hi` it is the span. -/
theorem f2xEndpointsExact : Obligations.F2xEndpointsExact := by
  intro lo hi n hr h1 h16
  have L := legalRange_of (rangeOk_iff.2 hr)
  exact ⟨f2x_lo L h1 h16, f2x_hi L h1 h16⟩

/-- Settles O21: all three clauses compare the clamped values. -/
theorem f2xClampsAndIsMonotonic : Obligations.F2xClampsAndIsMonotonic := by
  intro lo hi v w n hr h1 h16 hv hw
  have L := legalRange_of (rangeOk_iff.2 hr)
  have nl := (not_nan_of_finite L.finite_lo).1
  have nh := (not_nan_of_finite L.finite_hi).1
  refine ⟨fun h => f2x_congr L h1 h16 hv nh ?_, fun h => f2x_congr L h1 h16 hv nl ?_,
    fun h => f2x_mono L h1 h16 hv hw ?_⟩
  · rw [fge_iff hv nh] at h
    rw [clampR_key hv L, clampR_key nh L]
    omega
  · rw [fge_iff nl hv] at h
    rw [clampR_key hv L, clampR_key nl L]
    omega
  · rw [fge_iff hw hv] at h
    rw [clampR_key hv L, clampR_key hw L]
    omega

/-- Settles O18: the checks in order; the code fits the result word, so it is not cut. -/
theorem f2xResult : Obligations.F2xResult := by
  intro s n v lo hi hs
  have hexec : exec (.f2x n v lo hi) s = withRange n lo hi s
      (if isNaN v then .refused .nanOperand
        else .next (s.respond { r0 := BitVec.ofNat 32 (f2x v lo hi n.toNat) })) :=
    accept_ready false _ hs.1 hs.2
  refine ⟨fun hn => hexec.trans (withRange_illegalWidth lo hi s _ hn),
    fun h1 h16 hr => hexec.trans (withRange_illegalRange h1 h16 s _ hr),
    fun h1 h16 hr hv => hexec.trans ((withRange_legal h1 h16 s _ hr).trans (if_pos hv)),
    fun h1 h16 hr hv => ?_⟩
  have hok := rangeOk_iff.2 hr
  have hle := f2x_le (legalRange_of hok) h1 h16 hv
  have hnonneg := (f2x_eq hv (legalRange_of hok) h1 h16).2
  have hpow : 2 ^ n.toNat ≤ 2 ^ 16 := Nat.pow_le_pow_right two_pos h16
  have hword : (BitVec.ofNat 32 (f2x v lo hi n.toNat)).toNat = f2x v lo hi n.toNat :=
    Nat.mod_eq_of_lt (by omega)
  refine ⟨_, hexec.trans ((withRange_legal h1 h16 s _ hr).trans (if_neg (by simp [hv]))), ?_, ?_⟩
  · rw [hword, f2x_of_rangeOk hok, Int.toNat_of_nonneg hnonneg, cast_two_pow_sub_one]
  · rwa [hword]

/-- Settles O19: the checks in order, then R103's formula. -/
theorem x2fResult : Obligations.X2fResult := by
  intro s n code lo hi hs
  have hexec : exec (.x2f n code lo hi) s = withRange n lo hi s
      (.next (s.respond { r0 := x2f (codeBits code n.toNat) lo hi n.toNat })) :=
    accept_ready false _ hs.1 hs.2
  refine ⟨fun hn => hexec.trans (withRange_illegalWidth lo hi s _ hn),
    fun h1 h16 hr => hexec.trans (withRange_illegalRange h1 h16 s _ hr), fun h1 h16 hr => ?_⟩
  rw [hexec, withRange_legal h1 h16 s _ hr, x2f_of_rangeOk (rangeOk_iff.2 hr), cast_two_pow_sub_one]
  rfl

/-! ## Float operations whose exact result is a float -/

theorem natAbs_signedUnits (x : F) : (signedUnits x).natAbs = magUnits (fmag x) := by
  rw [signedUnits, scaled_eq_magUnits]
  split <;> simp

/-- A nonzero float is what its own exact value rounds to. -/
theorem ofSignMag_signedUnits {x : F} (hx : isFinite x = true) (h0 : signedUnits x ≠ 0) :
    ofSignMag (decide (signedUnits x < 0)) (roundMag (signedUnits x).natAbs 1) = x := by
  have hsign : decide (signedUnits x < 0) = fsign x := by
    unfold signedUnits at h0 ⊢
    cases hs : fsign x <;> simp [hs] at h0 ⊢
    omega
  have hmag : fmag x ≤ infMag := le_of_lt (by simpa [isFinite] using hx)
  have hround : roundMag (signedUnits x).natAbs 1 = fmag x := by
    rw [natAbs_signedUnits, ← Nat.mul_one (magUnits _), roundMag_exact one_pos hmag]
  rw [hsign, hround]
  exact eq_of_sign_mag (fsign_ofSignMag (fmag_lt x)) (fmag_ofSignMag (fmag_lt x))

/-- A sum that is a nonzero float is that float. -/
theorem fadd_eq_of_signedUnits {a b c : F} (ha : isFinite a = true) (hb : isFinite b = true)
    (hc : isFinite c = true) (h0 : signedUnits c ≠ 0)
    (h : signedUnits a + signedUnits b = signedUnits c) : fadd a b = c := by
  rw [fadd, (not_nan_of_finite ha).1, (not_nan_of_finite hb).1, Bool.or_self,
    if_neg Bool.false_ne_true, sumOf_finite ha hb, h, if_neg h0, ofSignMag_signedUnits hc h0]

theorem zero_fdiv {b : F} (hb : isFinite b = true) (hs : fsign b = false) (h0 : fmag b ≠ 0) :
    fdiv 0 b = 0 := by
  have hz : fmag 0 = 0 := rfl
  rw [fdiv_finite (by decide) hb h0, hz, show magUnits 0 = 0 from rfl, Nat.zero_mul,
    roundMag_zero (magUnits_pos (Nat.pos_of_ne_zero h0)), hs]
  rfl

theorem zero_fmul {b : F} (hb : isFinite b = true) (hs : fsign b = false) : fmul 0 b = 0 := by
  have hz : fmag 0 = 0 := rfl
  rw [fmul_finite (by decide) hb, hz, show magUnits 0 = 0 from rfl, Nat.zero_mul,
    roundMag_zero (Nat.two_pow_pos 149), hs]
  rfl

theorem fdiv_self {a : F} (ha : isFinite a = true) (h0 : fmag a ≠ 0) : fdiv a a = c1 := by
  rw [fdiv_finite ha ha h0, roundMag_div_self (Nat.pos_of_ne_zero h0), bne_self_eq_false]
  rfl

theorem one_fmul {a : F} (ha : isFinite a = true) : fmul c1 a = a := by
  have hmag : fmag a ≤ infMag := le_of_lt (by simpa [isFinite] using ha)
  rw [fmul_finite (by decide) ha, show fmag c1 = 0x3F800000 from rfl, magUnits_one, Nat.mul_comm,
    roundMag_exact (Nat.two_pow_pos 149) hmag, show fsign c1 = false from rfl, Bool.false_bne]
  exact eq_of_sign_mag (fsign_ofSignMag (fmag_lt a)) (fmag_ofSignMag (fmag_lt a))

/-! ## The float of the smallest and of the largest code (R103) -/

/-- Twice the value of a magnitude is the value of a magnitude: a subnormal significand doubles, any
other float has the next exponent. -/
theorem exists_magUnits_double (m : Nat) : ∃ k, magUnits k = 2 * magUnits m := by
  rcases Nat.lt_or_ge m (2 ^ 23) with h | h
  · have hm := magUnits_shift (sh := 0) (q := m) (.inl rfl) (by omega)
    have hk := magUnits_shift (sh := 0) (q := 2 * m) (.inl rfl) (by omega)
    rw [Nat.zero_mul, Nat.zero_add, pow_zero, Nat.mul_one] at hm hk
    exact ⟨2 * m, by rw [hm, hk]⟩
  · obtain ⟨sh, q, rfl, hq, hq'⟩ : ∃ sh q, m = sh * 2 ^ 23 + q ∧ 2 ^ 23 ≤ q ∧ q ≤ 2 ^ 24 :=
      ⟨m / 2 ^ 23 - 1, m % 2 ^ 23 + 2 ^ 23, by omega, by omega, by omega⟩
    refine ⟨(sh + 1) * 2 ^ 23 + q, ?_⟩
    rw [magUnits_shift (.inr hq) hq', magUnits_shift (.inr hq) hq', pow_succ]
    ring

/-- Rounding is exact on the value of a magnitude, unless it answers infinity. -/
theorem magUnits_roundMag {k : Nat} (h : roundMag (magUnits k) 1 < infMag) :
    magUnits (roundMag (magUnits k) 1) = magUnits k := by
  have hexact {j : Nat} (hj : j ≤ infMag) : roundMag (magUnits j) 1 = j := by
    rw [← Nat.mul_one (magUnits j), roundMag_exact one_pos hj]
  have hk : k ≤ infMag := by
    by_contra hbig
    have hmono : roundMag (magUnits infMag) 1 ≤ roundMag (magUnits k) 1 :=
      roundMag_mono one_pos one_pos
        (Nat.mul_le_mul_right 1 (magUnits_strictMono.monotone (by omega)))
    rw [hexact le_rfl] at hmono
    omega
  rw [hexact hk]

/-- The span of a symmetric range is exact: `hi (-) (-hi)` is twice `hi`. -/
theorem signedUnits_span {hi : F} (L : LegalRange (fneg hi) hi) :
    signedUnits (fsub hi (fneg hi)) = 2 * signedUnits hi := by
  have hlt := L.lt
  rw [signedUnits_fneg] at hlt
  obtain ⟨k, hk⟩ := exists_magUnits_double (fmag hi)
  have hunits := natAbs_signedUnits hi
  have hmag : fmag (fsub hi (fneg hi)) = roundMag (magUnits k) 1 := by
    rw [L.span_mag, signedUnits_fneg, hk]
    congr 1
    omega
  have hfin : roundMag (magUnits k) 1 < infMag := by
    simpa [isFinite, hmag] using L.finite_span
  rw [signedUnits, L.span_sign, if_neg Bool.false_ne_true, scaled_eq_magUnits, hmag,
    magUnits_roundMag hfin, hk]
  omega

/-- `F(M)` is a finite positive float. -/
theorem ofInt_maxCode_pos {n : Nat} (h1 : 1 ≤ n) (h16 : n ≤ 16) :
    isFinite (ofInt (2 ^ n - 1 : Nat)) = true ∧ fsign (ofInt (2 ^ n - 1 : Nat)) = false ∧
      fmag (ofInt (2 ^ n - 1 : Nat)) ≠ 0 := by
  obtain ⟨hmag, hsign⟩ := ofInt_natCast (2 ^ n - 1)
  obtain ⟨-, hfin, hpos⟩ := ofInt_maxCode_exact n h1 h16
  refine ⟨?_, hsign, by omega⟩
  rw [isFinite, hmag]
  exact decide_eq_true hfin

section
variable {lo hi : F} {n : Nat} (L : LegalRange lo hi) (h1 : 1 ≤ n) (h16 : n ≤ 16)
include L h1 h16

/-- Code 0 is `lo`, with `+0.0` added to it. -/
theorem x2f_zero : x2f 0 lo hi n = fadd lo 0 := by
  obtain ⟨hfin, hsign, hpos⟩ := ofInt_maxCode_pos h1 h16
  rw [x2f_of_rangeOk L.ok, show ofInt (0 : Nat) = 0 by decide, zero_fdiv hfin hsign hpos,
    zero_fmul L.finite_span L.span_sign]

/-- The largest code is `lo` with the span added to it. -/
theorem x2f_maxCode : x2f (2 ^ n - 1) lo hi n = fadd lo (fsub hi lo) := by
  obtain ⟨hfin, -, hpos⟩ := ofInt_maxCode_pos h1 h16
  rw [x2f_of_rangeOk L.ok, fdiv_self hfin hpos, one_fmul L.finite_span]

end

/-- Settles O22: neither sum is rounded, since the span of a symmetric range is exact. -/
theorem x2fEndpointsOfSymmetricRange : Obligations.X2fEndpointsOfSymmetricRange := by
  intro hi n hr h1 h16
  have L := legalRange_of (rangeOk_iff.2 hr)
  have hlt := L.lt
  have hneg := signedUnits_fneg hi
  have hspan := signedUnits_span L
  constructor
  · rw [x2f_zero L h1 h16]
    exact fadd_eq_of_signedUnits L.finite_lo (by decide) L.finite_lo (by omega)
      (by rw [show signedUnits 0 = 0 from rfl, add_zero])
  · rw [x2f_maxCode L h1 h16]
    exact fadd_eq_of_signedUnits L.finite_lo L.finite_span L.finite_hi (by omega) (by omega)

/-! ## The frame buffer (R41, R42, R106 to R109) -/

/-- The byte at a bit position of an operand, as R42 reads it. -/
theorem extractLsb'_eq_ofNat {w : Nat} (v : BitVec w) (k : Nat) :
    v.extractLsb' k 8 = BitVec.ofNat 8 (v.toNat / 2 ^ k) := by
  rw [← Nat.shiftRight_eq_div_pow]
  rfl

/-- All that an append with room for its bytes does: the bytes in order from the cursor, the cursor
behind them, one response, and nothing else. -/
theorem fbWrite_appends {s : State} {bytes : List Byte} (hwf : s.fb.wf = true)
    (hfit : s.cur.toNat + bytes.length ≤ 8) :
    ∃ t, fbWrite bytes s = .next t ∧ t.cur.toNat = s.cur.toNat + bytes.length ∧
      (∀ k b, bytes[k]? = some b → t.fbByte (s.cur.toNat + k) = b) ∧
      (∀ i, i < s.cur.toNat ∨ s.cur.toNat + bytes.length ≤ i → t.fbByte i = s.fbByte i) ∧
      t = { Claims.answered {} s with fb := t.fb, cur := t.cur } := by
  refine ⟨_, fbWrite_eq bytes hfit, cur_advance hfit, fun k b hb => ?_,
    fun i hi => Memory.read_writeBytes_out s.fb bytes hi, rfl⟩
  obtain ⟨hk, rfl⟩ := List.getElem?_eq_some_iff.1 hb
  exact Memory.read_writeBytes_in bytes hwf hfit hk

/-- Settles O23: `APP16` appends the two bytes of `ser16`. -/
theorem app16Result : Obligations.App16Result := by
  intro s v hs hwf
  have hexec : exec (.app16 v) s =
      if 8 < s.cur.toNat + 2 then .refused .fbOverrun else fbWrite (ser16 v) s :=
    accept_ready false _ hs.1 hs.2
  refine ⟨fun hover => hexec.trans (if_pos hover), fun hfit => ?_⟩
  obtain ⟨t, ht, hcur, hbyte, hrest, hframe⟩ := fbWrite_appends (bytes := ser16 v) hwf hfit
  refine ⟨t, hexec.trans ((if_neg (by omega)).trans ht), hcur, ?_, ?_, hrest, hframe⟩
  · exact (hbyte 0 _ rfl).trans (extractLsb'_eq_ofNat v 8)
  · exact hbyte 1 _ rfl

/-- Settles O24: `APP32` appends the four bytes of `ser32`. -/
theorem app32Result : Obligations.App32Result := by
  intro s v hs hwf
  have hexec : exec (.app32 v) s =
      if 8 < s.cur.toNat + 4 then .refused .fbOverrun else fbWrite (ser32 v) s :=
    accept_ready false _ hs.1 hs.2
  refine ⟨fun hover => hexec.trans (if_pos hover), fun hfit => ?_⟩
  obtain ⟨t, ht, hcur, hbyte, hrest, hframe⟩ := fbWrite_appends (bytes := ser32 v) hwf hfit
  refine ⟨t, hexec.trans ((if_neg (by omega)).trans ht), hcur, ?_, ?_, ?_, ?_, hrest, hframe⟩
  · exact (hbyte 0 _ rfl).trans (extractLsb'_eq_ofNat v 24)
  · exact (hbyte 1 _ rfl).trans (extractLsb'_eq_ofNat v 16)
  · exact (hbyte 2 _ rfl).trans (extractLsb'_eq_ofNat v 8)
  · exact hbyte 3 _ rfl

/-- Settles O25: the buffer without a listed byte reads 0 everywhere. -/
theorem fbrstResult : Obligations.FbrstResult :=
  fun _ hs => ⟨_, exec_fbrst hs, fun _ _ => rfl, rfl, rfl⟩

/-- Four bytes packed, as a number: laid out as the fields of a header word are. -/
theorem toNat_packWord (b0 b1 b2 b3 : Byte) : (packWord b0 b1 b2 b3).toNat =
    b0.toNat * 2 ^ 24 + b1.toNat * 2 ^ 16 + b2.toNat * 2 ^ 8 + b3.toNat :=
  toNat_headerWord b0 b1 b2 b3

/-- Settles O26: the two words are the packed bytes, the third the cursor. -/
theorem fbrdResult : Obligations.FbrdResult := fun s hs =>
  ⟨_, _, _, exec_fbrd hs rfl rfl rfl, toNat_packWord _ _ _ _, toNat_packWord _ _ _ _,
    BitVec.toNat_setWidth_of_le (by decide)⟩

end Sys2Proof.Machine
end

section
/-! PROOFS. The servo encoder (41_servo.md): the frames its operations send, the bounds of their
payload integers, and what the servo and the MIT encoders read and write of the block. -/

namespace Sys2Proof.Machine

/-! ## The frame of an operation (R69, R70, R120) -/

/-- The address and the kind do not overlap in the identifier (R70). -/
theorem servoId_eq_ofNat (a : BitVec 8) (kind : Nat) :
    servoId a kind = BitVec.ofNat 29 (a.toNat + 256 * kind) := by
  have hshift : kind * 2 ^ 8 % 2 ^ 29 = (kind % 2 ^ 21) <<< 8 := by
    rw [Nat.shiftLeft_eq]
    omega
  apply BitVec.eq_of_toNat_eq
  rw [servoId, BitVec.toNat_or, BitVec.toNat_setWidth_of_le (by decide), BitVec.toNat_shiftLeft,
    BitVec.toNat_ofNat, BitVec.toNat_ofNat, Nat.shiftLeft_eq, Nat.mod_mul_mod, hshift, Nat.or_comm,
    ← Nat.shiftLeft_add_eq_or_of_lt a.isLt, ← hshift]
  omega

theorem servoSend_eq_sent (a : BitVec 8) (kind : Nat) (bytes : List Byte) (s : State) :
    servoSend a kind bytes s = .next (Claims.sent (a.toNat + 256 * kind) 1 bytes s) := by
  rw [servoSend, servoId_eq_ofNat, send_eq_sent]

section
variable {s : State} (hs : Ready s)
include hs

/-- On a ready block a float operation refuses a NaN (R122). -/
theorem servoFloat_nan {x : F} (hx : isNaN x = true) (body : Result) :
    servoFloat x s body = .refused .nanOperand :=
  (accept_ready false _ hs.1 hs.2).trans (if_pos hx)

/-- On a ready block a float operation goes on with any other value. -/
theorem servoFloat_number {x : F} (hx : isNaN x = false) (body : Result) :
    servoFloat x s body = body :=
  (accept_ready false _ hs.1 hs.2).trans (if_neg (by simp [hx]))

end

/-- Settles O29: `mode` is read by the check only. -/
theorem svorgSendsNoMode : Obligations.SvorgSendsNoMode := by
  intro s a mode hs
  have hexec : exec (.svorg a mode) s =
      if mode = 3 then raise .illegalCommand s else servoSend a 5 [] s :=
    accept_ready false _ hs.1 hs.2
  exact ⟨fun h => hexec.trans (if_pos h),
    fun h => hexec.trans ((if_neg h).trans (servoSend_eq_sent a 5 [] s))⟩

/-! ## The constants of R7 as integers -/

theorem c1_eq_ofInt : c1 = ofInt 1 := by decide
theorem c1e3_eq_ofInt : c1e3 = ofInt 1000 := by decide
theorem c1e4_eq_ofInt : c1e4 = ofInt 10000 := by decide
theorem c1e5_eq_ofInt : c1e5 = ofInt 100000 := by decide
theorem c36000_eq_ofInt : c36000 = ofInt 36000 := by decide
theorem c60000_eq_ofInt : c60000 = ofInt 60000 := by decide
theorem c100000_eq_ofInt : c100000 = ofInt 100000 := by decide

/-- The sign of `ofInt` is that of the integer; zero has no negation of its own. -/
theorem fneg_ofInt {k : Int} (hk : 0 < k) : fneg (ofInt k) = ofInt (-k) := by
  apply eq_of_sign_mag
  · rw [fsign_fneg, ofInt, ofInt, fsign_ofSignMag (roundMag_lt _ _),
      fsign_ofSignMag (roundMag_lt _ _), ← decide_not]
    exact decide_eq_decide.2 (by omega)
  · rw [fmag_fneg, ofInt, ofInt, fmag_ofSignMag (roundMag_lt _ _), fmag_ofSignMag (roundMag_lt _ _),
      Int.natAbs_neg]

theorem servoScaled_ofInt (x : F) {limit : Int} (scale : Int) (hl : 0 < limit) :
    servoScaled x (ofInt limit) (ofInt scale) = BitVec.ofInt 32
      (trunc (fmul (clampR x (ofInt (-limit)) (ofInt limit)) (ofInt scale))) := by
  rw [servoScaled, fneg_ofInt hl]

theorem servoUnscaled_ofInt (x : F) {limit : Int} (hl : 0 < limit) :
    servoUnscaled x (ofInt limit) = BitVec.ofInt 32
      (trunc (clampR x (ofInt (-limit)) (ofInt limit))) := by
  rw [servoUnscaled, fneg_ofInt hl]

/-! ## The float commands (R123 to R127, R129) -/

/-- The position integer of `SVPOS` and `SVPSA` (R127, R129). -/
theorem servoScaled_position (x : F) : servoScaled x c36000 c1e4 = BitVec.ofInt 32
    (trunc (fmul (clampR x (ofInt (-36000)) (ofInt 36000)) (ofInt 10000))) := by
  rw [c36000_eq_ofInt, c1e4_eq_ofInt, servoScaled_ofInt x _ (by decide)]

/-- The current integer of `SVCUR` and `SVBRK` (R124, R125). -/
theorem servoScaled_current (x : F) : servoScaled x c60000 c1e3 = BitVec.ofInt 32
    (trunc (fmul (clampR x (ofInt (-60000)) (ofInt 60000)) (ofInt 1000))) := by
  rw [c60000_eq_ofInt, c1e3_eq_ofInt, servoScaled_ofInt x _ (by decide)]

/-- The duty integer of `SVDUTY` (R123). -/
theorem servoScaled_duty (x : F) : servoScaled x c1 c1e5 = BitVec.ofInt 32
    (trunc (fmul (clampR x (ofInt (-1)) (ofInt 1)) (ofInt 100000))) := by
  rw [c1_eq_ofInt, c1e5_eq_ofInt, servoScaled_ofInt x _ (by decide)]

/-- The velocity integer of `SVRPM` (R126). -/
theorem servoUnscaled_velocity (x : F) : servoUnscaled x c100000 = BitVec.ofInt 32
    (trunc (clampR x (ofInt (-100000)) (ofInt 100000))) := by
  rw [c100000_eq_ofInt, servoUnscaled_ofInt x (by decide)]

/-- On a ready block a float command with a value that is not NaN sends its integer's four bytes. -/
theorem servoFloat_sends {s : State} (hs : Ready s) {x : F} (hx : isNaN x = false) (a : BitVec 8)
    (kind : Nat) {v w : BitVec 32} (hv : v = w) :
    servoFloat x s (servoSend a kind (ser32 v) s) =
      .next (Claims.sent (a.toNat + 256 * kind) 1 (ser32 w) s) := by
  rw [servoFloat_number hs hx, servoSend_eq_sent, hv]

/-- Settles O28: kind, limit and scale of each command. -/
theorem servoFloatCommandsSendFrames : Obligations.ServoFloatCommandsSendFrames := by
  intro s a x hs
  refine ⟨fun hx => ?_, fun hx => ?_⟩
  · exact ⟨servoFloat_nan hs hx _, servoFloat_nan hs hx _, servoFloat_nan hs hx _,
      servoFloat_nan hs hx _, servoFloat_nan hs hx _⟩
  · exact ⟨servoFloat_sends hs hx a 0 (servoScaled_duty x),
      servoFloat_sends hs hx a 1 (servoScaled_current x),
      servoFloat_sends hs hx a 2 (servoScaled_current x),
      servoFloat_sends hs hx a 3 (servoUnscaled_velocity x),
      servoFloat_sends hs hx a 4 (servoScaled_position x)⟩

/-- The acceleration bounded from above fits 16 bits, where it is not below them (R129). -/
theorem toInt_clampAcc {acc : BitVec 32} (h : -32768 ≤ acc.toInt) :
    (clampAcc acc).toInt = min acc.toInt 32767 :=
  BitVec.toInt_ofInt_eq_self (by decide) (by omega) (by omega)

/-- Settles O30: NaN is refused first, then the acceleration. -/
theorem svpsaResult : Obligations.SvpsaResult := by
  intro s a x spd acc hs
  have hexec (hx : isNaN x = false) : exec (.svpsa a x spd acc) s =
      if acc.toInt < -32768 then .refused .accBelowInt16
      else servoSend a 6
        (ser32 (servoScaled x c36000 c1e4) ++ ser16 spd ++ ser16 (clampAcc acc)) s :=
    servoFloat_number hs hx _
  refine ⟨fun hx => servoFloat_nan hs hx _, fun hx hacc => (hexec hx).trans (if_pos hacc),
    fun hx hacc => ⟨clampAcc acc, toInt_clampAcc hacc, ?_⟩⟩
  rw [hexec hx, if_neg (by omega), servoSend_eq_sent, servoScaled_position]

/-! ## Payload integers at and within the bounds (R11, R122) -/

theorem natAbs_orderKey (x : F) : (orderKey x).natAbs = fmag x := by
  unfold orderKey
  split <;> simp

/-- The key shows the sign of every value but the zeros. -/
theorem fsign_eq_of_orderKey {x : F} (h0 : orderKey x ≠ 0) : fsign x = decide (orderKey x < 0) := by
  unfold orderKey at h0 ⊢
  cases hx : fsign x with
  | false => exact (decide_eq_false (Int.natCast_nonneg _).not_gt).symm
  | true =>
    rw [hx, if_pos rfl] at h0
    exact (decide_eq_true (by rw [if_pos rfl]; omega)).symm

/-- Only the two zeros share a key. -/
theorem eq_of_orderKey {x y : F} (h : orderKey x = orderKey y) (h0 : orderKey y ≠ 0) : x = y := by
  apply eq_of_sign_mag
  · rw [fsign_eq_of_orderKey (h ▸ h0), h, ← fsign_eq_of_orderKey h0]
  · rw [← natAbs_orderKey, h, natAbs_orderKey]

section
variable {x lo hi : F} (hr : flt lo hi = true)
include hr

/-- At or above the upper bound of a range `clampR` answers the bound. -/
theorem clampR_eq_upper (h : fge x hi = true) (h0 : orderKey hi ≠ 0) : clampR x lo hi = hi := by
  obtain ⟨nx, nh, hle⟩ := fge_eq_true.1 h
  obtain ⟨-, hinside, habove, -⟩ := clampR_spec x hr
  rcases hle.lt_or_eq with hlt | heq
  · exact habove (flt_eq_true.2 ⟨nh, nx, hlt⟩)
  · obtain rfl := eq_of_orderKey heq.symm h0
    exact hinside (fge_of_flt hr) h

/-- At or below the lower bound it answers that one. -/
theorem clampR_eq_lower (h : fge lo x = true) (h0 : orderKey lo ≠ 0) : clampR x lo hi = lo := by
  obtain ⟨nl, nx, hle⟩ := fge_eq_true.1 h
  obtain ⟨hbelow, hinside, -, -⟩ := clampR_spec x hr
  rcases hle.lt_or_eq with hlt | heq
  · exact hbelow (flt_eq_true.2 ⟨nx, nl, hlt⟩)
  · obtain rfl := eq_of_orderKey heq h0
    exact hinside h (fge_of_flt hr)

end

/-- A value clamped to `±limit` is not larger than the limit in magnitude. -/
theorem fmag_clampR_le {x limit : F} (hx : isNaN x = false) (hl : isNaN limit = false) :
    fmag (clampR x (fneg limit) limit) ≤ fmag limit := by
  have nneg : isNaN (fneg limit) = false := by rwa [isNaN_fneg]
  unfold clampR
  split
  case isTrue => exact (fmag_fneg limit).le
  case isFalse hlow =>
    split
    case isTrue => exact le_rfl
    case isFalse hhigh =>
      rw [flt_iff hx nneg, orderKey_fneg] at hlow
      rw [fgt, flt_iff hl hx] at hhigh
      rw [← natAbs_orderKey, ← natAbs_orderKey]
      omega

theorem isFinite_of_fmag_le {x y : F} (h : fmag x ≤ fmag y) (hy : isFinite y = true) :
    isFinite x = true := by
  simp only [isFinite, decide_eq_true_eq] at hy ⊢
  omega

/-- A product with the smaller factor is not larger in magnitude. -/
theorem fmag_fmul_le {x y z : F} (h : fmag x ≤ fmag y) (hy : isFinite y = true)
    (hz : isFinite z = true) : fmag (fmul x z) ≤ fmag (fmul y z) := by
  rw [fmul_finite (isFinite_of_fmag_le h hy) hz, fmul_finite hy hz,
    fmag_ofSignMag (roundMag_lt _ _), fmag_ofSignMag (roundMag_lt _ _)]
  exact roundMag_mono (by positivity) (by positivity)
    (Nat.mul_le_mul_right _ (Nat.mul_le_mul_right _ (magUnits_strictMono.monotone h)))

theorem abs_trunc {x : F} (hx : isFinite x = true) :
    |trunc x| = ((magUnits (fmag x) / 2 ^ 149 : Nat) : Int) := by
  rw [trunc_eq hx]
  split
  · rw [abs_neg, Nat.abs_cast]
  · rw [Nat.abs_cast]

theorem abs_trunc_le {x y : F} (h : fmag x ≤ fmag y) (hy : isFinite y = true) :
    |trunc x| ≤ |trunc y| := by
  rw [abs_trunc (isFinite_of_fmag_le h hy), abs_trunc hy]
  exact Int.ofNat_le.2 (Nat.div_le_div_right (magUnits_strictMono.monotone h))

/-- A value clamped to `±limit` and scaled gives no larger integer than the limit itself. -/
theorem abs_trunc_fmul_clampR_le {x : F} {limit scale : Int} (hx : isNaN x = false)
    (hpos : 0 < limit) (hl : isFinite (ofInt limit) = true) (hs : isFinite (ofInt scale) = true)
    (hfin : isFinite (fmul (ofInt limit) (ofInt scale)) = true) :
    |trunc (fmul (clampR x (ofInt (-limit)) (ofInt limit)) (ofInt scale))| ≤
      |trunc (fmul (ofInt limit) (ofInt scale))| := by
  rw [← fneg_ofInt hpos]
  exact abs_trunc_le (fmag_fmul_le (fmag_clampR_le hx (not_nan_of_finite hl).1) hl hs) hfin

/-- The same without a scale. -/
theorem abs_trunc_clampR_le {x : F} {limit : Int} (hx : isNaN x = false) (hpos : 0 < limit)
    (hl : isFinite (ofInt limit) = true) :
    |trunc (clampR x (ofInt (-limit)) (ofInt limit))| ≤ |trunc (ofInt limit)| := by
  rw [← fneg_ofInt hpos]
  exact abs_trunc_le (fmag_clampR_le hx (not_nan_of_finite hl).1) hl

/-- Settles O31: the integer of a clamped value is no larger than that of the limit, and at the limit
the product is exact. -/
theorem servoIntegersFitTheirBounds : Obligations.ServoIntegersFitTheirBounds := by
  have hduty : |trunc (fmul (ofInt 1) (ofInt 100000))| = 100000 := by decide
  have hcurrent : |trunc (fmul (ofInt 60000) (ofInt 1000))| = 60000000 := by decide
  have hvelocity : |trunc (ofInt 100000)| = 100000 := by decide
  have hposition : |trunc (fmul (ofInt 36000) (ofInt 10000))| = 360000000 := by decide
  intro x hx
  refine ⟨?_, ?_, ?_, ?_⟩
  · exact (abs_trunc_fmul_clampR_le hx (by decide) (by decide) (by decide) (by decide)).trans_eq
      hduty
  · exact (abs_trunc_fmul_clampR_le hx (by decide) (by decide) (by decide) (by decide)).trans_eq
      hcurrent
  · exact (abs_trunc_clampR_le hx (by decide) (by decide)).trans_eq hvelocity
  · exact (abs_trunc_fmul_clampR_le hx (by decide) (by decide) (by decide) (by decide)).trans_eq
      hposition

/-- `SVPOS` of a value that is clamped to `b` sends the scaled integer of `b`. -/
theorem exec_svpos_of_clamped {s : State} (hs : Ready s) (a : BitVec 8) {x b : F} {k : Int}
    (hx : isNaN x = false) (hb : clampR x (ofInt (-36000)) (ofInt 36000) = b)
    (hk : trunc (fmul b (ofInt 10000)) = k) :
    exec (.svpos a x) s =
      .next (Claims.sent (a.toNat + 0x400) 1 (ser32 (BitVec.ofInt 32 k)) s) :=
  servoFloat_sends hs hx a 4 (by rw [servoScaled_position, hb, hk])

/-- Settles O32: at a bound or beyond it the clamped value is the bound, whose integer is exact. -/
theorem svposClampsBeforeScaling : Obligations.SvposClampsBeforeScaling := by
  have hrange : flt (ofInt (-36000)) (ofInt 36000) = true := by decide
  have hupper : trunc (fmul (ofInt 36000) (ofInt 10000)) = 360000000 := by decide
  have hlower : trunc (fmul (ofInt (-36000)) (ofInt 10000)) = -360000000 := by decide
  intro s a x hs
  refine ⟨fun h => ?_, fun h => ?_⟩
  · obtain ⟨hx, -, -⟩ := fge_eq_true.1 h
    have hclamp := clampR_eq_upper hrange h (by decide)
    rw [exec_svpos_of_clamped hs a hx hclamp hupper]
    rfl
  · obtain ⟨-, hx, -⟩ := fge_eq_true.1 h
    have hclamp := clampR_eq_lower hrange h (by decide)
    rw [exec_svpos_of_clamped hs a hx hclamp hlower]
    rfl

/-! ## What the encoders read and write (R121) -/

/-- The frame buffer, the cursor, the device table and the PID contexts replaced. -/
def State.withStores (s : State) (fb : Memory) (cur : BitVec 4) (dev : Vector Device 256)
    (pid : List PidCtx) : State :=
  { s with fb := fb, cur := cur, dev := dev, pid := pid }

/-- An operation that neither writes nor reads those four: its next state keeps them, and with others
in their place comes out the same but for them. -/
structure Stateless (op : State → Result) : Prop where
  keeps : ∀ {s t}, op s = .next t → t.withStores s.fb s.cur s.dev s.pid = t
  ignores : ∀ {s t} fb cur dev pid, op s = .next t →
    op (s.withStores fb cur dev pid) = .next (t.withStores fb cur dev pid)

theorem stateless_next {f : State → State}
    (hkeeps : ∀ s, (f s).withStores s.fb s.cur s.dev s.pid = f s)
    (hignores : ∀ s fb cur dev pid,
      f (s.withStores fb cur dev pid) = (f s).withStores fb cur dev pid) :
    Stateless fun s => .next (f s) where
  keeps h := Host.Outcome.next.inj h ▸ hkeeps _
  ignores fb cur dev pid h := Host.Outcome.next.inj h ▸ congrArg _ (hignores _ fb cur dev pid)

theorem stateless_refused (r : Refusal) : Stateless fun _ => .refused r where
  keeps := nofun
  ignores _ _ _ _ := nofun

theorem stateless_reject : Stateless reject :=
  stateless_next (fun _ => rfl) fun _ _ _ _ _ => rfl

theorem stateless_raise (c : Cause) : Stateless (raise c) :=
  stateless_next (fun _ => rfl) fun _ _ _ _ _ => rfl

/-- A payload may depend on `MODEL_LIMITS`, which is a parameter (R5). -/
theorem stateless_send (id : BitVec 29) (ext : BitVec 1) (bytes : Vector ModelRow 7 → List Byte) :
    Stateless fun s => send id ext (bytes s.limits) s :=
  stateless_next (fun _ => rfl) fun _ _ _ _ _ => rfl

/-- A test that does not depend on the four keeps the two branches stateless. -/
theorem stateless_ite {c : State → Prop} [DecidablePred c] {a b : State → Result}
    (hc : ∀ s fb cur dev pid, c (s.withStores fb cur dev pid) ↔ c s) (ha : Stateless a)
    (hb : Stateless b) : Stateless fun s => if c s then a s else b s where
  keeps {s t} h := by
    split at h
    · exact ha.keeps h
    · exact hb.keeps h
  ignores {s t} fb cur dev pid h := by
    simp only [hc]
    split at h
    next hs => rw [if_pos hs, ha.ignores fb cur dev pid h]
    next hs => rw [if_neg hs, hb.ignores fb cur dev pid h]

/-- The checks of R211 read `FAULT` and the port only. -/
theorem stateless_accept (rxOk : Bool) {body : State → Result} (hb : Stateless body) :
    Stateless fun s => accept rxOk s (body s) :=
  stateless_ite (fun _ _ _ _ _ => Iff.rfl) stateless_reject <|
    stateless_ite (fun _ _ _ _ _ => Iff.rfl) (stateless_raise _) hb

theorem stateless_servoFloat (x : F) {body : State → Result} (hb : Stateless body) :
    Stateless fun s => servoFloat x s (body s) :=
  stateless_accept _ <| stateless_ite (fun _ _ _ _ _ => Iff.rfl) (stateless_refused _) hb

theorem stateless_servoSend (a : BitVec 8) (kind : Nat) (bytes : List Byte) :
    Stateless (servoSend a kind bytes) :=
  stateless_send _ _ fun _ => bytes

theorem stateless_mitSend (a : BitVec 8) (bytes : Vector ModelRow 7 → List Byte) :
    Stateless fun s => mitSend a (bytes s.limits) s :=
  stateless_send _ _ bytes

theorem execMitcmd_unknown {model : BitVec 3} (h : modelIndex model = none) (a : BitVec 8)
    (p v kp kd t : F) (s : State) :
    execMitcmd a model p v kp kd t s = accept false s (raise .cfgModel s) := by
  rw [execMitcmd, h]

theorem execMitcmd_row {model : BitVec 3} {m : Fin 7} (h : modelIndex model = some m)
    (a : BitVec 8) (p v kp kd t : F) (s : State) :
    execMitcmd a model p v kp kd t s = accept false s
      (if isNaN p || isNaN v || isNaN kp || isNaN kd || isNaN t then .refused .nanOperand
        else mitSend a (mitBytes s.limits[m] p v kp kd t) s) := by
  rw [execMitcmd, h]

theorem stateless_execMitcmd (a : BitVec 8) (model : BitVec 3) (p v kp kd t : F) :
    Stateless (execMitcmd a model p v kp kd t) := by
  cases h : modelIndex model with
  | none =>
    rw [funext (execMitcmd_unknown h a p v kp kd t)]
    exact stateless_accept _ (stateless_raise _)
  | some m =>
    rw [funext (execMitcmd_row h a p v kp kd t)]
    exact stateless_accept _ <| stateless_ite (fun _ _ _ _ _ => Iff.rfl) (stateless_refused _) <|
      stateless_mitSend a fun limits => mitBytes limits[m] p v kp kd t

/-- Each encoder ends in a fault, a refusal or a `Send`, on tests of its operands. -/
theorem stateless_exec {i : Instr} (hop : i.opcode ∈ [Opcode.svduty, .svcur, .svbrk, .svrpm, .svpos,
    .svorg, .svpsa, .mitent, .mitorg, .mitext, .mitcmd]) : Stateless (exec i) := by
  cases i with
  | svduty | svcur | svbrk | svrpm | svpos =>
    exact stateless_servoFloat _ (stateless_servoSend _ _ _)
  | svorg =>
    exact stateless_accept _ <| stateless_ite (fun _ _ _ _ _ => Iff.rfl) (stateless_raise _)
      (stateless_servoSend _ _ _)
  | svpsa =>
    exact stateless_servoFloat _ <| stateless_ite (fun _ _ _ _ _ => Iff.rfl) (stateless_refused _)
      (stateless_servoSend _ _ _)
  | mitent a => exact stateless_accept _ (stateless_mitSend a fun _ => sentinel 0xFC)
  | mitorg a => exact stateless_accept _ (stateless_mitSend a fun _ => sentinel 0xFE)
  | mitext a => exact stateless_accept _ (stateless_mitSend a fun _ => sentinel 0xFD)
  | mitcmd a model p v kp kd t => exact stateless_execMitcmd a model p v kp kd t
  | _ => simp [Instr.opcode] at hop

/-- Settles O37: none of the ways in which an encoder ends reads or writes the four. -/
theorem encodersAreStateless : Obligations.EncodersAreStateless := by
  intro i s t fb cur dev pid hop hexec
  have hstateless := stateless_exec hop
  have hkeeps := hstateless.keeps hexec
  exact ⟨(congrArg State.fb hkeeps).symm, (congrArg State.cur hkeeps).symm,
    (congrArg State.dev hkeeps).symm, (congrArg State.pid hkeeps).symm,
    hstateless.ignores fb cur dev pid hexec⟩

end Sys2Proof.Machine
end

section
/-! PROOFS. The MIT command encoder (42_mit.md): what `MITCMD` answers on a ready block, and its frames
at zero and at both ends of its ranges. -/

namespace Sys2Proof.Machine

/-! ## What `MITCMD` answers (R146) -/

theorem modelIndex_of_toNat {model : BitVec 3} {m : Fin 7} (h : model.toNat = m.val) :
    modelIndex model = some m := by
  have hne : model ≠ 7 := by
    rintro rfl
    exact absurd m.isLt (by rw [← h]; decide)
  obtain ⟨k, hk, hval⟩ := modelIndex_some hne
  rw [hk, Fin.ext (hval.trans h)]

section
variable {s : State} (hs : Ready s) {model : BitVec 3} {m : Fin 7} {p v kp kd t : F}
include hs

/-- Model 7 faults whatever the parameters are. -/
theorem exec_mitcmd_unknown (a : BitVec 8) (p v kp kd t : F) :
    exec (.mitcmd a 7 p v kp kd t) s = .next (Claims.raised 3 s) :=
  (execMitcmd_unknown modelIndex_seven a p v kp kd t s).trans (accept_ready false _ hs.1 hs.2)

theorem exec_mitcmd_nan (hm : modelIndex model = some m)
    (hnan : (isNaN p || isNaN v || isNaN kp || isNaN kd || isNaN t) = true) (a : BitVec 8) :
    exec (.mitcmd a model p v kp kd t) s = .refused .nanOperand :=
  (execMitcmd_row hm a p v kp kd t s).trans
    ((accept_ready false _ hs.1 hs.2).trans (if_pos hnan))

theorem exec_mitcmd_sends (hm : modelIndex model = some m)
    (hnan : (isNaN p || isNaN v || isNaN kp || isNaN kd || isNaN t) = false) (a : BitVec 8) :
    exec (.mitcmd a model p v kp kd t) s =
      .next (Claims.sent a.toNat 0 (mitBytes s.limits[m] p v kp kd t) s) :=
  (execMitcmd_row hm a p v kp kd t s).trans <| (accept_ready false _ hs.1 hs.2).trans <|
    (if_neg (by simp [hnan])).trans (mitSend_eq_sent a _ s)

end

theorem c5_eq_ofInt : c5 = ofInt 5 := by decide
theorem c500_eq_ofInt : c500 = ofInt 500 := by decide
theorem ofInt_zero : ofInt 0 = 0 := by decide
theorem c12_5_eq_fdiv : c12_5 = fdiv (ofInt 25) (ofInt 2) := by decide

/-- Settles O34: the model is looked up first, then the parameters are checked; the bytes are those of
the five codes of R141, their constants written as integers. -/
theorem mitcmdResult : Obligations.MitcmdResult := by
  intro s a model p v kp kd t hs
  refine ⟨fun h => ?_, fun h hnan => ?_, fun m h hnan => ?_⟩
  · rw [h, exec_mitcmd_unknown hs]
  · obtain ⟨k, hk, -⟩ := modelIndex_some h
    exact exec_mitcmd_nan hs hk hnan a
  · rw [exec_mitcmd_sends hs (modelIndex_of_toNat h) hnan, mitBytes, c12_5_eq_fdiv, c500_eq_ofInt,
      c5_eq_ofInt, ofInt_zero]

/-! ## The code of zero (R101, R146) -/

/-- The next exponent doubles the value of a normal magnitude. -/
theorem magUnits_next_exponent {m : Nat} (h : 2 ^ 23 ≤ m) :
    magUnits (m + 2 ^ 23) = 2 * magUnits m := by
  obtain ⟨sh, q, rfl, hq, hq'⟩ : ∃ sh q, m = sh * 2 ^ 23 + q ∧ 2 ^ 23 ≤ q ∧ q ≤ 2 ^ 24 :=
    ⟨m / 2 ^ 23 - 1, m % 2 ^ 23 + 2 ^ 23, by omega, by omega, by omega⟩
  rw [show sh * 2 ^ 23 + q + 2 ^ 23 = (sh + 1) * 2 ^ 23 + q by ring, magUnits_shift (.inr hq) hq',
    magUnits_shift (.inr hq) hq', pow_succ]
  ring

/-- Half of an integer below 2^24 is a magnitude too. -/
theorem exists_magUnits_half {k : Nat} (h0 : 0 < k) (h : k < 2 ^ 24) :
    ∃ m, m < infMag ∧ magUnits m = k * 2 ^ 148 := by
  obtain ⟨m, hm, hunits⟩ := exists_magUnits_eq h
  have hlarge : 2 ^ 24 < m := by
    refine magUnits_strictMono.lt_iff_lt.1 ?_
    rw [show magUnits (2 ^ 24) = 2 ^ 24 from rfl, hunits]
    omega
  have hdouble := magUnits_next_exponent (m := m - 2 ^ 23) (by omega)
  rw [Nat.sub_add_cancel (by omega), hunits] at hdouble
  exact ⟨m - 2 ^ 23, by omega, by omega⟩

/-- The magnitude of 0.5. -/
theorem magUnits_one_half : magUnits 0x3F000000 = 2 ^ 148 := by
  have hdouble := magUnits_next_exponent (m := 0x3F000000) (by decide)
  have hone := magUnits_one
  norm_num at hdouble hone ⊢
  omega

/-- Half of the span has half of the largest code: the quotient is 0.5, and half of `M` is a float, so
that nothing is rounded before its fraction is discarded (R101). -/
theorem codeOf_half_span {S h n : Nat} (hh : 0 < h) (hS : magUnits S = 2 * magUnits h) (h1 : 1 ≤ n)
    (h16 : n ≤ 16) : codeOf S n h = 2 ^ (n - 1) - 1 := by
  have hquot : roundMag (magUnits h * 2 ^ 149) (magUnits S) = 0x3F000000 := by
    have hpos := magUnits_pos hh
    have hexact := roundMag_exact (m := 0x3F000000) (d := magUnits S) (by omega) (by decide)
    rwa [magUnits_one_half, hS, show 2 ^ 148 * (2 * magUnits h) = magUnits h * 2 ^ 149 by ring,
      ← hS] at hexact
  have hM : 2 ^ n = 2 * 2 ^ (n - 1) := by rw [← pow_succ', Nat.sub_add_cancel h1]
  have hpos : 0 < 2 ^ (n - 1) := Nat.two_pow_pos _
  have hle : 2 ^ n ≤ 2 ^ 16 := Nat.pow_le_pow_right two_pos h16
  obtain ⟨m, hm, hunits⟩ := exists_magUnits_half (k := 2 ^ n - 1) (by omega) (by omega)
  rw [codeOf, hquot, magUnits_one_half,
    show 2 ^ 148 * ((2 ^ n - 1) * 2 ^ 149) = magUnits m * 2 ^ 149 by rw [hunits]; ring,
    roundMag_exact (Nat.two_pow_pos 149) hm.le, hunits]
  omega

theorem not_nan_of_isZero {x : F} (hx : isZero x = true) : isNaN x = false := by
  have hmag : fmag x = 0 := by simpa [isZero] using hx
  simp [isNaN, hmag]

theorem orderKey_of_isZero {x : F} (hx : isZero x = true) : orderKey x = 0 := by
  have hmag : fmag x = 0 := by simpa [isZero] using hx
  simp [orderKey, hmag]

/-- A zero of either sign lies in the middle of a symmetric range. -/
theorem f2x_zero_of_symmetric {hi x : F} {n : Nat} (L : LegalRange (fneg hi) hi)
    (hx : isZero x = true) (h1 : 1 ≤ n) (h16 : n ≤ 16) :
    f2x x (fneg hi) hi n = 2 ^ (n - 1) - 1 := by
  have hx0 := not_nan_of_isZero hx
  have hlt := L.lt
  have hspan := signedUnits_span L
  have hunits := natAbs_signedUnits hi
  have hspanUnits := natAbs_signedUnits (fsub hi (fneg hi))
  rw [signedUnits_fneg] at hlt
  have hkey : orderKey (clampR x (fneg hi) hi) = orderKey 0 := by
    have hkeys := signedUnits_lt_iff.1 L.lt
    rw [clampR_key hx0 L, orderKey_of_isZero hx, show orderKey 0 = 0 from rfl]
    rw [orderKey_fneg] at hkeys ⊢
    omega
  have hclamp : signedUnits (clampR x (fneg hi) hi) = 0 :=
    le_antisymm (signedUnits_le_iff.2 hkey.le) (signedUnits_le_iff.2 hkey.ge)
  have hmag : fmag hi ≤ infMag := le_of_lt (by simpa [isFinite] using L.finite_hi)
  have hpos : 0 < fmag hi := magUnits_strictMono.lt_iff_lt.1 (by
    rw [← hunits, show magUnits 0 = 0 from rfl]
    omega)
  have hdist : roundMag (0 - -signedUnits hi).toNat 1 = fmag hi := by
    rw [show (0 - -signedUnits hi).toNat = magUnits (fmag hi) * 1 by omega,
      roundMag_exact one_pos hmag]
  rw [(f2x_eq hx0 L h1 h16).1, hclamp, signedUnits_fneg, hdist,
    codeOf_half_span hpos (by omega) h1 h16]

/-- A zero of either sign is the lower end of a range from zero. -/
theorem f2x_zero_of_lower_zero {hi x : F} {n : Nat} (L : LegalRange 0 hi) (hx : isZero x = true)
    (h1 : 1 ≤ n) (h16 : n ≤ 16) : f2x x 0 hi n = 0 := by
  have hx0 := not_nan_of_isZero hx
  have h0 : isNaN 0 = false := by decide
  have hkey : orderKey (clampR x 0 hi) = orderKey (clampR 0 0 hi) := by
    rw [clampR_key hx0 L, clampR_key h0 L, orderKey_of_isZero hx]
    rfl
  rw [f2x_congr L h1 h16 hx0 h0 hkey, f2x_lo L h1 h16]

/-! ## The frames at zero and at the ends (R141, R146) -/

theorem legalRange_position : LegalRange (fneg c12_5) c12_5 := legalRange_of (by decide)
theorem legalRange_stiffness : LegalRange 0 c500 := legalRange_of (by decide)
theorem legalRange_damping : LegalRange 0 c5 := legalRange_of (by decide)

/-- At zero only the velocity and the torque code depend on the model. -/
theorem mitBytes_zero (row : ModelRow) {p kp kd : F} (hp : isZero p = true) (hkp : isZero kp = true)
    (hkd : isZero kd = true) (v t : F) :
    mitBytes row p v kp kd t = mitPack 0x7FFF
      (BitVec.ofNat 12 (f2x v (fneg row.vmax) row.vmax 12)) 0 0
      (BitVec.ofNat 12 (f2x t (fneg row.tmax) row.tmax 12)) := by
  rw [mitBytes, f2x_zero_of_symmetric legalRange_position hp (by decide) (by decide),
    f2x_zero_of_lower_zero legalRange_stiffness hkp (by decide) (by decide),
    f2x_zero_of_lower_zero legalRange_damping hkd (by decide) (by decide)]
  rfl

section
variable {row : ModelRow} (hvel : LegalRange (fneg row.vmax) row.vmax)
  (htor : LegalRange (fneg row.tmax) row.tmax)
include hvel htor

theorem mitBytes_zero_of_legal {p v kp kd t : F} (hp : isZero p = true) (hv : isZero v = true)
    (hkp : isZero kp = true) (hkd : isZero kd = true) (ht : isZero t = true) :
    mitBytes row p v kp kd t = [0x7F, 0xFF, 0x7F, 0xF0, 0x00, 0x00, 0x07, 0xFF] := by
  rw [mitBytes_zero row hp hkp hkd, f2x_zero_of_symmetric hvel hv (by decide) (by decide),
    f2x_zero_of_symmetric htor ht (by decide) (by decide)]
  rfl

theorem mitBytes_lower : mitBytes row (fneg c12_5) (fneg row.vmax) 0 0 (fneg row.tmax) =
    [0, 0, 0, 0, 0, 0, 0, 0] := by
  rw [mitBytes, f2x_lo legalRange_position (by decide) (by decide),
    f2x_lo hvel (by decide) (by decide), f2x_lo legalRange_stiffness (by decide) (by decide),
    f2x_lo legalRange_damping (by decide) (by decide), f2x_lo htor (by decide) (by decide)]
  rfl

theorem mitBytes_upper : mitBytes row c12_5 row.vmax c500 c5 row.tmax =
    [0xFF, 0xFF, 0xFF, 0xFF, 0xFF, 0xFF, 0xFF, 0xFF] := by
  rw [mitBytes, f2x_hi legalRange_position (by decide) (by decide),
    f2x_hi hvel (by decide) (by decide), f2x_hi legalRange_stiffness (by decide) (by decide),
    f2x_hi legalRange_damping (by decide) (by decide), f2x_hi htor (by decide) (by decide)]
  rfl

end

theorem LegalRange.not_nan {lo hi : F} (L : LegalRange lo hi) : isNaN lo = false ∧ isNaN hi = false :=
  ⟨(not_nan_of_finite L.finite_lo).1, (not_nan_of_finite L.finite_hi).1⟩

section
variable {s : State} (hs : Ready s) {model : BitVec 3} {m : Fin 7} (hm : modelIndex model = some m)
  (hvel : LegalRange (fneg s.limits[m].vmax) s.limits[m].vmax)
  (htor : LegalRange (fneg s.limits[m].tmax) s.limits[m].tmax)
include hs hm hvel htor

theorem exec_mitcmd_lower (a : BitVec 8) :
    exec (.mitcmd a model (fneg c12_5) (fneg s.limits[m].vmax) 0 0 (fneg s.limits[m].tmax)) s =
      .next (Claims.sent a.toNat 0 [0, 0, 0, 0, 0, 0, 0, 0] s) := by
  have hnan : (isNaN (fneg c12_5) || isNaN (fneg s.limits[m].vmax) || isNaN 0 || isNaN 0 ||
      isNaN (fneg s.limits[m].tmax)) = false := by
    rw [legalRange_position.not_nan.1, hvel.not_nan.1, legalRange_stiffness.not_nan.1,
      htor.not_nan.1]
    rfl
  rw [exec_mitcmd_sends hs hm hnan, mitBytes_lower hvel htor]

theorem exec_mitcmd_upper (a : BitVec 8) :
    exec (.mitcmd a model c12_5 s.limits[m].vmax c500 c5 s.limits[m].tmax) s =
      .next (Claims.sent a.toNat 0 [0xFF, 0xFF, 0xFF, 0xFF, 0xFF, 0xFF, 0xFF, 0xFF] s) := by
  have hnan : (isNaN c12_5 || isNaN s.limits[m].vmax || isNaN c500 || isNaN c5 ||
      isNaN s.limits[m].tmax) = false := by
    rw [legalRange_position.not_nan.2, hvel.not_nan.2, legalRange_stiffness.not_nan.2,
      legalRange_damping.not_nan.2, htor.not_nan.2]
    rfl
  rw [exec_mitcmd_sends hs hm hnan, mitBytes_upper hvel htor]

end

/-- Settles O36: each parameter's code is that of the middle, the lower or the upper end of its
range. -/
theorem mitcmdCornerFrames : Obligations.MitcmdCornerFrames := by
  intro s a model m p v kp kd t hs hm hzero
  have hindex := modelIndex_of_toNat hm
  have hzeros (x : F) (hx : x ∈ [p, v, kp, kd, t]) : isZero x = true := by
    rcases hzero x hx with rfl | rfl <;> rfl
  obtain ⟨hp, hv, hkp, hkd, ht⟩ : isZero p = true ∧ isZero v = true ∧ isZero kp = true ∧
      isZero kd = true ∧ isZero t = true := by simpa using hzeros
  have hnan : (isNaN p || isNaN v || isNaN kp || isNaN kd || isNaN t) = false := by
    simp [not_nan_of_isZero, hp, hv, hkp, hkd, ht]
  have hsent := exec_mitcmd_sends hs hindex hnan a
  refine ⟨⟨_, _, by rw [hsent, mitBytes_zero _ hp hkp hkd]⟩, fun hrv hrt => ?_⟩
  have hvel := legalRange_of (rangeOk_iff.2 hrv)
  have htor := legalRange_of (rangeOk_iff.2 hrt)
  refine ⟨?_, exec_mitcmd_lower hs hindex hvel htor a, ?_⟩
  · rw [hsent, mitBytes_zero_of_legal hvel htor hp hv hkp hkd ht]
  · rw [← c500_eq_ofInt, ← c5_eq_ofInt]
    exact exec_mitcmd_upper hs hindex hvel htor a

end Sys2Proof.Machine
end

section
/-! PROOFS. Telemetry (43_telemetry.md): the bytes of a frame, the two wire formats, what `DECODE` records,
and what the snapshot reads answer. -/

namespace Sys2Proof.Machine

/-! ## The bytes of a telemetry frame (R62, R74, R75) -/

/-- The eight bytes lie in the two operand words as the four fields lie in a header word. -/
theorem frameByte_eq (b0 b1 b2 b3 b4 b5 b6 b7 : Byte) :
    let b := frameByte (b0 ++ b1 ++ b2 ++ b3) (b4 ++ b5 ++ b6 ++ b7)
    b 0 = b0 ∧ b 1 = b1 ∧ b 2 = b2 ∧ b 3 = b3 ∧ b 4 = b4 ∧ b 5 = b5 ∧ b 6 = b6 ∧ b 7 = b7 :=
  ⟨hOpc_headerWord b0 b1 b2 b3, hM_headerWord b0 b1 b2 b3, hP_headerWord b0 b1 b2 b3,
    hA_headerWord b0 b1 b2 b3, hOpc_headerWord b4 b5 b6 b7, hM_headerWord b4 b5 b6 b7,
    hP_headerWord b4 b5 b6 b7, hA_headerWord b4 b5 b6 b7⟩

/-- Two bit vectors side by side as a number, the first the more significant. -/
theorem toNat_append_eq_add {m n : Nat} (x : BitVec m) (y : BitVec n) :
    (x ++ y).toNat = x.toNat * 2 ^ n + y.toNat := by
  rw [BitVec.toNat_append, ← Nat.shiftLeft_add_eq_or_of_lt y.isLt, Nat.shiftLeft_eq]

/-- A 12-bit code of a byte and the upper half of the next (R75). -/
theorem toNat_append_upper (x y : Byte) :
    (x ++ y.extractLsb' 4 4 : BitVec 12).toNat = x.toNat * 16 + y.toNat / 16 := by
  rw [toNat_append_eq_add, BitVec.extractLsb'_toNat, Nat.shiftRight_eq_div_pow]
  omega

/-- A 12-bit code of the lower half of a byte and the next byte (R75). -/
theorem toNat_lower_append (x y : Byte) :
    (x.extractLsb' 0 4 ++ y : BitVec 12).toNat = x.toNat % 16 * 256 + y.toNat :=
  toNat_append_eq_add _ y

theorem signExtend_byte (b : Byte) : b.signExtend 16 =
    BitVec.ofInt 16 (if b.toNat < 128 then b.toNat else (b.toNat : Int) - 256) := by
  rw [BitVec.signExtend, BitVec.toInt_eq_toNat_cond]
  congr 1
  split <;> split <;> omega

/-! ## The two wire formats (R151) -/

theorem c0_1_eq_fdiv : c0_1 = fdiv (ofInt 1) (ofInt 10) := by decide
theorem c0_01_eq_fdiv : c0_01 = fdiv (ofInt 1) (ofInt 100) := by decide
theorem c10_eq_ofInt : c10 = ofInt 10 := by decide
theorem fneg_c12_5 : fneg c12_5 = 0xC1480000 := by decide

section
variable (b0 b1 b2 b3 b4 b5 b6 b7 : Byte)

/-- An extended frame, byte by byte. -/
theorem servoDecode_eq : servoDecode (b0 ++ b1 ++ b2 ++ b3) (b4 ++ b5 ++ b6 ++ b7) =
    { pos := fmul (ofInt (Claims.signed16 b0 b1)) (fdiv (ofInt 1) (ofInt 10))
      vel := fmul (ofInt (Claims.signed16 b2 b3)) (ofInt 10)
      cur := fmul (ofInt (Claims.signed16 b4 b5)) (fdiv (ofInt 1) (ofInt 100))
      temp := BitVec.ofInt 16 (if b6.toNat < 128 then b6.toNat else (b6.toNat : Int) - 256)
      err := b7 } := by
  obtain ⟨h0, h1, h2, h3, h4, h5, h6, h7⟩ := frameByte_eq b0 b1 b2 b3 b4 b5 b6 b7
  have hsigned (h l : Byte) : s16 h l = Claims.signed16 h l := s16_eq h l
  simp only [servoDecode, h0, h1, h2, h3, h4, h5, h6, h7, hsigned, signExtend_byte, c0_1_eq_fdiv,
    c0_01_eq_fdiv, c10_eq_ofInt]

/-- A standard frame, byte by byte; byte 0 is not read. -/
theorem mitDecode_eq (row : ModelRow) :
    mitDecode (b0 ++ b1 ++ b2 ++ b3) (b4 ++ b5 ++ b6 ++ b7) row =
      { pos := x2f (b1.toNat * 256 + b2.toNat) 0xC1480000 0x41480000 16
        vel := x2f (b3.toNat * 16 + b4.toNat / 16) (fneg row.vmax) row.vmax 12
        cur := x2f (b4.toNat % 16 * 256 + b5.toNat) (fneg row.tmax) row.tmax 12
        temp := BitVec.ofNat 16 b6.toNat
        err := b7 } := by
  obtain ⟨-, h1, h2, h3, h4, h5, h6, h7⟩ := frameByte_eq b0 b1 b2 b3 b4 b5 b6 b7
  have hpos : (b1 ++ b2).toNat = b1.toNat * 256 + b2.toNat := toNat_append_eq_add b1 b2
  simp only [mitDecode, h1, h2, h3, h4, h5, h6, h7, hpos, toNat_append_upper, toNat_lower_append,
    fneg_c12_5, BitVec.ofNat_toNat]
  rfl

end

/-! ## What `DECODE` does (R152, R154) -/

/-- A frame from a registered address overwrites the snapshot of that device and nothing else; one
response of status 0 is answered. -/
theorem exec_decode_records {s : State} {a : BitVec 8} (hf : s.fault = 0)
    (hv : (s.device a).valid = true) (fmt : BitVec 1) (w0 w1 : Word) :
    ∃ t, exec (.decode a fmt w0 w1) s = .next t ∧
      t.device a = (s.device a).record (decodeFrame s (s.device a) fmt w0 w1) ∧
      (∀ b, b ≠ a → t.device b = s.device b) ∧ t = { Claims.answered {} s with dev := t.dev } :=
  ⟨_, (accept_decode _ hf).trans (if_pos hv), s.device_setDevice_self a _,
    fun b hb => s.device_setDevice_ne a b _ hb, rfl⟩

/-- Settles O38: format 1 decodes as an extended frame. -/
theorem decodeRecordsServoFrame : Obligations.DecodeRecordsServoFrame := by
  intro s a b0 b1 b2 b3 b4 b5 b6 b7 hf hv
  have hrec := exec_decode_records hf hv 1 (b0 ++ b1 ++ b2 ++ b3) (b4 ++ b5 ++ b6 ++ b7)
  rwa [show decodeFrame s (s.device a) 1 _ _ = servoDecode _ _ from if_pos rfl,
    servoDecode_eq] at hrec

/-- Settles O39: format 0 decodes as a standard frame, with the row of the device's model. -/
theorem decodeRecordsMitFrame : Obligations.DecodeRecordsMitFrame := by
  intro s a b0 b1 b2 b3 b4 b5 b6 b7 hf hv
  have hrec := exec_decode_records hf hv 0 (b0 ++ b1 ++ b2 ++ b3) (b4 ++ b5 ++ b6 ++ b7)
  rwa [show decodeFrame s (s.device a) 0 _ _ = mitDecode _ _ _ from if_neg (by decide),
    mitDecode_eq] at hrec

/-- Settles O40: only a registered device's frame is recorded. -/
theorem decodeDropsUnknownSource : Obligations.DecodeDropsUnknownSource := by
  intro s a fmt w0 w1 hf hinv
  rcases exec_decode_cases a fmt w0 w1 hf with ⟨hv, -⟩ | ⟨-, hdrop⟩
  · exact absurd (hv.symm.trans hinv) nofun
  · exact hdrop

/-! ## What the snapshot reads answer (R157, R158) -/

section
variable {s : State} (hs : Ready s) {a : BitVec 8}
include hs

theorem exec_tlmrd_reserved {field : BitVec 3} (h : 5 ≤ field.toNat) :
    exec (.tlmrd a field) s = .next (Claims.raised 1 s) :=
  (accept_ready false _ hs.1 hs.2).trans (if_pos h)

theorem exec_tlmrd_unknown {field : BitVec 3} (h : field.toNat ≤ 4)
    (hinv : (s.device a).valid = false) :
    exec (.tlmrd a field) s = .next (Claims.answered {} s) :=
  (accept_ready false _ hs.1 hs.2).trans ((if_neg (by omega)).trans (if_neg (by simp [hinv])))

theorem exec_tlmrd_found {field : BitVec 3} (h : field.toNat ≤ 4) (hv : (s.device a).valid = true) :
    exec (.tlmrd a field) s =
      .next (Claims.answered { r0 := snapshotField (s.device a) field, r1 := 1 } s) :=
  (accept_ready false _ hs.1 hs.2).trans ((if_neg (by omega)).trans (if_pos hv))

end

/-- Settles O42: the word of each field is `snapshotField`'s, by which `temp` is sign-extended and `err`
zero-extended. -/
theorem tlmrdResult : Obligations.TlmrdResult := by
  intro s a field hs
  refine ⟨exec_tlmrd_reserved hs, exec_tlmrd_unknown hs, fun hv => ?_⟩
  have hfound (k : BitVec 3) (hk : k.toNat ≤ 4) := exec_tlmrd_found hs hk hv
  rw [BitVec.ofNat_toNat]
  exact ⟨hfound 0 (by decide), hfound 1 (by decide), hfound 2 (by decide), hfound 3 (by decide),
    hfound 4 (by decide)⟩

/-- The found bit stands above the error byte. -/
theorem foundErr_eq_ofNat (err : BitVec 8) : foundErr err = BitVec.ofNat 32 (256 + err.toNat) := by
  have hor : 1 <<< 8 + err.toNat = 1 <<< 8 ||| err.toNat := Nat.shiftLeft_add_eq_or_of_lt err.isLt 1
  apply BitVec.eq_of_toNat_eq
  rw [foundErr, BitVec.toNat_or, BitVec.toNat_setWidth_of_le (by decide)]
  exact hor.symm.trans (Nat.mod_eq_of_lt (by omega)).symm

/-- Settles O43: the five words are read of one state. -/
theorem tlmsnapResult : Obligations.TlmsnapResult := by
  intro s a hs
  have hexec : exec (.tlmsnap a) s = _ := accept_ready false _ hs.1 hs.2
  refine ⟨fun hinv => hexec.trans (if_neg (by simp [hinv])), fun hv => ?_⟩
  rw [← foundErr_eq_ofNat]
  exact hexec.trans (if_pos hv)

end Sys2Proof.Machine
end

section
/-! PROOFS. The device registry (44_registry.md): the two handle words, what `DEVREG`, `DEVUNREG` and
`DEVFIND` answer on a ready block, and a conflicting registration followed by its unregistering. -/

namespace Sys2Proof.Machine

/-! ## The two handle words (R171) -/

/-- A conflict handle has the flag where `TLMSNAP`'s found bit stands. -/
theorem handleWord_true_eq_ofNat (a : BitVec 8) :
    handleWord true a = BitVec.ofNat 32 (256 + a.toNat) :=
  foundErr_eq_ofNat a

theorem handleWord_false_eq_ofNat (a : BitVec 8) : handleWord false a = BitVec.ofNat 32 a.toNat := by
  rw [BitVec.ofNat_toNat]
  exact BitVec.zero_or

/-! ## What the registry operations answer (R172 to R174) -/

theorem execDevreg_unknown {model : BitVec 3} (h : modelIndex model = none) (a : BitVec 8)
    (s : State) : execDevreg a model s = accept false s (raise .cfgModel s) := by
  rw [execDevreg, h]

theorem execDevreg_row {model : BitVec 3} {m : Fin 7} (h : modelIndex model = some m) (a : BitVec 8)
    (s : State) :
    execDevreg a model s = accept false s
      (if (s.device a).valid then .next (s.respond { r0 := handleWord true a })
        else .next ((s.setDevice a (Device.fresh m)).respond { r0 := handleWord false a })) := by
  rw [execDevreg, h]

/-- An answer leaves the block ready for the next operation. -/
theorem Ready.answered {s : State} (hs : Ready s) (r : Response) : Ready (Claims.answered r s) := hs

theorem Ready.answered_responses {s : State} (hs : Ready s) (r : Response) :
    (Claims.answered r s).responses = (.fg, r) :: s.responses := by
  rw [Claims.answered, hs.2]

/-- Writing a record leaves the block ready for the next operation. -/
theorem Ready.setDevice {s : State} (hs : Ready s) (a : BitVec 8) (d : Device) :
    Ready (s.setDevice a d) := hs

section
variable {s : State} (hs : Ready s) {a : BitVec 8}
include hs

/-- Model 7 faults whether the address is taken or not. -/
theorem exec_devreg_unknown (a : BitVec 8) :
    exec (.devreg a 7) s = .next (Claims.raised 3 s) :=
  (execDevreg_unknown modelIndex_seven a s).trans (accept_ready false _ hs.1 hs.2)

theorem exec_devreg_taken {model : BitVec 3} (hne : model ≠ 7) (hv : (s.device a).valid = true) :
    exec (.devreg a model) s =
      .next (Claims.answered { r0 := BitVec.ofNat 32 (256 + a.toNat) } s) := by
  obtain ⟨m, hm, -⟩ := modelIndex_some hne
  rw [← handleWord_true_eq_ofNat]
  exact (execDevreg_row hm a s).trans ((accept_ready false _ hs.1 hs.2).trans (if_pos hv))

theorem exec_devreg_free {model : BitVec 3} {m : Fin 7} (hm : modelIndex model = some m)
    (hinv : (s.device a).valid = false) :
    exec (.devreg a model) s = .next (Claims.answered { r0 := BitVec.ofNat 32 a.toNat }
      (s.setDevice a (Device.fresh m))) := by
  rw [← handleWord_false_eq_ofNat]
  exact (execDevreg_row hm a s).trans
    ((accept_ready false _ hs.1 hs.2).trans (if_neg (by simp [hinv])))

theorem exec_devunreg_conflict (a : BitVec 8) :
    exec (.devunreg a 1) s = .next (Claims.answered {} s) :=
  (accept_ready false _ hs.1 hs.2).trans (if_pos rfl)

theorem exec_devunreg_plain (a : BitVec 8) :
    exec (.devunreg a 0) s =
      .next (Claims.answered {} (s.setDevice a { s.device a with valid := false })) :=
  (accept_ready false _ hs.1 hs.2).trans (if_neg (by decide))

theorem exec_devfind_found (hv : (s.device a).valid = true) :
    exec (.devfind a) s = .next (Claims.answered
      { r0 := 1, r1 := BitVec.ofNat 32 (s.device a).model.val } s) :=
  (accept_ready false _ hs.1 hs.2).trans (if_pos hv)

theorem exec_devfind_unknown (hinv : (s.device a).valid = false) :
    exec (.devfind a) s = .next (Claims.answered {} s) :=
  (accept_ready false _ hs.1 hs.2).trans (if_neg (by simp [hinv]))

end

/-- Settles O44: the model is looked up first, then the address; a free one gets the fresh record. -/
theorem devregResult : Obligations.DevregResult := by
  intro s a model hs
  refine ⟨fun h => ?_, exec_devreg_taken hs, fun m hm hinv => ?_⟩
  · rw [h, exec_devreg_unknown hs]
  · exact ⟨_, exec_devreg_free hs (modelIndex_of_toNat hm) hinv, s.device_setDevice_self a _,
      fun b hb => s.device_setDevice_ne a b _ hb, rfl⟩

/-- Settles O45: only a plain handle has its record written, and only the valid bit of it. -/
theorem devunregResult : Obligations.DevunregResult := by
  intro s a hs
  exact ⟨exec_devunreg_conflict hs a, _, exec_devunreg_plain hs a, s.device_setDevice_self a _,
    fun b hb => s.device_setDevice_ne a b _ hb, rfl⟩

/-- Settles O46: the two answers of a lookup. -/
theorem devfindResult : Obligations.DevfindResult :=
  fun _ _ hs => ⟨exec_devfind_found hs, exec_devfind_unknown hs⟩

/-- Settles O47: the first registration writes the fresh record; the second and the unregistering of
its handle only answer, so the lookup reads that record. -/
theorem conflictingRegistrationIsNoOp : Obligations.ConflictingRegistrationIsNoOp := by
  intro s a model model' hs hne hne' hinv
  obtain ⟨m, hm, hval⟩ := modelIndex_some hne
  have hready := (hs.setDevice a (Device.fresh m)).answered { r0 := BitVec.ofNat 32 a.toNat }
  have hdev : (s.setDevice a (Device.fresh m)).device a = Device.fresh m :=
    s.device_setDevice_self a _
  have hvalid : ((s.setDevice a (Device.fresh m)).device a).valid = true := by rw [hdev]; rfl
  have hmodel : ((s.setDevice a (Device.fresh m)).device a).model.val = model.toNat := by
    rw [hdev]; exact hval
  refine ⟨_, _, _, exec_devreg_free hs hm hinv, exec_devreg_taken hready hne' hvalid,
    hready.answered_responses _, exec_devunreg_conflict (hready.answered _) a, rfl, rfl, ?_⟩
  rw [← hmodel]
  exact exec_devfind_found ((hready.answered _).answered _) hvalid

end Sys2Proof.Machine
end

section
/-! PROOFS. The PID controller (45_pid.md): what the four operations answer on a ready block, one PID
step by its gates and its variant, NaN in the recurrences, and the repeated call of a proportional
controller. -/

namespace Sys2Proof.Machine

/-! ## Limits, gates and the variant bit (R182, R183, R188, R189) -/

/-- `PIDINIT` rejects a limit that is NaN or below zero; `-0.0` is not below zero. -/
theorem pidLimitOk_eq_false_iff {x : F} :
    pidLimitOk x = false ↔ isNaN x = true ∨ flt x 0 = true := by
  cases hx : isNaN x with
  | true => simp [pidLimitOk, hx]
  | false =>
    obtain ⟨hge, -⟩ := compare_of_not_nan hx (show isNaN 0 = false by decide)
    rw [pidLimitOk, hx, hge]
    simp

theorem pidLimitOk_of_not_flt {x : F} (hx : isNaN x = false) (h : flt x 0 = false) :
    pidLimitOk x = true := by
  rw [← Bool.not_eq_false, pidLimitOk_eq_false_iff, hx, h]
  decide

theorem maxErrGate_eq_true_iff {m e : F} :
    maxErrGate m e = true ↔ fne m 0 = true ∧ fgt (fabs e) m = true :=
  Bool.and_eq_true_iff

theorem maxErrGate_eq_false_iff {m e : F} :
    maxErrGate m e = false ↔ feq m 0 = true ∨ fgt (fabs e) m = false := by
  rw [maxErrGate, fne, Bool.and_eq_false_iff, Bool.not_eq_false']

theorem deadBandGate_eq_true_iff {d e : F} :
    deadBandGate d e = true ↔ fne d 0 = true ∧ flt (fabs e) d = true :=
  Bool.and_eq_true_iff

theorem deadBandGate_eq_false_iff {d e : F} :
    deadBandGate d e = false ↔ feq d 0 = true ∨ flt (fabs e) d = false := by
  rw [deadBandGate, fne, Bool.and_eq_false_iff, Bool.not_eq_false']

theorem variantOf_eq (b : BitVec 1) :
    variantOf b = if b = 1 then .incremental else .positional := by
  revert b
  decide

/-! ## One PID step, by its gates and its variant (R186) -/

section
variable {c : PidCtx} {x y : F}

theorem pidGated_pidRecord_iff : pidGated (pidRecord c x y) = true ↔
    (fne c.maxErr 0 = true ∧ fgt (fabs (fsub x y)) c.maxErr = true) ∨
      (fne c.deadBand 0 = true ∧ flt (fabs (fsub x y)) c.deadBand = true) := by
  rw [← maxErrGate_eq_true_iff, ← deadBandGate_eq_true_iff]
  exact Bool.or_eq_true_iff

theorem pidGated_pidRecord_eq_false
    (hmax : feq c.maxErr 0 = true ∨ fgt (fabs (fsub x y)) c.maxErr = false)
    (hdead : feq c.deadBand 0 = true ∨ flt (fabs (fsub x y)) c.deadBand = false) :
    pidGated (pidRecord c x y) = false :=
  Bool.or_eq_false_iff.2 ⟨maxErrGate_eq_false_iff.2 hmax, deadBandGate_eq_false_iff.2 hdead⟩

theorem pidStep_gated (hg : pidGated (pidRecord c x y) = true) :
    pidStep c x y = (pidRecord c x y, 0) :=
  if_pos hg

theorem pidStep_positional (hg : pidGated (pidRecord c x y) = false) (hv : c.variant = .positional) :
    pidStep c x y = (pidShift (pidPositional (pidRecord c x y)),
      (pidPositional (pidRecord c x y)).posOut) := by
  simp [pidStep, hg, hv]

theorem pidStep_incremental (hg : pidGated (pidRecord c x y) = false)
    (hv : c.variant = .incremental) :
    pidStep c x y = (pidShift (pidIncremental (pidRecord c x y)),
      (pidIncremental (pidRecord c x y)).deltaOut) := by
  simp [pidStep, hg, hv]

end

@[simp] theorem pidStep_inited (c : PidCtx) (x y : F) : (pidStep c x y).1.inited = c.inited := by
  rcases pidStep_cases c x y with ⟨-, h⟩ | ⟨-, -, h⟩ | ⟨-, -, h⟩ <;> rw [h] <;> rfl

/-! ## What the operations answer on a ready block (R180, R183 to R186) -/

/-- Writing a context leaves the block ready for the next operation. -/
theorem Ready.setPid {s : State} (hs : Ready s) (p : BitVec 8) (c : PidCtx) :
    Ready (s.setPid p c) := hs

section
variable {s : State} (hs : Ready s) {p : BitVec 8} {c : PidCtx}
include hs

theorem accept_withInited_absent (hp : s.pid.length ≤ p.toNat) (body : PidCtx → Result) :
    accept false s (withInited p s body) = .next (Claims.raised 1 s) :=
  (accept_ready false _ hs.1 hs.2).trans (withPid_none _ hp)

theorem accept_withInited_uninit (hc : s.pid[p.toNat]? = some c) (hi : c.inited = false)
    (body : PidCtx → Result) :
    accept false s (withInited p s body) = .next (Claims.raised 6 s) :=
  (accept_ready false _ hs.1 hs.2).trans (withInited_uninit _ hc hi)

theorem accept_withInited_inited (hc : s.pid[p.toNat]? = some c) (hi : c.inited = true)
    (body : PidCtx → Result) : accept false s (withInited p s body) = body c :=
  (accept_ready false _ hs.1 hs.2).trans (withInited_some _ hc hi)

theorem exec_pidgain (hc : s.pid[p.toNat]? = some c) (hi : c.inited = true) (kp ki kd : F) :
    exec (.pidgain p kp ki kd) s =
      .next (Claims.answered {} (s.setPid p { c with kp := kp, ki := ki, kd := kd })) :=
  accept_withInited_inited hs hc hi _

theorem exec_pidclr (hc : s.pid[p.toNat]? = some c) (hi : c.inited = true) :
    exec (.pidclr p) s = .next (Claims.answered {} (s.setPid p (pidZero c))) :=
  accept_withInited_inited hs hc hi _

theorem exec_pidcalc (hc : s.pid[p.toNat]? = some c) (hi : c.inited = true) (x y : F) :
    exec (.pidcalc p x y) s = .next
      (Claims.answered { r0 := (pidStep c x y).2 } (s.setPid p (pidStep c x y).1)) :=
  accept_withInited_inited hs hc hi _

section
variable (v : BitVec 1) {mo il : F} (db me kp ki kd : F)

theorem exec_pidinit_absent (hp : s.pid.length ≤ p.toNat) :
    exec (.pidinit p v mo il db me kp ki kd) s = .next (Claims.raised 1 s) :=
  (accept_ready false _ hs.1 hs.2).trans (withPid_none _ hp)

theorem exec_pidinit_limits (hp : p.toNat < s.pid.length)
    (hl : pidLimitOk mo = false ∨ pidLimitOk il = false) :
    exec (.pidinit p v mo il db me kp ki kd) s = .next (Claims.raised 5 s) := by
  refine (accept_ready false _ hs.1 hs.2).trans
    ((withPid_some _ (List.getElem?_eq_getElem hp)).trans ?_)
  by_cases hmo : pidLimitOk mo = false
  · exact if_pos hmo
  · exact (if_neg hmo).trans (if_pos (hl.resolve_left hmo))

theorem exec_pidinit_constructs (hp : p.toNat < s.pid.length) (hmo : pidLimitOk mo = true)
    (hil : pidLimitOk il = true) :
    exec (.pidinit p v mo il db me kp ki kd) s = .next (Claims.answered {}
      (s.setPid p (PidCtx.construct (variantOf v) mo il db me kp ki kd))) :=
  (accept_ready false _ hs.1 hs.2).trans
    ((withPid_some _ (List.getElem?_eq_getElem hp)).trans
      ((if_neg (by simp [hmo])).trans (if_neg (by simp [hil]))))

end

end

/-- Settles O48: index, then limits, then the constructed context. -/
theorem pidinitResult : Obligations.PidinitResult := by
  intro s p v mo il db me kp ki kd hs
  refine ⟨exec_pidinit_absent hs v db me kp ki kd, fun hp hbad => ?_, fun hp nmo hmo nil hil => ?_⟩
  · refine exec_pidinit_limits hs v db me kp ki kd hp ?_
    rwa [pidLimitOk_eq_false_iff, pidLimitOk_eq_false_iff, or_assoc]
  · rw [← variantOf_eq]
    exact exec_pidinit_constructs hs v db me kp ki kd hp (pidLimitOk_of_not_flt nmo hmo)
      (pidLimitOk_of_not_flt nil hil)

/-- Settles O49: the three operations make the checks of `withInited`. -/
theorem pidOperationsNeedInit : Obligations.PidOperationsNeedInit := by
  intro s p x y z hs
  refine ⟨fun hp => ?_, fun c hc hi => ?_⟩
  · have habsent := accept_withInited_absent hs hp
    exact ⟨habsent _, habsent _, habsent _⟩
  · have huninit := accept_withInited_uninit hs hc hi
    exact ⟨huninit _, huninit _, huninit _⟩

/-- Settles O50: `PIDGAIN` writes three fields, `PIDCLR` writes `pidZero`. -/
theorem pidgainAndPidclrResult : Obligations.PidgainAndPidclrResult :=
  fun _ _ _ kp ki kd hs hc hi => ⟨exec_pidgain hs hc hi kp ki kd, exec_pidclr hs hc hi⟩

/-- Settles O51: a gated step is its first part alone. -/
theorem pidcalcGatedKeepsHistory : Obligations.PidcalcGatedKeepsHistory := by
  intro s p c x y hs hc hi hgate
  rw [exec_pidcalc hs hc hi, pidStep_gated (pidGated_pidRecord_iff.2 hgate)]
  rfl

/-- Settles O52: no gate is open, so the step is the positional recurrence and the shift. -/
theorem pidcalcPositionalResult : Obligations.PidcalcPositionalResult := by
  rintro s p c x y e pout iout dout out hs hc hi hv rfl hmax hdead rfl rfl rfl rfl
  rw [exec_pidcalc hs hc hi, pidStep_positional (pidGated_pidRecord_eq_false hmax hdead) hv]
  rfl

theorem c2_eq_ofInt : c2 = ofInt 2 := by decide

/-- Settles O53: no gate is open, so the step is the incremental recurrence and the shift. -/
theorem pidcalcIncrementalResult : Obligations.PidcalcIncrementalResult := by
  rintro s p c x y e pout iout dout du out hs hc hi hv rfl hmax hdead rfl rfl rfl rfl rfl
  rw [exec_pidcalc hs hc hi, pidStep_incremental (pidGated_pidRecord_eq_false hmax hdead) hv,
    ← c2_eq_ofInt]
  rfl

/-! ## NaN in the recurrences (R198) -/

section
variable {a b : F}

theorem isNaN_fadd (h : isNaN a = true ∨ isNaN b = true) : isNaN (fadd a b) = true := by
  obtain ⟨-, -, -, -, -, hadd, -⟩ := nanPropagates a b h
  exact hadd

theorem isNaN_fsub (h : isNaN a = true ∨ isNaN b = true) : isNaN (fsub a b) = true := by
  obtain ⟨-, -, -, -, -, -, hsub, -⟩ := nanPropagates a b h
  exact hsub

theorem isNaN_fmul (h : isNaN a = true ∨ isNaN b = true) : isNaN (fmul a b) = true := by
  obtain ⟨-, -, -, -, -, -, -, hmul, -⟩ := nanPropagates a b h
  exact hmul

theorem isNaN_clampS (l : F) (h : isNaN a = true) : isNaN (clampS a l) = true := by
  rw [clampS_nan h, h]

end

section
variable {c : PidCtx} {x y : F}

/-- Comparisons with NaN are false, so a NaN error opens no gate. -/
theorem pidGated_pidRecord_of_nan (he : isNaN (fsub x y) = true) :
    pidGated (pidRecord c x y) = false :=
  pidGated_pidRecord_eq_false (.inr (by simp [fgt, flt, he])) (.inr (by simp [flt, he]))

theorem isNaN_pidPositional_iout (h : isNaN c.iout = true ∨ isNaN c.err.now = true) :
    isNaN (pidPositional c).iout = true :=
  isNaN_clampS _ (isNaN_fadd (h.imp_right fun he => isNaN_fmul (.inr he)))

theorem isNaN_pidPositional_posOut (h : isNaN (pidPositional c).iout = true) :
    isNaN (pidPositional c).posOut = true :=
  isNaN_clampS _ (isNaN_fadd (.inl (isNaN_fadd (.inr h))))

/-- The proportional term carries the NaN of the error to the output. -/
theorem isNaN_pidIncremental_deltaOut (he : isNaN c.err.now = true) :
    isNaN (pidIncremental c).deltaOut = true := by
  have hpout : isNaN (pidIncremental c).pout = true := isNaN_fmul (.inr (isNaN_fsub (.inl he)))
  exact isNaN_clampS _ (isNaN_fadd (.inr (isNaN_fadd (.inl (isNaN_fadd (.inl hpout))))))

/-- A step with a NaN error shifts the histories; the output is NaN in both variants. -/
theorem pidStep_of_nan (he : isNaN (fsub x y) = true) :
    isNaN (pidStep c x y).2 = true ∧ isNaN (pidStep c x y).1.err.last = true ∧
      (pidStep c x y).1.err.llast = c.err.last ∧
      (c.variant = .positional → isNaN (pidStep c x y).1.iout = true) := by
  have hg : pidGated (pidRecord c x y) = false := pidGated_pidRecord_of_nan he
  cases hv : c.variant with
  | positional =>
    have hiout : isNaN (pidPositional (pidRecord c x y)).iout = true :=
      isNaN_pidPositional_iout (.inr he)
    rw [pidStep_positional hg hv]
    exact ⟨isNaN_pidPositional_posOut hiout, he, rfl, fun _ => hiout⟩
  | incremental =>
    rw [pidStep_incremental hg hv]
    exact ⟨isNaN_pidIncremental_deltaOut he, he, rfl, nofun⟩

theorem pidStep_of_nan_iout (hv : c.variant = .positional) (hiout : isNaN c.iout = true)
    (hg : pidGated (pidRecord c x y) = false) :
    isNaN (pidStep c x y).2 = true ∧ isNaN (pidStep c x y).1.iout = true := by
  have hiout' : isNaN (pidPositional (pidRecord c x y)).iout = true :=
    isNaN_pidPositional_iout (.inl hiout)
  rw [pidStep_positional hg hv]
  exact ⟨isNaN_pidPositional_posOut hiout', hiout'⟩

end

/-- Settles O56: a NaN error passes the gates, and the clamps keep the NaN of the accumulator. -/
theorem nanInPidIsNeverGated : Obligations.NanInPidIsNeverGated := by
  intro s p c x y hs hc hi
  have hexec := exec_pidcalc hs hc hi x y
  have hresp := (hs.setPid p (pidStep c x y).1).answered_responses { r0 := (pidStep c x y).2 }
  have hself := s.setPid_self (pidStep c x y).1 (List.getElem?_eq_some_iff.1 hc).1
  refine ⟨fun hnan => ?_, fun hv hiout hmax hdead => ?_⟩
  · obtain ⟨hout, hlast, hllast, hacc⟩ := pidStep_of_nan (c := c) (isNaN_fsub hnan)
    exact ⟨_, _, _, hexec, hresp, hs.1, hout, hself, hlast, hllast, hacc⟩
  · obtain ⟨hout, hacc⟩ :=
      pidStep_of_nan_iout hv hiout (pidGated_pidRecord_eq_false hmax hdead)
    exact ⟨_, _, _, hexec, hresp, hout, hself, hacc⟩

/-! ## Values that rounding keeps -/

theorem isFinite_or_isInf {x : F} (hx : isNaN x = false) : isFinite x = true ∨ isInf x = true := by
  simp only [isNaN, decide_eq_false_iff_not] at hx
  simp only [isFinite, isInf, decide_eq_true_eq, beq_iff_eq]
  omega

theorem not_nan_of_isInf {x : F} (hx : isInf x = true) : isNaN x = false := by
  have hmag : fmag x = infMag := by simpa [isInf] using hx
  simp [isNaN, hmag]

theorem not_finite_of_nan {x : F} (hx : isNaN x = true) : isFinite x = false :=
  Bool.eq_false_iff.2 fun hfin => absurd hx (Bool.eq_false_iff.1 (not_nan_of_finite hfin).1)

theorem abs_realValue_lt_overflowBound {x : F} (hx : isFinite x = true) :
    |realValue x| < overflowBound := by
  have hmag : fmag x < infMag := by simpa [isFinite] using hx
  have hle : (magUnits (fmag x) : ℚ) ≤ magUnits (infMag - 1) := cast_magUnits_le (by omega)
  have hlt : (magUnits (infMag - 1) : ℚ) < magUnits infMag := cast_magUnits_lt (by decide)
  rw [abs_realValue, ← not_le, overflowBound_le_iff]
  linarith

section
variable {q : ℚ} {r x : F}

theorem not_nan_of_roundsTo (h : RoundsTo q r) : isNaN r = false := by
  rcases h with ⟨-, hfin, -⟩ | ⟨-, hinf, -⟩
  · exact (not_nan_of_finite hfin).1
  · exact not_nan_of_isInf hinf

/-- What is no larger than a float does not round to infinity. -/
theorem isFinite_of_roundsTo (h : RoundsTo q r) (hx : isFinite x = true)
    (hq : |q| ≤ |realValue x|) : isFinite r = true := by
  rcases h with ⟨-, hfin, -⟩ | ⟨hbound, -⟩
  · exact hfin
  · exact absurd (hbound.trans hq) (abs_realValue_lt_overflowBound hx).not_ge

/-- What is the value of a float is kept. -/
theorem realValue_of_roundsTo (hx : isFinite x = true) (h : RoundsTo (realValue x) r) :
    realValue r = realValue x := by
  rcases h with ⟨-, -, hnear, -⟩ | ⟨hbound, -⟩
  · have hdist := hnear x hx
    rw [sub_self, abs_zero, abs_nonpos_iff, sub_eq_zero] at hdist
    exact hdist
  · exact absurd hbound (abs_realValue_lt_overflowBound hx).not_ge

end

/-! ## Zeros of either sign -/

theorem isZero_iff_orderKey {x : F} : isZero x = true ↔ orderKey x = 0 := by
  rw [isZero, beq_iff_eq, ← natAbs_orderKey, Int.natAbs_eq_zero]

theorem realValue_zero : realValue 0 = 0 := by
  rw [realValue_eq_signedUnits, show signedUnits 0 = 0 by decide, Int.cast_zero, zero_mul]

theorem isZero_iff_realValue {x : F} : isZero x = true ↔ realValue x = 0 := by
  rw [isZero_iff_orderKey, ← realValue_zero, realValue_inj_iff, show orderKey 0 = 0 by decide]

theorem isFinite_of_isZero {x : F} (hx : isZero x = true) : isFinite x = true :=
  (isFinite_or_isInf (not_nan_of_isZero hx)).resolve_right fun hinf => by
    have hmag : fmag x = 0 := by simpa [isZero] using hx
    simp [isInf, hmag, infMag] at hinf

theorem isZero_of_roundsTo_zero {r : F} (h : RoundsTo 0 r) : isZero r = true := by
  rw [← realValue_zero] at h
  rw [isZero_iff_realValue, realValue_of_roundsTo (by decide) h, realValue_zero]

section
variable {a b : F}

theorem isZero_fmul_left (ha : isZero a = true) (hb : isFinite b = true) :
    isZero (fmul a b) = true := by
  have hround := roundsTo_fmul (isFinite_of_isZero ha) hb
  rw [isZero_iff_realValue.1 ha, zero_mul] at hround
  exact isZero_of_roundsTo_zero hround

theorem isZero_fmul_right (ha : isFinite a = true) (hb : isZero b = true) :
    isZero (fmul a b) = true := by
  have hround := roundsTo_fmul ha (isFinite_of_isZero hb)
  rw [isZero_iff_realValue.1 hb, mul_zero] at hround
  exact isZero_of_roundsTo_zero hround

theorem isZero_fsub_self (ha : isFinite a = true) : isZero (fsub a a) = true := by
  have hround := roundsTo_fsub ha ha
  rw [sub_self] at hround
  exact isZero_of_roundsTo_zero hround

theorem isZero_clampS {l : F} (ha : isZero a = true) (hl : pidLimitOk l = true) :
    isZero (clampS a l) = true := by
  obtain ⟨-, hkey⟩ := clampS_key (not_nan_of_isZero ha) hl
  have hpos := (pidLimitOk_iff.1 hl).2
  have hzero := orderKey_of_isZero ha
  rw [isZero_iff_orderKey]
  omega

theorem fadd_of_isInf_left (ha : isInf a = true) (hb : isFinite b = true) : fadd a b = a := by
  obtain ⟨nb, ib⟩ := not_nan_of_finite hb
  simp [fadd, sumOf, not_nan_of_isInf ha, nb, ha, ib]

theorem fadd_of_isInf_right (ha : isFinite a = true) (hb : isInf b = true) : fadd a b = b := by
  obtain ⟨na, ia⟩ := not_nan_of_finite ha
  simp [fadd, sumOf, na, not_nan_of_isInf hb, ia, hb]

theorem not_nan_zero_fadd (ha : isZero a = true) (hb : isNaN b = false) :
    isNaN (fadd a b) = false := by
  rcases isFinite_or_isInf hb with hfin | hinf
  · exact not_nan_of_roundsTo (roundsTo_fadd (isFinite_of_isZero ha) hfin)
  · rw [fadd_of_isInf_right (isFinite_of_isZero ha) hinf, hb]

/-- Adding a zero keeps the value, also that of an infinity. -/
theorem fadd_zero_key (ha : isNaN a = false) (hb : isZero b = true) :
    isNaN (fadd a b) = false ∧ orderKey (fadd a b) = orderKey a := by
  rcases isFinite_or_isInf ha with hfin | hinf
  · have hround := roundsTo_fadd hfin (isFinite_of_isZero hb)
    rw [isZero_iff_realValue.1 hb, add_zero] at hround
    exact ⟨not_nan_of_roundsTo hround,
      realValue_inj_iff.1 (realValue_of_roundsTo hfin hround)⟩
  · rw [fadd_of_isInf_left hinf (isFinite_of_isZero hb)]
    exact ⟨ha, rfl⟩

theorem isFinite_fsub_zero (ha : isFinite a = true) (hb : isZero b = true) :
    isFinite (fsub a b) = true := by
  have hround := roundsTo_fsub ha (isFinite_of_isZero hb)
  rw [isZero_iff_realValue.1 hb, sub_zero] at hround
  exact isFinite_of_roundsTo hround ha le_rfl

theorem isFinite_fadd_zero (ha : isFinite a = true) (hb : isZero b = true) :
    isFinite (fadd a b) = true := by
  have hround := roundsTo_fadd ha (isFinite_of_isZero hb)
  rw [isZero_iff_realValue.1 hb, add_zero] at hround
  exact isFinite_of_roundsTo hround ha le_rfl

/-- The difference of two floats of one sign is no larger than one of them. -/
theorem isFinite_fsub_of_fsign_eq (ha : isFinite a = true) (hb : isFinite b = true)
    (hs : fsign a = fsign b) : isFinite (fsub a b) = true := by
  have hround := roundsTo_fsub ha hb
  have hdist : |realValue a - realValue b| = |(|realValue a| - |realValue b|)| := by
    rw [abs_realValue, abs_realValue, realValue_eq_sign_mag, realValue_eq_sign_mag, hs, mul_assoc,
      mul_assoc, ← mul_sub, abs_mul, abs_signFactor, one_mul]
  have ha0 := abs_nonneg (realValue a)
  have hb0 := abs_nonneg (realValue b)
  rcases le_total |realValue a| |realValue b| with hle | hle
  · refine isFinite_of_roundsTo hround hb ?_
    rw [hdist, abs_le]
    constructor <;> linarith
  · refine isFinite_of_roundsTo hround ha ?_
    rw [hdist, abs_le]
    constructor <;> linarith

/-- An infinite factor makes the product infinite or NaN. -/
theorem not_finite_fmul_of_isInf (hb : isInf b = true) : isFinite (fmul a b) = false := by
  unfold fmul
  split
  · exact not_finite_of_nan (isNaN_nanResult _ _ _)
  · split
    · exact not_finite_of_nan (isNaN_nanResult _ _ _)
    · rw [if_pos (by rw [hb, Bool.or_true]), isFinite, fmag_ofSignMag (by decide)]
      decide

theorem isFinite_right_of_fmul (h : isFinite (fmul a b) = true) : isFinite b = true := by
  have nb : isNaN b = false := Bool.eq_false_iff.2 fun hb =>
    absurd h (Bool.eq_false_iff.1 (not_finite_of_nan (isNaN_fmul (.inr hb))))
  exact (isFinite_or_isInf nb).resolve_right fun hb =>
    absurd h (Bool.eq_false_iff.1 (not_finite_fmul_of_isInf hb))

end

/-! ## The repeated call of a proportional incremental controller (R196) -/

/-- A clamped value to which a zero is added is clamped to the same value. -/
theorem feq_clampS_fadd_zero {a z l : F} (ha : isNaN a = false) (hz : isZero z = true)
    (hl : pidLimitOk l = true) :
    feq (clampS a l) (clampS (fadd (clampS a l) z) l) = true := by
  obtain ⟨nout, kout⟩ := clampS_key ha hl
  obtain ⟨nsum, ksum⟩ := fadd_zero_key nout hz
  obtain ⟨nout', kout'⟩ := clampS_key nsum hl
  have hpos := (pidLimitOk_iff.1 hl).2
  rw [feq_iff nout nout']
  omega

/-- Without integral and derivative gain the increment has the value of the proportional term, where
the second difference is finite. -/
theorem pidIncremental_deltaU_key {c : PidCtx} (hki : c.ki = 0) (hkd : c.kd = 0)
    (hil : pidLimitOk c.intLim = true) (hll : c.err.llast = 0) (he : isFinite c.err.now = true)
    (hd : isFinite (fsub c.err.now (fmul c2 c.err.last)) = true)
    (hp : isNaN (pidIncremental c).pout = false) :
    isNaN (pidIncremental c).deltaU = false ∧
      orderKey (pidIncremental c).deltaU = orderKey (pidIncremental c).pout := by
  have hiout : isZero (pidIncremental c).iout = true :=
    isZero_clampS (isZero_fmul_left (by rw [hki]; decide) he) hil
  have hdout : isZero (pidIncremental c).dout = true :=
    isZero_fmul_left (by rw [hkd]; decide) (isFinite_fadd_zero hd (by rw [hll]; decide))
  obtain ⟨nsum, ksum⟩ := fadd_zero_key hp hiout
  obtain ⟨ndelta, kdelta⟩ := fadd_zero_key nsum hdout
  exact ⟨ndelta, kdelta.trans ksum⟩

/-- A cleared incremental controller without gates that has a proportional gain only. -/
def PidCtx.proportional (mo il kp : F) : PidCtx :=
  PidCtx.construct .incremental mo il 0 0 kp 0 0

/-- A zero threshold turns its gate off (R188, R189). -/
theorem pidStep_incremental_of_no_gates {c : PidCtx} {x y : F} (hv : c.variant = .incremental)
    (hmax : c.maxErr = 0) (hdead : c.deadBand = 0) :
    pidStep c x y = (pidShift (pidIncremental (pidRecord c x y)),
      (pidIncremental (pidRecord c x y)).deltaOut) :=
  pidStep_incremental
    (pidGated_pidRecord_eq_false (.inl (by rw [hmax]; decide)) (.inl (by rw [hdead]; decide))) hv

theorem fsign_fmul_c2 {e : F} (he : isFinite e = true) : fsign (fmul c2 e) = fsign e := by
  rw [fmul_finite (by decide) he, fsign_ofSignMag (roundMag_lt _ _), show fsign c2 = false by decide,
    Bool.false_bne]

section
variable {mo il kp x y : F} (hmo : pidLimitOk mo = true) (hil : pidLimitOk il = true)
  (hkp : isFinite kp = true) (hdouble : isFinite (fmul c2 (fsub x y)) = true)

include hil hkp hdouble in
/-- The first increment is a number, or an infinity. -/
theorem not_nan_first_deltaU :
    isNaN (pidIncremental (pidRecord (PidCtx.proportional mo il kp) x y)).deltaU = false := by
  have he : isFinite (fsub x y) = true := isFinite_right_of_fmul hdouble
  have hpout : isNaN (fmul kp (fsub (fsub x y) 0)) = false :=
    not_nan_of_roundsTo (roundsTo_fmul hkp (isFinite_fsub_zero he (by decide)))
  have hdiff : isFinite (fsub (fsub x y) (fmul c2 0)) = true :=
    isFinite_fsub_zero he (isZero_fmul_right (by decide) (by decide))
  obtain ⟨hnan, -⟩ := pidIncremental_deltaU_key (c := pidRecord (PidCtx.proportional mo il kp) x y)
    rfl rfl hil rfl he hdiff hpout
  exact hnan

include hil hkp hdouble in
/-- The second call's error has not changed, so its increment is a zero. -/
theorem isZero_second_deltaU :
    isZero (pidIncremental (pidRecord (pidShift (pidIncremental
      (pidRecord (PidCtx.proportional mo il kp) x y))) x y)).deltaU = true := by
  have he : isFinite (fsub x y) = true := isFinite_right_of_fmul hdouble
  have hpout : isZero (fmul kp (fsub (fsub x y) (fsub x y))) = true :=
    isZero_fmul_right hkp (isZero_fsub_self he)
  have hdiff : isFinite (fsub (fsub x y) (fmul c2 (fsub x y))) = true :=
    isFinite_fsub_of_fsign_eq he hdouble (fsign_fmul_c2 he).symm
  obtain ⟨-, hkey⟩ := pidIncremental_deltaU_key (c := pidRecord (pidShift (pidIncremental
    (pidRecord (PidCtx.proportional mo il kp) x y))) x y)
    rfl rfl hil rfl he hdiff (not_nan_of_isZero hpout)
  exact isZero_iff_orderKey.2 (hkey.trans (orderKey_of_isZero hpout))

include hmo hil hkp hdouble in
/-- The first output is the clamped increment; the second call adds a zero to it and clamps again. -/
theorem feq_pidStep_twice :
    feq (pidStep (PidCtx.proportional mo il kp) x y).2
      (pidStep (pidStep (PidCtx.proportional mo il kp) x y).1 x y).2 = true := by
  rw [pidStep_incremental_of_no_gates (c := PidCtx.proportional mo il kp) rfl rfl rfl,
    pidStep_incremental_of_no_gates (c := pidShift _) rfl rfl rfl]
  exact feq_clampS_fadd_zero
    (not_nan_zero_fadd (a := 0) (by decide) (not_nan_first_deltaU hil hkp hdouble))
    (isZero_second_deltaU hil hkp hdouble) hmo

end

/-- A call finds the context that the operation before it wrote. -/
theorem exec_pidcalc_written {s : State} (hs : Ready s) {p : BitVec 8} (hp : p.toNat < s.pid.length)
    {c : PidCtx} (hi : c.inited = true) (r : Response) (x y : F) :
    exec (.pidcalc p x y) (Claims.answered r (s.setPid p c)) =
      .next (Claims.answered { r0 := (pidStep c x y).2 }
        ((Claims.answered r (s.setPid p c)).setPid p (pidStep c x y).1)) :=
  exec_pidcalc ((hs.setPid p c).answered r) (s.setPid_self c hp) hi x y

/-- Settles O54: the three operations in a row, each on the context of the one before. -/
theorem proportionalIncrementalIsSteady : Obligations.ProportionalIncrementalIsSteady := by
  intro s p kp mo il x y hs hp hmo hil hkp hdouble
  have hinit := exec_pidinit_constructs hs 1 0 0 kp 0 0 hp hmo hil
  have hcalc := exec_pidcalc_written hs hp (c := PidCtx.proportional mo il kp) rfl {} x y
  have hready := (hs.setPid p (PidCtx.proportional mo il kp)).answered {}
  have hp' := hp.trans_eq (s.setPid_length p (PidCtx.proportional mo il kp)).symm
  have hinited : (pidStep (PidCtx.proportional mo il kp) x y).1.inited = true := pidStep_inited _ x y
  have hcalc' := exec_pidcalc_written hready hp' hinited
    { r0 := (pidStep (PidCtx.proportional mo il kp) x y).2 } x y
  have hready' := (hready.setPid p (pidStep (PidCtx.proportional mo il kp) x y).1).answered
    { r0 := (pidStep (PidCtx.proportional mo il kp) x y).2 }
  exact ⟨_, _, _, _, _, hinit, hcalc, hcalc', (hready.setPid p _).answered_responses _,
    (hready'.setPid p _).answered_responses _,
    feq_pidStep_twice hmo hil hkp (c2_eq_ofInt ▸ hdouble)⟩

end Sys2Proof.Machine
end

section
/-! PROOFS. Faults and refusals (60_exceptions.md): a faulted block, commands that stand for no
operation, and which of fault, refusal and completion each operation ends in. -/

namespace Sys2Proof.Machine

/-! ## A turn that takes a whole command (R49, R60) -/

/-- The words of one port replaced leave those of the other. -/
theorem State.words_setWords_ne (s : State) {p q : Port} (ws : List Word) (h : q ≠ p) :
    (s.setWords p ws).words q = s.words q := by
  cases p <;> cases q
  · exact absurd rfl h
  · rfl
  · rfl
  · exact absurd rfl h

/-- Nothing but the words of the two ports is replaced. -/
theorem State.setWords_eq (s : State) (p : Port) (ws : List Word) :
    s.setWords p ws =
      { s with fgIn := (s.setWords p ws).fgIn, rxIn := (s.setWords p ws).rxIn } := by
  cases p <;> rfl

theorem step_idle {s : State} (h : s.turns = []) : step s = .next s := by
  rw [step, h]

/-- A turn of a port on which a whole command waits performs that command, legal or not. -/
theorem step_takes {s : State} {p : Port} {ts : List Turn} {cmd rest : List Word}
    (hturns : s.turns = .command p :: ts) (hnext : nextCommand (s.words p) = some (cmd, rest)) :
    step s = perform cmd { ({ s with turns := ts }).setWords p rest with port := p } := by
  rw [step_command hturns, stepCommand_takes (by rwa [State.words_withTurns])]

/-! ## A faulted block (R201) -/

/-- Settles O10: a faulted block looks at no command. -/
theorem faultedBlockRejectsCommands : Obligations.FaultedBlockRejectsCommands := by
  refine ⟨fun i s hf => exec_faulted i hf, fun s p ts cmd rest hf hturns hnext => ?_⟩
  rw [step_takes hturns hnext, perform_faulted cmd (by simpa using hf), State.respond,
    State.setWords_responses]

/-- Settles O11: without the reset input, the block waits or rejects. -/
theorem onlyResetLeavesFault : Obligations.OnlyResetLeavesFault := by
  intro s t hf hreset hstep
  cases hturns : s.turns with
  | nil =>
    rw [step_idle hturns] at hstep
    cases hstep
    exact ⟨rfl, rfl, rfl, rfl, rfl, rfl, rfl, rfl⟩
  | cons turn ts =>
    cases turn with
    | reset => exact absurd hturns (hreset ts)
    | command p =>
      cases hnext : nextCommand (s.words p) with
      | none =>
        rw [step_command hturns, stepCommand_waits (by rwa [State.words_withTurns])] at hstep
        cases hstep
        exact ⟨rfl, rfl, rfl, rfl, rfl, rfl, rfl, rfl⟩
      | some taken =>
        rw [step_takes hturns hnext, perform_faulted _ (by simpa using hf)] at hstep
        cases hstep
        simp

/-! ## A command that stands for no operation (R66, R204) -/

theorem perform_illegal_raises {cmd : List Word} {e : Reject} {s : State}
    (hdec : decode cmd = .error e) (hf : s.fault = 0) :
    perform cmd s = .next (Claims.raised 1 s) :=
  (perform_illegal s hdec).trans (accept_decode _ hf)

/-- Settles O7: `ILLEGAL_COMMAND` is raised in the state whose port has lost the command's words. -/
theorem illegalCommandRaisesCauseOne : Obligations.IllegalCommandRaisesCauseOne := by
  intro s p ts e cmd rest hturns hnext hdec hf
  refine ⟨_, (step_takes hturns hnext).trans (perform_illegal_raises hdec (by simpa using hf)),
    rfl, ?_, State.words_setWords _ p rest,
    fun q hq => (State.words_setWords_ne _ rest hq).trans (s.words_withTurns ts q), ?_⟩
  · rw [Claims.raised, State.setWords_responses]
  · rw [State.setWords_eq]
    rfl

/-! ## A block that is not ready (R201, R204) -/

/-- A faulted block rejects; the receive port takes `DECODE`, which never stops, and raises
`ILLEGAL_COMMAND` for every other operation. -/
theorem exec_next_of_not_ready (i : Instr) {s : State} (hs : ¬Ready s) :
    ∃ t, exec i s = .next t := by
  by_cases hf : s.fault = 0
  case neg => exact ⟨_, exec_faulted i hf⟩
  have hp : s.port = .rx := by
    cases hport : s.port with
    | fg => exact absurd ⟨hf, hport⟩ hs
    | rx => rfl
  cases hi : isDecode i with
  | false => exact ⟨_, exec_rx hf hp hi⟩
  | true =>
    obtain ⟨a, fmt, w0, w1, rfl⟩ := eq_decode_of_isDecode hi
    rcases exec_decode_cases a fmt w0 w1 hf with ⟨-, d, heq⟩ | ⟨-, heq⟩
    · exact ⟨_, heq⟩
    · exact ⟨_, heq⟩

/-! ## What an operation ends in on a ready block (R202, R203, R211) -/

/-- What an operation answers by its fault condition and its refuse condition: the fault comes
first, then the refusal, and where neither holds a next state in which `FAULT` is as it was. -/
inductive Verdict (s : State) : Option Cause → Option Refusal → Result → Prop
  | faults (c : Cause) (r : Option Refusal) : Verdict s (some c) r (raise c s)
  | refuses (r : Refusal) : Verdict s none (some r) (.refused r)
  | completes {t : State} (ht : t.fault = s.fault) : Verdict s none none (.next t)

section
variable {s : State} {f : Option Cause} {r : Option Refusal} {a b : Result}

theorem Verdict.eq_raise {c : Cause} (h : Verdict s (some c) r a) : a = raise c s := by
  cases h
  rfl

theorem Verdict.eq_refused {q : Refusal} (h : Verdict s none (some q) a) : a = .refused q := by
  cases h
  rfl

theorem Verdict.exists_next (h : Verdict s none none a) :
    ∃ t, a = .next t ∧ t.fault = s.fault := by
  cases h with
  | completes ht => exact ⟨_, rfl, ht⟩

theorem Verdict.of_refused {q : Refusal} (h : Verdict s f r (.refused q)) :
    f = none ∧ r = some q := by
  cases h
  exact ⟨rfl, rfl⟩

theorem Verdict.ne_fault (h : Verdict s f r a) (e : Fault) : a ≠ .fault e := by
  cases h <;> exact nofun

/-- A test whose first branch raises a fault. -/
theorem Verdict.ite_fault {p : Prop} [Decidable p] (c : Cause) (h : ¬p → Verdict s f r a) :
    Verdict s (if p then some c else f) r (if p then raise c s else a) := by
  split
  · exact .faults c r
  · exact h ‹_›

/-- A test, behind all faults, whose first branch refuses. -/
theorem Verdict.ite_refusal {p : Prop} [Decidable p] (q : Refusal) (h : ¬p → Verdict s none r a) :
    Verdict s none (if p then some q else r) (if p then .refused q else a) := by
  split
  · exact .refuses q
  · exact h ‹_›

/-- A test that chooses between two ways to complete. -/
theorem Verdict.ite {p : Prop} [Decidable p] (ha : Verdict s f r a) (hb : Verdict s f r b) :
    Verdict s f r (if p then a else b) := by
  split
  · exact ha
  · exact hb

theorem Verdict.accept (hs : Ready s) (rxOk : Bool) (h : Verdict s f r a) :
    Verdict s f r (accept rxOk s a) := by
  rwa [accept_ready rxOk a hs.1 hs.2]

/-- A float command: NaN is its only refuse condition (R122). -/
theorem Verdict.servoFloat (hs : Ready s) (x : F) (h : Verdict s none r a) :
    Verdict s none (if isNaN x then some .nanOperand else r) (servoFloat x s a) :=
  .accept hs _ <| .ite_refusal _ fun _ => h

theorem verdict_send (id : BitVec 29) (ext : BitVec 1) (bytes : List Byte) :
    Verdict s none none (send id ext bytes s) :=
  .completes rfl

theorem verdict_fbWrite {bytes : List Byte} (h : ¬8 < s.cur.toNat + bytes.length) :
    Verdict s none none (fbWrite bytes s) := by
  rw [fbWrite_eq bytes (by omega)]
  exact .completes rfl

/-- An operation that names a model: index 7 is unknown (R206). -/
theorem verdict_model {model : BitVec 3}
    (hnone : modelIndex model = none → a = raise .cfgModel s)
    (hsome : ∀ m, modelIndex model = some m → Verdict s none r a) :
    Verdict s (if model = 7 then some .cfgModel else none) r a := by
  split
  next h =>
    rw [hnone (h ▸ modelIndex_seven)]
    exact .faults _ _
  next h =>
    obtain ⟨m, hm, -⟩ := modelIndex_some h
    exact hsome m hm

/-- An operation on a PID context: the index is checked first (R204 (f)). -/
theorem verdict_withPid (p : BitVec 8) {body : PidCtx → Result}
    (h : ∀ c, s.pid[p.toNat]? = some c → Verdict s f r (body c)) :
    Verdict s (if s.pid.length ≤ p.toNat then some .illegalCommand else f) r
      (withPid p s body) := by
  split
  next hp =>
    rw [withPid_none body hp]
    exact .faults _ _
  next hp =>
    have hc := List.getElem?_eq_getElem (Nat.not_le.1 hp)
    rw [withPid_some body hc]
    exact h _ hc

theorem initedPid_of_getElem? {p : BitVec 8} {c : PidCtx} (hc : s.pid[p.toNat]? = some c) :
    initedPid p s = c.inited := by
  rw [initedPid, hc]

/-- An operation on an initialised PID context: index, then initialisation (R210, R211). -/
theorem verdict_withInited (p : BitVec 8) {body : PidCtx → Result}
    (h : ∀ c, Verdict s none r (body c)) : Verdict s (pidCause p s) r (withInited p s body) := by
  refine verdict_withPid p fun c hc => ?_
  rw [initedPid_of_getElem? hc]
  split
  · exact h c
  · exact .faults _ _

/-- The two limits of `PIDINIT` raise the same cause (R183, R209). -/
theorem verdict_pidLimits (mo il : F) (h : Verdict s none r a) :
    Verdict s (if pidLimitOk mo && pidLimitOk il then none else some .cfgPid) r
      (if pidLimitOk mo = false then raise .cfgPid s
        else if pidLimitOk il = false then raise .cfgPid s else a) := by
  cases pidLimitOk mo with
  | false => exact .faults _ _
  | true =>
    cases pidLimitOk il with
    | false => exact .faults _ _
    | true => exact h

end

section
variable {s : State} (hs : Ready s)
include hs

theorem verdict_execMitcmd (a : BitVec 8) (model : BitVec 3) (p v kp kd t : F) :
    Verdict s (faultOf (.mitcmd a model p v kp kd t) s) (refusalOf (.mitcmd a model p v kp kd t) s)
      (execMitcmd a model p v kp kd t s) := by
  refine verdict_model (fun hm => ?_) fun m hm => ?_
  · rw [execMitcmd_unknown hm, accept_ready _ _ hs.1 hs.2]
  · rw [execMitcmd_row hm]
    exact .accept hs _ <| .ite_refusal _ fun _ => verdict_send _ _ _

theorem verdict_execDevreg (a : BitVec 8) (model : BitVec 3) :
    Verdict s (faultOf (.devreg a model) s) none (execDevreg a model s) := by
  refine verdict_model (fun hm => ?_) fun m hm => ?_
  · rw [execDevreg_unknown hm, accept_ready _ _ hs.1 hs.2]
  · rw [execDevreg_row hm]
    exact .accept hs _ <| .ite (.completes rfl) (.completes rfl)

/-- `faultOf` and `refusalOf` make the tests of each operation in the operation's own order. -/
theorem verdict_exec (i : Instr) : Verdict s (faultOf i s) (refusalOf i s) (exec i s) := by
  cases i with
  | f2x =>
    exact .accept hs _ <| .ite_fault _ fun _ => .ite_fault _ fun _ =>
      .ite_refusal _ fun _ => .completes rfl
  | x2f =>
    exact .accept hs _ <| .ite_fault _ fun _ => .ite_fault _ fun _ => .completes rfl
  | app16 | app32 => exact .accept hs _ <| .ite_refusal _ fun hfit => verdict_fbWrite hfit
  | fbrst | fbrd => exact .accept hs _ <| .completes rfl
  | svduty | svcur | svbrk | svrpm | svpos => exact .servoFloat hs _ <| verdict_send _ _ _
  | svorg => exact .accept hs _ <| .ite_fault _ fun _ => verdict_send _ _ _
  | svpsa => exact .servoFloat hs _ <| .ite_refusal _ fun _ => verdict_send _ _ _
  | mitent | mitorg | mitext => exact .accept hs _ <| verdict_send _ _ _
  | mitcmd a model p v kp kd t => exact verdict_execMitcmd hs a model p v kp kd t
  | decode | tlmsnap | devunreg | devfind =>
    exact .accept hs _ <| .ite (.completes rfl) (.completes rfl)
  | tlmrd =>
    exact .accept hs _ <| .ite_fault _ fun _ => .ite (.completes rfl) (.completes rfl)
  | devreg a model => exact verdict_execDevreg hs a model
  | pidinit p variant mo il =>
    exact .accept hs _ <| verdict_withPid p fun _ _ => verdict_pidLimits mo il (.completes rfl)
  | pidgain p | pidclr p | pidcalc p =>
    exact .accept hs _ <| verdict_withInited p fun _ => .completes rfl

end

/-- Settles O13: the fault is the first of the three verdicts. -/
theorem faultConditionsRaiseTheirCause : Obligations.FaultConditionsRaiseTheirCause := by
  intro i s c hs hfault
  have hverdict := verdict_exec hs i
  rw [hfault] at hverdict
  exact hverdict.eq_raise

/-- Where no fault condition holds, the operation is refused as its refuse condition says. -/
theorem exec_refused_iff {i : Instr} {s : State} (hs : Ready s) (r : Refusal) :
    exec i s = .refused r ↔ faultOf i s = none ∧ refusalOf i s = some r := by
  have hverdict := verdict_exec hs i
  constructor
  · intro h
    rw [h] at hverdict
    exact hverdict.of_refused
  · rintro ⟨hfault, hrefusal⟩
    rw [hfault, hrefusal] at hverdict
    exact hverdict.eq_refused

/-- An operation that meets neither condition completes, and `FAULT` stays 0. -/
theorem exec_completes {i : Instr} {s : State} (hs : Ready s) (hfault : faultOf i s = none)
    (hrefusal : refusalOf i s = none) : ∃ t, exec i s = .next t ∧ t.fault = 0 := by
  have hverdict := verdict_exec hs i
  rw [hfault, hrefusal] at hverdict
  rw [← hs.1]
  exact hverdict.exists_next

/-- Settles O14: on a ready block by the verdict; on any other there is a next state. -/
theorem refusedExactlyWhereSpecRefuses : Obligations.RefusedExactlyWhereSpecRefuses := by
  intro i s
  by_cases hs : Ready s
  case neg =>
    obtain ⟨t, ht⟩ := exec_next_of_not_ready i hs
    exact ⟨fun r => ⟨fun h => absurd (ht.symm.trans h) nofun, fun h => absurd h.1 hs⟩,
      fun _ => ⟨t, ht⟩⟩
  refine ⟨fun r => (exec_refused_iff hs r).trans (and_iff_right hs).symm, fun h => ?_⟩
  cases hfault : faultOf i s with
  | some c => exact ⟨_, faultConditionsRaiseTheirCause i s c hs hfault⟩
  | none =>
    have hrefusal : refusalOf i s = none :=
      (h.resolve_left (not_not_intro hs)).resolve_left (not_not_intro hfault)
    obtain ⟨t, ht, -⟩ := exec_completes hs hfault hrefusal
    exact ⟨t, ht⟩

/-- An operation that raises leaves a fault behind, and all else that it can do answers with status
0 on the command's port (R200, R215). -/
theorem Did.answers_of_no_fault {s t : State} (hdid : Did s t) (ht : t.fault = 0) :
    ∃ r, t.responses = (s.port, r) :: s.responses ∧ r.st = 0 ∧ t.limits = s.limits ∧
      t.port = s.port ∧ t.turns = s.turns ∧ t.fgIn = s.fgIn ∧ t.rxIn = s.rxIn ∧
      t.pid.length = s.pid.length := by
  cases hdid with
  | raised c => exact absurd ht c.code_range.1
  | answered r hst | device a d r hst => exact ⟨r, rfl, hst, rfl, rfl, rfl, rfl, rfl, rfl⟩
  | buffer | sent => exact ⟨_, rfl, rfl, rfl, rfl, rfl, rfl, rfl, rfl⟩
  | pid p c r hst => exact ⟨r, rfl, hst, rfl, rfl, rfl, rfl, rfl, s.setPid_length p c⟩

/-- Settles O15: the verdict says that `FAULT` is 0 after the operation, so it was no fault that it
answered with. -/
theorem everyOperationCompletes : Obligations.EveryOperationCompletes := by
  intro i s hs hfault hrefusal
  obtain ⟨t, ht, hzero⟩ := exec_completes hs hfault hrefusal
  rcases exec_next_cases ht with ⟨hne, -⟩ | ⟨-, hdid⟩
  · exact absurd hs.1 hne
  obtain ⟨r, hresp, hst, hframe⟩ := hdid.answers_of_no_fault hzero
  exact ⟨t, r, ht, hzero, hs.2 ▸ hresp, hst, hframe⟩

/-- Settles O16: no verdict is a fault of the model. -/
theorem noOperationStopsWithFault : Obligations.NoOperationStopsWithFault := by
  intro i s f
  by_cases hs : Ready s
  · exact (verdict_exec hs i).ne_fault f
  · obtain ⟨t, ht⟩ := exec_next_of_not_ready i hs
    rw [ht]
    exact nofun

end Sys2Proof.Machine
end

section
/-! PROOFS. The reset input (70_reset_and_hazards.md): the step that takes its turn. -/

namespace Sys2Proof.Machine

/-- The turn of the reset input is consumed, and the block takes its reset values (R220). -/
theorem step_reset {s : State} {ts : List Turn} (h : s.turns = .reset :: ts) :
    step s = .next (resetBlock { s with turns := ts }) := by
  rw [step, h]

/-- After the reset input every byte of the frame buffer reads 0 (R38). -/
@[simp] theorem resetBlock_fbByte (s : State) (i : Nat) : (resetBlock s).fbByte i = 0 := rfl

/-- The device table after the reset input is that of the reset state, whatever it held before. -/
theorem resetBlock_device_eq_reset (s : State) (a : BitVec 8) :
    (resetBlock s).device a = State.reset.device a := by
  rw [← resetBlock_reset, resetBlock_device, resetBlock_device]

/-- The reset input keeps `N_PID` (R221). -/
theorem resetBlock_pid_length (s : State) : (resetBlock s).pid.length = s.pid.length := by
  rw [resetBlock_pid, List.length_replicate]

/-- Every PID context that the reset input leaves is one that was never initialised (R38). -/
theorem eq_reset_of_mem_resetBlock_pid {s : State} {c : PidCtx} (hc : c ∈ (resetBlock s).pid) :
    c = PidCtx.reset := by
  rw [resetBlock_pid] at hc
  exact List.eq_of_mem_replicate hc

/-- Settles O2: the next state is `resetBlock` of the state without the turn, field by field. -/
theorem resetInputClearsBlock : Obligations.ResetInputClearsBlock := by
  intro s ts hturns
  refine ⟨resetBlock { s with turns := ts }, step_reset hturns, ?fault, ?fb, ?cur, ?dev,
    ?pidLength, ?pid, ?frame⟩
  case fault => rw [resetBlock_fault, ← resetBlock_reset, resetBlock_fault]
  case fb => exact resetBlock_fbByte _
  case cur => rw [resetBlock_cur, ← resetBlock_reset, resetBlock_cur]
  case dev => exact resetBlock_device_eq_reset _
  case pidLength => exact resetBlock_pid_length _
  case pid => exact fun _ hc => eq_reset_of_mem_resetBlock_pid hc
  case frame => rfl

end Sys2Proof.Machine
end
